-- ==== Sys2Proof/Word.lean ====
section
/-! DEFINITION. The register word of the DTC: 32 bits, bit 0 the least significant (00_scope.md R5, R6; decision D1). -/

namespace Sys2Proof

/-- A register word, and also a physical address (`W = 32`, `PA = 32`, R5) and a `u32` operand (R103, decision D33). -/
abbrev Word := BitVec 32

end Sys2Proof
end

