-- ==== Sys2Proof/Syntax.lean ====
section
/-! DEFINITION. What software hands to the block: the `DisplayMode` operand record, one constructor per row of the opcode
table, and the encoded object a request carries (30_encoding.md R90, R101 to R103). -/

namespace Sys2Proof

/-- One sub-field of a pixel: its offset and its length in bits (R242). -/
structure BitField where
  offset : Nat
  length : Nat
deriving DecidableEq, Repr

/-- `ColorFieldLayout`: where red, green, blue and alpha stand in a pixel (R242). Host data; no register holds it. -/
structure ColorFieldLayout where
  red   : BitField
  green : BitField
  blue  : BitField
  alpha : BitField
deriving DecidableEq, Repr

/-- The `DisplayMode` operand record (R103): unsigned 32-bit fields (decision D33), and the colour layout, which only
`VALIDATE` fills in. `vmode` is carried and read by no rule. -/
structure DisplayMode where
  xres         : Word
  yres         : Word
  xresVirtual  : Word
  yresVirtual  : Word
  bitsPerPixel : Word
  pixclock     : Word
  leftMargin   : Word
  rightMargin  : Word
  upperMargin  : Word
  lowerMargin  : Word
  hsyncLen     : Word
  vsyncLen     : Word
  syncFlags    : Word
  vmode        : Word
  layout       : Option ColorFieldLayout
deriving DecidableEq, Repr

/-- The operations of the block, one constructor per row of the opcode table: the sixteen `REG` transactions (R101), then
the twelve `CMD` commands (R102). -/
inductive Instr where
  | wrHtiming (v : Word)
  | wrVtiming (v : Word)
  | wrClockPolarity (v : Word)
  | wrFrameBase (v : Word)
  | wrIntEnable (v : Word)
  | wrControl (v : Word)
  | wrIntClear (v : Word)
  | rdIntStatus
  | rdHtiming
  | rdVtiming
  | rdClockPolarity
  | rdFrameBase
  | rdIntEnable
  | rdControl
  | wrIntStatus (v : Word)
  | rdIntClear
  | irqInit
  | commit (mode : DisplayMode) (clockKhz : Word)
  | pan (physicalBase lineLengthBytes yOffset : Word)
  | setbase (physicalBase : Word)
  | pollAck
  | validate (requested current : DisplayMode) (clockKhz : Word) (capacity : Option Word)
  | sizerEnsure (mode : DisplayMode)
  | sizerFixedInit
  | setMode (requested : DisplayMode)
  | panY (yOffset : Word)
  | pollEvents
  | getMode
deriving DecidableEq, Repr

/-- The mnemonic of the textual syntax (R108), as the opcode table spells it. -/
def Instr.mnemonic : Instr → String
  | .wrHtiming _ => "WR.HTIMING"
  | .wrVtiming _ => "WR.VTIMING"
  | .wrClockPolarity _ => "WR.CLOCK_POLARITY"
  | .wrFrameBase _ => "WR.FRAME_BASE"
  | .wrIntEnable _ => "WR.INT_ENABLE"
  | .wrControl _ => "WR.CONTROL"
  | .wrIntClear _ => "WR.INT_CLEAR"
  | .rdIntStatus => "RD.INT_STATUS"
  | .rdHtiming => "RD.HTIMING"
  | .rdVtiming => "RD.VTIMING"
  | .rdClockPolarity => "RD.CLOCK_POLARITY"
  | .rdFrameBase => "RD.FRAME_BASE"
  | .rdIntEnable => "RD.INT_ENABLE"
  | .rdControl => "RD.CONTROL"
  | .wrIntStatus _ => "WR.INT_STATUS"
  | .rdIntClear => "RD.INT_CLEAR"
  | .irqInit => "IRQ.INIT"
  | .commit _ _ => "COMMIT"
  | .pan _ _ _ => "PAN"
  | .setbase _ => "SETBASE"
  | .pollAck => "POLL_ACK"
  | .validate _ _ _ _ => "VALIDATE"
  | .sizerEnsure _ => "SIZER.ENSURE"
  | .sizerFixedInit => "SIZER.FIXED_INIT"
  | .setMode _ => "SET_MODE"
  | .panY _ => "PAN_Y"
  | .pollEvents => "POLL_EVENTS"
  | .getMode => "GET_MODE"

/-- An operation as a request carries it (R90). `reg`: the 9 bits `we[8], off[7:0]` of a bus transaction, its width in
bytes (R65) and its data word (ignored by a read). `cmd`: the 4-bit select `op[3:0]` and the operand record, one 32-bit
word after another (the order of the words is the model's, log 5). -/
inductive Code where
  | reg (sel : BitVec 9) (width : Nat) (data : Word)
  | cmd (op : BitVec 4) (operands : List Word)
deriving DecidableEq, Repr

/-- Why a request decodes to no operation. -/
inductive Reject where
  /-- An offset and direction that no row of R101 names, or a width other than 4 bytes (R141). -/
  | unmapped (off : BitVec 8)
  /-- A reserved command select: 0x5, 0x6, 0x7 or 0xF (R107). -/
  | reservedCommand (op : BitVec 4)
  /-- The operand words are not a record of the type the command takes (log 5). -/
  | illTyped (op : BitVec 4)
deriving DecidableEq, Repr

end Sys2Proof
end

