-- ==== Sys2Proof/Config.lean ====
section
/-! DEFINITION. What is fixed for one instance of the block: the configuration record `cfg` and the field positions
`Layout` (00_scope.md R4, R5), the reference layout `L_ref` (R110), and the free values the spec calls draws. -/

namespace Sys2Proof

/-- A register field: its least significant bit and its width (R7). -/
structure Field where
  lsb   : Nat
  width : Nat
deriving DecidableEq, Repr

/-- `Layout.BPPCODE` (R29): one 3-bit code per depth class; 24 and 32 share one. -/
structure BppCodes where
  bpp1  : Nat
  bpp2  : Nat
  bpp4  : Nat
  bpp8  : Nat
  bpp16 : Nat
  bpp24 : Nat
deriving DecidableEq, Repr

/-- `Layout` (R5, R90): a position and width per field, a bit number per flag. OPEN in the spec (decision D2). -/
structure Layout where
  ppl : Field
  hw  : Field
  hfp : Field
  hbp : Field
  lpp : Field
  vw  : Field
  vfp : Field
  vbp : Field
  divno : Field
  ivs : Nat
  ihs : Nat
  ipc : Nat
  adpen : Nat
  en  : Nat
  bpp : Field
  tft : Nat
  bgr : Nat
  endian : Field
  underrun  : Nat
  nextBase  : Nat
  vstatus   : Nat
  busError  : Nat
  endianLeLe : Nat
  bppCode : BppCodes
deriving DecidableEq, Repr

/-- `cfg.overflow_policy` (R100, decision D3). -/
inductive OverflowPolicy where
  | fault
  | truncate
deriving DecidableEq, Repr

/-- `cfg.readback` (R139, decision D11). -/
inductive Readback where
  | refuse
  | stored
deriving DecidableEq, Repr

/-- `cfg.policy`, the framebuffer policy (R4). -/
inductive Policy where
  | grow
  | fixed
deriving DecidableEq, Repr

/-- `cfg.color_order` (R4, R242). -/
inductive ColorOrder where
  | redLow
  | redHigh
deriving DecidableEq, Repr

/-- What a storing register holds: always a 32-bit word. `holds w`: the word a step wrote, or the reset image gave.
`unwritten w`: the state the spec gives a register that no step has written since reset (R320, glossary), which rules read:
`EnableBeforeTiming` (R136), `ReadUnwritten` (R139). The word `w` there is a free value, whatever the cell came up with; no
operation returns it, which is how the model says that the register "holds no value" (log 29). -/
inductive Stored where
  | unwritten (w : Word)
  | holds (w : Word)
deriving DecidableEq, Repr

/-- The word in a register, written or not. -/
def Stored.word : Stored → Word
  | .unwritten w => w
  | .holds w => w

/-- The register file: what the six storing registers hold. -/
structure Regs where
  htiming       : Stored
  vtiming       : Stored
  clockPolarity : Stored
  frameBase     : Stored
  intEnable     : Stored
  control       : Stored
deriving DecidableEq, Repr

/-- `cfg.reset_image` (R42, R320, decision D6): for each storing register the value a reset gives it, or `none` where it gives
none and leaves the register unwritten. -/
structure ResetImage where
  htiming       : Option Word
  vtiming       : Option Word
  clockPolarity : Option Word
  frameBase     : Option Word
  intEnable     : Option Word
  control       : Option Word
deriving DecidableEq, Repr

/-- The configuration record `cfg` (R4, R5), immutable for the life of the instance. `framePeriod` and `rbBase` are carried
and read by no step (R5, R9). -/
structure Config where
  clockKhz          : Word
  invertPixelClock  : Bool
  policy            : Policy
  multiplier        : Nat
  colorOrder        : ColorOrder
  probeMode         : DisplayMode
  layout            : Layout
  fbAlignLog2       : Nat
  overflowPolicy    : OverflowPolicy
  readback          : Readback
  statusMasked      : Bool
  resetImage        : ResetImage
  framePeriod       : Nat
  rbBase            : Word
deriving DecidableEq, Repr

/-- `L_ref` (R110), the reference layout; from general knowledge in the spec's own words, so no statement rests on it but
those that name it. -/
def Layout.reference : Layout where
  ppl := ⟨2, 6⟩
  hw  := ⟨8, 8⟩
  hfp := ⟨16, 8⟩
  hbp := ⟨24, 8⟩
  lpp := ⟨0, 10⟩
  vw  := ⟨10, 6⟩
  vfp := ⟨16, 8⟩
  vbp := ⟨24, 8⟩
  divno := ⟨0, 6⟩
  ivs := 11
  ihs := 12
  ipc := 13
  adpen := 15
  en  := 0
  bpp := ⟨1, 3⟩
  tft := 5
  bgr := 8
  endian := ⟨9, 2⟩
  underrun := 1
  nextBase := 2
  vstatus  := 3
  busError := 4
  endianLeLe := 0
  bppCode := ⟨0, 1, 2, 3, 4, 5⟩

/-- The reset image of the spec's default: every storing register unwritten (R320, decision D6). -/
def ResetImage.unwritten : ResetImage := ⟨none, none, none, none, none, none⟩

/-- The mode `M1` of the spec's examples (41_timing_encoder.md, header). -/
def DisplayMode.m1 : DisplayMode where
  xres := 320#32
  yres := 240#32
  xresVirtual := 320#32
  yresVirtual := 480#32
  bitsPerPixel := 16#32
  pixclock := 166667#32
  leftMargin := 68#32
  rightMargin := 20#32
  upperMargin := 18#32
  lowerMargin := 4#32
  hsyncLen := 30#32
  vsyncLen := 3#32
  syncFlags := 0#32
  vmode := 0#32
  layout := none

/-- The configuration `State.reset` carries (DESIGN CHOICE, log 2, unsafe): `L_ref`, the spec's defaults (R5) and, where
the spec gives no default, the values its vectors use. Statements quantify over every configuration instead. -/
def Config.reference : Config where
  clockKhz := 66000#32
  invertPixelClock := false
  policy := .grow
  multiplier := 2
  colorOrder := .redLow
  probeMode := .m1
  layout := .reference
  fbAlignLog2 := 2
  overflowPolicy := .fault
  readback := .refuse
  statusMasked := false
  resetImage := .unwritten
  framePeriod := 0
  rbBase := 0#32

/-- Free value (log 29): the word in the storing register at a byte offset after a reset that leaves it unwritten (R320). -/
opaque Config.freeRegister : Nat → Word

/-- Free value (log 3): `INT_STATUS` after reset, "a draw: any word" (R320). -/
opaque Config.freeIntStatus : Word

/-- Free value (log 3): `scan_base` after reset, "a draw (any address)" (R42). -/
opaque Config.freeScanBase : Word

/-- Free value (log 4): the level of `irq`, for the word in an unwritten `INT_ENABLE` and a step count (R37). -/
opaque Config.freeIrq : Word → Nat → Bool

/-- Free value (log 4): the mask the display engine works under, for the word in an unwritten `INT_ENABLE` and a step count
(R287). -/
opaque Config.freeMask : Word → Nat → Word

/-- Free value (log 26): whether the display pipeline runs, for the word in `CONTROL` and a step count, where no EN set in a
written `CONTROL` says that it does (R320, U19, `91_not_in_source.md` N20). -/
opaque Config.freePipeline : Word → Nat → Bool

/-- Free value (log 4): what the display engine latches, for the word in an unwritten `FRAME_BASE` and a step count (R36,
R320). -/
opaque Config.freeLatch : Word → Nat → Word

end Sys2Proof
end

