-- ==== Sys2Proof/WellFormed.lean ====
section
/-! DEFINITION. Which layouts, configurations, modes and operations are well-formed (R4, R5, R90, R103). -/

namespace Sys2Proof

/-- A number that one operand word can carry. -/
def fitsWord (n : Nat) : Bool := decide (n < 2 ^ 32)

def BitField.wf (f : BitField) : Bool := fitsWord f.offset && fitsWord f.length

def ColorFieldLayout.wf (l : ColorFieldLayout) : Bool := l.red.wf && l.green.wf && l.blue.wf && l.alpha.wf

/-- A mode an operand record can carry: its colour layout's numbers fit their operand words (decision D33). -/
def DisplayMode.wf (m : DisplayMode) : Bool :=
  match m.layout with
  | none => true
  | some l => l.wf

/-- The source's invariant of a mode (R103). No operation requires it: each says itself what it does without it. -/
def DisplayMode.invariant (m : DisplayMode) : Bool :=
  decide (m.pixclock ≠ 0#32) && decide (m.xres.toNat ≤ m.xresVirtual.toNat)
    && decide (m.yres.toNat ≤ m.yresVirtual.toNat)

/-- A well-formed operation: every mode it carries is (R103). -/
def Instr.wf : Instr → Bool
  | .wrHtiming _ => true
  | .wrVtiming _ => true
  | .wrClockPolarity _ => true
  | .wrFrameBase _ => true
  | .wrIntEnable _ => true
  | .wrControl _ => true
  | .wrIntClear _ => true
  | .rdIntStatus => true
  | .rdHtiming => true
  | .rdVtiming => true
  | .rdClockPolarity => true
  | .rdFrameBase => true
  | .rdIntEnable => true
  | .rdControl => true
  | .wrIntStatus _ => true
  | .rdIntClear => true
  | .irqInit => true
  | .commit m _ => m.wf
  | .pan _ _ _ => true
  | .setbase _ => true
  | .pollAck => true
  | .validate r c _ _ => r.wf && c.wf
  | .sizerEnsure m => m.wf
  | .sizerFixedInit => true
  | .setMode m => m.wf
  | .panY _ => true
  | .pollEvents => true
  | .getMode => true

/-- A field inside bits 31 to 0 (R90). -/
def Field.inWord (f : Field) : Bool := decide (f.lsb + f.width ≤ 32)

/-- Two fields that share no bit (R90). -/
def Field.apart (f g : Field) : Bool := decide (f.lsb + f.width ≤ g.lsb) || decide (g.lsb + g.width ≤ f.lsb)

/-- A flag as a field of one bit. -/
def Field.ofBit (b : Nat) : Field := ⟨b, 1⟩

/-- One word format is well-formed: every field in the word, no two sharing a bit (R90). -/
def formatWf : List Field → Bool
  | [] => true
  | f :: rest => f.inWord && rest.all f.apart && formatWf rest

def Layout.htimingFields (l : Layout) : List Field := [l.ppl, l.hw, l.hfp, l.hbp]

def Layout.vtimingFields (l : Layout) : List Field := [l.lpp, l.vw, l.vfp, l.vbp]

def Layout.clockPolarityFields (l : Layout) : List Field :=
  [l.divno, .ofBit l.ivs, .ofBit l.ihs, .ofBit l.ipc, .ofBit l.adpen]

def Layout.controlFields (l : Layout) : List Field :=
  [.ofBit l.en, l.bpp, .ofBit l.tft, .ofBit l.bgr, l.endian]

def Layout.interruptFields (l : Layout) : List Field :=
  [.ofBit l.underrun, .ofBit l.nextBase, .ofBit l.vstatus, .ofBit l.busError]

def BppCodes.toList (c : BppCodes) : List Nat := [c.bpp1, c.bpp2, c.bpp4, c.bpp8, c.bpp16, c.bpp24]

/-- `Layout.BPPCODE` is injective on the six classes and each code fits three bits (R29). -/
def BppCodes.wf (c : BppCodes) : Bool := decide c.toList.Nodup && c.toList.all fun n => decide (n < 8)

/-- `Layout` is well-formed (R90, R29): five formats without overlap, `DIVNO` at bit 0, `BPP` three bits wide, the
endianness code fitting its field, the depth codes distinct. -/
def Layout.wf (l : Layout) : Bool :=
  formatWf l.htimingFields && formatWf l.vtimingFields && formatWf l.clockPolarityFields
    && formatWf l.controlFields && formatWf l.interruptFields
    && decide (l.divno.lsb = 0) && decide (l.bpp.width = 3)
    && decide (l.endianLeLe < 2 ^ l.endian.width) && l.bppCode.wf

/-- Under the fixed policy the probe mode's virtual height is `N` times its height (R246), so that the buffer of
`SIZER.FIXED_INIT` is exactly the probe mode's. Under the growing policy nothing is asked. -/
def Config.probeModeWf (c : Config) : Bool :=
  match c.policy with
  | .grow => true
  | .fixed => decide (c.probeMode.yresVirtual.toNat = c.multiplier * c.probeMode.yres.toNat)

/-- A configuration of one instance (R4, R5): a well-formed layout, `0 <= g <= 31` (decision D4), `N` at least 1, and a probe
mode that agrees with the policy (R246). No step checks it (log 1). -/
def Config.wf (c : Config) : Bool :=
  c.layout.wf && decide (c.fbAlignLog2 ≤ 31) && decide (1 ≤ c.multiplier) && c.probeModeWf

end Sys2Proof
end

