-- ==== Sys2Proof/Decode.lean ====
section
/-! DEFINITION. The decoder, total on every request, rejecting by name; after it the encoder, written from the same tables
(30_encoding.md R101, R102, R103); and the opcode table's numbering of an operation's bits. -/

namespace Sys2Proof

/-! ### Operand records (R103; the order of the words is the model's, log 5) -/

/-- The operand words a list of words begins with, read as a colour layout: a presence word, then eight numbers. -/
def takeLayout : List Word → Option (Option ColorFieldLayout × List Word)
  | p :: ro :: rl :: go :: gl :: bo :: bl :: ao :: al :: rest =>
    if p = 0#32 then some (none, rest)
    else if p = 1#32 then
      some (some ⟨⟨ro.toNat, rl.toNat⟩, ⟨go.toNat, gl.toNat⟩, ⟨bo.toNat, bl.toNat⟩, ⟨ao.toNat, al.toNat⟩⟩, rest)
    else none
  | _ => none

/-- The operand words a list of words begins with, read as a `DisplayMode` (R103, in the rule's order of mention). -/
def takeMode : List Word → Option (DisplayMode × List Word)
  | xr :: yr :: xv :: yv :: bpp :: pc :: lm :: rm :: um :: dm :: hs :: vs :: sf :: vm :: rest =>
    match takeLayout rest with
    | some (l, rest') => some (⟨xr, yr, xv, yv, bpp, pc, lm, rm, um, dm, hs, vs, sf, vm, l⟩, rest')
    | none => none
  | _ => none

/-- The operand words a list of words begins with, read as an `Option<u32>`: a presence word, then the value. -/
def takeOptionWord : List Word → Option (Option Word × List Word)
  | p :: v :: rest => if p = 0#32 then some (none, rest) else if p = 1#32 then some (some v, rest) else none
  | _ => none

/-! ### The decoder -/

/-- The `REG` table (R101): the operation a select of nine bits `we, off` names, with its data word. -/
def decodeReg (sel : BitVec 9) (v : Word) : Except Reject Instr :=
  match sel with
  | 0x100#9 => .ok (.wrHtiming v)
  | 0x104#9 => .ok (.wrVtiming v)
  | 0x108#9 => .ok (.wrClockPolarity v)
  | 0x110#9 => .ok (.wrFrameBase v)
  | 0x118#9 => .ok (.wrIntEnable v)
  | 0x11C#9 => .ok (.wrControl v)
  | 0x120#9 => .ok (.wrIntClear v)
  | 0x024#9 => .ok .rdIntStatus
  | 0x000#9 => .ok .rdHtiming
  | 0x004#9 => .ok .rdVtiming
  | 0x008#9 => .ok .rdClockPolarity
  | 0x010#9 => .ok .rdFrameBase
  | 0x018#9 => .ok .rdIntEnable
  | 0x01C#9 => .ok .rdControl
  | 0x124#9 => .ok (.wrIntStatus v)
  | 0x020#9 => .ok .rdIntClear
  | _ => .error (.unmapped (sel.setWidth 8))

/-- The `CMD` table (R102): the command a select `op[3:0]` names, with its operand record; words after the record are not
looked at. -/
def decodeCmd (op : BitVec 4) (ws : List Word) : Except Reject Instr :=
  match op with
  | 0x0#4 => .ok .irqInit
  | 0x1#4 =>
    match takeMode ws with
    | some (m, c :: _) => .ok (.commit m c)
    | _ => .error (.illTyped op)
  | 0x2#4 =>
    match ws with
    | b :: l :: y :: _ => .ok (.pan b l y)
    | _ => .error (.illTyped op)
  | 0x3#4 =>
    match ws with
    | b :: _ => .ok (.setbase b)
    | _ => .error (.illTyped op)
  | 0x4#4 => .ok .pollAck
  | 0x8#4 =>
    match takeMode ws with
    | some (r, ws') =>
      match takeMode ws' with
      | some (m, c :: ws'') =>
        match takeOptionWord ws'' with
        | some (cap, _) => .ok (.validate r m c cap)
        | none => .error (.illTyped op)
      | _ => .error (.illTyped op)
    | none => .error (.illTyped op)
  | 0x9#4 =>
    match takeMode ws with
    | some (m, _) => .ok (.sizerEnsure m)
    | none => .error (.illTyped op)
  | 0xA#4 => .ok .sizerFixedInit
  | 0xB#4 =>
    match takeMode ws with
    | some (m, _) => .ok (.setMode m)
    | none => .error (.illTyped op)
  | 0xC#4 =>
    match ws with
    | y :: _ => .ok (.panY y)
    | _ => .error (.illTyped op)
  | 0xD#4 => .ok .pollEvents
  | 0xE#4 => .ok .getMode
  | _ => .error (.reservedCommand op)

/-- The decoder. A bus transaction that is not four bytes wide is unmapped (R65, R141). -/
def decode : Code → Except Reject Instr
  | .reg sel width v => if width = 4 then decodeReg sel v else .error (.unmapped (sel.setWidth 8))
  | .cmd op ws => decodeCmd op ws

/-! ### The encoder -/

def BitField.words (f : BitField) : List Word := [BitVec.ofNat 32 f.offset, BitVec.ofNat 32 f.length]

def layoutWords : Option ColorFieldLayout → List Word
  | none => List.replicate 9 0#32
  | some l => 1#32 :: (l.red.words ++ l.green.words ++ l.blue.words ++ l.alpha.words)

def DisplayMode.words (m : DisplayMode) : List Word :=
  [m.xres, m.yres, m.xresVirtual, m.yresVirtual, m.bitsPerPixel, m.pixclock, m.leftMargin, m.rightMargin,
    m.upperMargin, m.lowerMargin, m.hsyncLen, m.vsyncLen, m.syncFlags, m.vmode] ++ layoutWords m.layout

def optionWords : Option Word → List Word
  | none => [0#32, 0#32]
  | some v => [1#32, v]

/-- The encoder, from the tables of R101 and R102. A read carries the data word 0. -/
def encode : Instr → Code
  | .wrHtiming v => .reg 0x100#9 4 v
  | .wrVtiming v => .reg 0x104#9 4 v
  | .wrClockPolarity v => .reg 0x108#9 4 v
  | .wrFrameBase v => .reg 0x110#9 4 v
  | .wrIntEnable v => .reg 0x118#9 4 v
  | .wrControl v => .reg 0x11C#9 4 v
  | .wrIntClear v => .reg 0x120#9 4 v
  | .rdIntStatus => .reg 0x024#9 4 0#32
  | .rdHtiming => .reg 0x000#9 4 0#32
  | .rdVtiming => .reg 0x004#9 4 0#32
  | .rdClockPolarity => .reg 0x008#9 4 0#32
  | .rdFrameBase => .reg 0x010#9 4 0#32
  | .rdIntEnable => .reg 0x018#9 4 0#32
  | .rdControl => .reg 0x01C#9 4 0#32
  | .wrIntStatus v => .reg 0x124#9 4 v
  | .rdIntClear => .reg 0x020#9 4 0#32
  | .irqInit => .cmd 0x0#4 []
  | .commit m c => .cmd 0x1#4 (m.words ++ [c])
  | .pan b l y => .cmd 0x2#4 [b, l, y]
  | .setbase b => .cmd 0x3#4 [b]
  | .pollAck => .cmd 0x4#4 []
  | .validate r m c cap => .cmd 0x8#4 (r.words ++ (m.words ++ (c :: optionWords cap)))
  | .sizerEnsure m => .cmd 0x9#4 m.words
  | .sizerFixedInit => .cmd 0xA#4 []
  | .setMode m => .cmd 0xB#4 m.words
  | .panY y => .cmd 0xC#4 [y]
  | .pollEvents => .cmd 0xD#4 []
  | .getMode => .cmd 0xE#4 []

/-! ### The opcode table's numbering -/

/-- How many operand words the longest command takes (`VALIDATE`: two modes, a clock, an optional capacity). -/
def longestOperands : Nat := 49

/-- The request that the low bits of `w` stand for, when the table gives the row `nbits` bits in whole bytes: eight for a
`CMD` row (four bits of select), sixteen for a `REG` row (nine bits). Every operand word is 0. The two formats number their
selects from 0 each (`RD.HTIMING` and `IRQ.INIT` are both 0), so the row's size tells them apart (log 6). -/
def tableCode (nbits w : Nat) : Code :=
  if nbits ≤ 8 then .cmd (BitVec.ofNat 4 w) (List.replicate longestOperands 0#32)
  else .reg (BitVec.ofNat 9 w) 4 0#32

/-- The operation the decoder reads from an operation whose bits are `w`, as the opcode table numbers them. -/
def decodeTableWord (nbits w : Nat) : Option Instr :=
  match decode (tableCode nbits w) with
  | .ok i => some i
  | .error _ => none

end Sys2Proof
end

