-- ==== Sys2Proof/Machine/State.lean ====
section
/-! DEFINITION. The state of the machine, the reasons a step can stop, and the state after reset (10_state.md R20 to R42,
60_exceptions.md R281 to R286, 70_reset_and_hazards.md R320, R321). -/

namespace Sys2Proof.Machine

/-- The eight registers of the block (R20). -/
inductive Reg where
  | htiming
  | vtiming
  | clockPolarity
  | frameBase
  | intEnable
  | control
  | intClear
  | intStatus
deriving DecidableEq, Repr

/-- The six registers that store the word written to them (R130). -/
inductive StoringReg where
  | htiming
  | vtiming
  | clockPolarity
  | frameBase
  | intEnable
  | control
deriving DecidableEq, Repr

/-- The fields the encoder range-checks (R100, R291). -/
inductive FieldName where
  | divno
  | ppl
  | hw
  | hfp
  | hbp
  | lpp
  | vw
  | vfp
  | vbp
deriving DecidableEq, Repr

/-- The causes of `ContractViolation` (R285). -/
inductive ContractCause where
  | unsupportedBpp
  | pixclockZero
deriving DecidableEq, Repr

/-- The faults of the block, the spec's closed list (R285). An operation that faults sets the fault latch, in a next state;
the machine stops with that fault at every step after it (`step`, log 7). Each is safe in the log's sense: the model stops
where hardware "would at worst write a truncated field or scan out garbage" (R285). -/
inductive Fault where
  /-- Raised by `COMMIT` (and the commit of `SET_MODE`) before any write: unsupported depth, or `pixclock = 0`. Safe. -/
  | contractViolation (cause : ContractCause)
  /-- Raised by the encoders, so by `COMMIT`, before any write, under `overflow_policy = fault`: a value that does not fit
  its field. Safe. -/
  | encodeRange (field : FieldName) (value : Int)
  /-- Raised by `WR.CONTROL` with EN set while `HTIMING`, `VTIMING`, `CLOCK_POLARITY` or `FRAME_BASE` is unwritten. Safe. -/
  | enableBeforeTiming
  /-- Raised by a read of an unwritten storing register under `readback = stored`, as the pseudocode of R139 and the table of
  R285 say. Safe. -/
  | readUnwritten (r : StoringReg)
deriving DecidableEq, Repr

/-- The refusals. Those of the spec's closed list (R286) set the mark `refused` in a next state that is otherwise
unchanged, and the run goes on (log 8). The last three stop the machine. -/
inductive Refusal where
  /-- Raised by no operation: the arm of an operation without a meaning; there is none. Safe. -/
  | notModelled (mnemonic : String)
  /-- A transaction at an offset, direction or width the source gives no meaning (R141). A mark, safe. -/
  | unmapped (off : BitVec 8)
  /-- A read of a storing register under `readback = refuse` (R139). A mark, safe. -/
  | readNotShown (r : StoringReg)
  /-- `WR.INT_STATUS` or `RD.INT_CLEAR` (R140). A mark, safe. -/
  | directionNotShown (r : Reg)
  /-- A reserved command select (R107). A mark, safe. -/
  | reservedCommand (op : BitVec 4)
  /-- A `CFG` request while a call of the configuration context is in progress (R170, R286). A mark, safe. -/
  | commitInProgress
  /-- A second `POLL_ACK` while one is in progress (R223, R286). A mark, safe. -/
  | pollInProgress
  /-- A request outside its agent's rights (R294, R286). A mark, safe. -/
  | foreignWriter
  /-- Raised by `step`: operand words that are no record of the command's type (log 5). Stops the machine, safe. -/
  | illTyped
  /-- Raised by `step`: the host frees a retired buffer the display engine still scans (R325, log 9). Stops, safe. -/
  | graceNotOver
deriving DecidableEq, Repr

/-! ### Results -/

/-- `ModeError` (R281). -/
inductive ModeError where
  | missingClock
  | clockTooFast
  | resolutionFixed
  | virtualHeightOutOfRange
  | bufferTooSmall
  | unsupportedDepth
deriving DecidableEq, Repr

/-- `TimingError` (R282). -/
inductive TimingError where
  | clockExceedsBus
deriving DecidableEq, Repr

/-- `SizerError` (R283). -/
inductive SizerError where
  | outOfMemory
deriving DecidableEq, Repr

/-- `PanError` (R284). -/
inductive PanError where
  | outOfRange
  | noBuffer
deriving DecidableEq, Repr

/-- The error an operation returns to its caller (R280). -/
inductive OpError where
  | mode (e : ModeError)
  | timing (e : TimingError)
  | sizer (e : SizerError)
  | pan (e : PanError)
deriving DecidableEq, Repr

/-- The event kinds, one per interrupt class (R30, R287). -/
inductive StatusEvent where
  | underrun
  | bufferBaseUpdated
  | verticalSync
  | busError
deriving DecidableEq, Repr

/-- A set of events, without order or multiplicity (R221, decision D30). -/
structure EventSet where
  underrun          : Bool
  bufferBaseUpdated : Bool
  verticalSync      : Bool
  busError          : Bool
deriving DecidableEq, Repr

/-- `CommittedTiming` (R169): what `COMMIT` computes, and returns once its four writes are done. -/
structure CommittedTiming where
  divider           : Nat
  effectiveClockKhz : Nat
  pixclock          : Word
  cp : Word
  ht : Word
  vt : Word
  ct : Word
deriving DecidableEq, Repr

/-- A result. -/
inductive Value where
  | unit
  | word (w : Word)
  | address (a : Word)
  | events (e : EventSet)
  | mode (m : DisplayMode)
  | timing (c : CommittedTiming)
deriving DecidableEq, Repr

/-- The four ways an operation ends (R10, R280). -/
inductive OpOutcome where
  | ok (v : Value)
  | error (e : OpError)
  | fault (f : Fault)
  | refuse (r : Refusal)
deriving DecidableEq, Repr

/-- One transaction on the register block (R9). -/
inductive BusTx where
  | write (r : Reg) (v : Word)
  | read (r : Reg) (v : Word)
deriving DecidableEq, Repr

/-! ### Agents and inputs -/

/-- Who issues a request (R11, R294). The host's calls run in one of the two contexts; `other` is "anything else". -/
inductive Agent where
  | cfg
  | evt
  | other
deriving DecidableEq, Repr

/-- The host-side contexts whose operations take more than one step (R12). -/
inductive Ctx where
  | cfg
  | evt
deriving DecidableEq, Repr

/-- What the allocator answers a request for memory (R250): a failure, or a handle and a physical address. -/
inductive AllocReply where
  | fails
  | grants (handle : Nat) (physicalBase : Word)
deriving DecidableEq, Repr

/-- One entry of the schedule: which agent takes the next step, and what it does (R11, R12, R74). -/
inductive Action where
  /-- An agent issues an operation; `reply` is the allocator's answer, should the operation ask for memory. -/
  | issue (agent : Agent) (code : Code) (reply : AllocReply)
  /-- A context takes the next step of its operation in progress. -/
  | resume (ctx : Ctx)
  /-- `DE.RAISE S` (R287). -/
  | raise (classes : EventSet)
  /-- `DE.LATCH` (R36). -/
  | latch
  /-- The display engine reads the register image (R74). -/
  | scan
  /-- The draw of the status bits outside the four classes (decision D31, log 10). -/
  | drawReserved (w : Word)
  /-- The host passes the `k`-th retired buffer to `free_dma` (R325). -/
  | free (k : Nat)
deriving DecidableEq, Repr

/-! ### The state -/

/-- The commit sequencer (R32): the register the next write goes to. -/
inductive Seq where
  | idle
  | c1
  | c2
  | c3
deriving DecidableEq, Repr

/-- The commit in progress: its four latched words `pend` with the rest of the record it will return (R32, R169), and the
validated mode when it is the commit of a `SET_MODE` (R247). -/
structure Pend where
  timing  : CommittedTiming
  setMode : Option DisplayMode
deriving DecidableEq, Repr

/-- The status-decoder latch (R33). -/
inductive Ack where
  | none
  | pending (s : Word)
deriving DecidableEq, Repr

/-- `FramebufferBuffer` (R35): an opaque handle, a physical base, a length in bytes. -/
structure Buffer where
  virtualBase  : Nat
  physicalBase : Word
  length       : Nat
deriving DecidableEq, Repr

/-- The state. `regs`, `intStatus` are the register block (R20); `seq`, `pend`, `ack`, `fault`, `refused` the block's own
state (R32 to R34, R286); `curMode`, `buf`, `retired`, `irqInited` the host state (R35); `scanBase` the display engine's
(R36). The other fields are the model's: `cfg`, the configuration record no step changes (log 1); `setModeGap`, a
`SET_MODE` between its sizer and its commit (log 11); `out` and `bus`, what the last step returned to its caller and put
on the bus (log 12); `schedule`, the agents' steps to come (log 13); `allocReply`, the allocator's answer to the step
being taken (log 14); `steps`, the count the free values are drawn at (log 4). -/
structure State where
  cfg        : Config
  regs       : Regs
  intStatus  : Word
  seq        : Seq
  pend       : Option Pend
  ack        : Ack
  fault      : Option Fault
  refused    : Bool
  curMode    : DisplayMode
  buf        : Option Buffer
  retired    : List Buffer
  irqInited  : Bool
  scanBase   : Word
  setModeGap : Option DisplayMode
  out        : Option OpOutcome
  bus        : Option BusTx
  schedule   : List Action
  allocReply : AllocReply
  steps      : Nat
deriving DecidableEq, Repr

/-- The answer of a step. -/
abbrev Out := Host.Outcome State Fault Refusal

/-- The value a reset image gives a register, if it gives one. -/
def imageValue (x : ResetImage) : StoringReg → Option Word
  | .htiming => x.htiming
  | .vtiming => x.vtiming
  | .clockPolarity => x.clockPolarity
  | .frameBase => x.frameBase
  | .intEnable => x.intEnable
  | .control => x.control

/-- A register after reset: it holds the value of the reset image, or is unwritten over the word it came up with (R320). -/
def resetCell (given : Option Word) (word : Word) : Stored :=
  match given with
  | some w => .holds w
  | none => .unwritten word

/-- The register file after reset, for given words of the registers the image leaves unwritten. -/
def resetRegs (x : ResetImage) (words : StoringReg → Word) : Regs where
  htiming := resetCell (imageValue x .htiming) (words .htiming)
  vtiming := resetCell (imageValue x .vtiming) (words .vtiming)
  clockPolarity := resetCell (imageValue x .clockPolarity) (words .clockPolarity)
  frameBase := resetCell (imageValue x .frameBase) (words .frameBase)
  intEnable := resetCell (imageValue x .intEnable) (words .intEnable)
  control := resetCell (imageValue x .control) (words .control)

/-- The state after reset of an instance with configuration `cfg` (R42, R320, R321), for given draws: the words in the
registers that the reset image leaves unwritten (log 29), `INT_STATUS` and `scan_base` (log 3). Nothing is scheduled.
`curMode` is the probe mode as `cfg` has it; that under the fixed policy its virtual height is `N` times its height (R246) is
part of `Config.wf` (log 1). -/
def State.resetOf (cfg : Config) (words : StoringReg → Word) (status scan : Word) : State where
  cfg := cfg
  regs := resetRegs cfg.resetImage words
  intStatus := status
  seq := .idle
  pend := none
  ack := .none
  fault := none
  refused := false
  curMode := cfg.probeMode
  buf := none
  retired := []
  irqInited := false
  scanBase := scan
  setModeGap := none
  out := none
  bus := none
  schedule := []
  allocReply := .fails
  steps := 0

/-- The free words in the registers after reset, by their offsets (R20, log 29). -/
def freeWords : StoringReg → Word
  | .htiming => Config.freeRegister 0x00
  | .vtiming => Config.freeRegister 0x04
  | .clockPolarity => Config.freeRegister 0x08
  | .frameBase => Config.freeRegister 0x10
  | .intEnable => Config.freeRegister 0x18
  | .control => Config.freeRegister 0x1C

/-- The state after reset: the reference configuration (log 2), free words in the storing registers (log 29), `INT_STATUS` and
`scan_base` free values (log 3). -/
def State.reset : State := .resetOf .reference freeWords Config.freeIntStatus Config.freeScanBase

end Sys2Proof.Machine
end

