-- ==== Sys2Proof/Machine/Agents.lean ====
section
/-! DEFINITION. Who may issue what, and when (60_exceptions.md R286, R294; 41_timing_encoder.md R170). -/

namespace Sys2Proof.Machine

/-- The context whose rights an operation is in (R294): `INT_STATUS` and `INT_CLEAR` are the event context's, every other
register and every other call the configuration context's (the reads the table does not name: log 15). -/
def owner : Instr → Ctx
  | .wrHtiming _ => .cfg
  | .wrVtiming _ => .cfg
  | .wrClockPolarity _ => .cfg
  | .wrFrameBase _ => .cfg
  | .wrIntEnable _ => .cfg
  | .wrControl _ => .cfg
  | .wrIntClear _ => .evt
  | .rdIntStatus => .evt
  | .rdHtiming => .cfg
  | .rdVtiming => .cfg
  | .rdClockPolarity => .cfg
  | .rdFrameBase => .cfg
  | .rdIntEnable => .cfg
  | .rdControl => .cfg
  | .wrIntStatus _ => .evt
  | .rdIntClear => .evt
  | .irqInit => .cfg
  | .commit _ _ => .cfg
  | .pan _ _ _ => .cfg
  | .setbase _ => .cfg
  | .pollAck => .evt
  | .validate _ _ _ _ => .cfg
  | .sizerEnsure _ => .cfg
  | .sizerFixedInit => .cfg
  | .setMode _ => .cfg
  | .panY _ => .cfg
  | .pollEvents => .evt
  | .getMode => .cfg

def Ctx.agent : Ctx → Agent
  | .cfg => .cfg
  | .evt => .evt

/-- Whether a call of the configuration context is in progress: a commit (R170), or a `SET_MODE` before its commit (log
11). -/
def cfgBusy (s : State) : Bool := !decide (s.seq = .idle) || s.setModeGap.isSome

/-- Whether a request is refused before its operation runs: outside its agent's rights (R294), or from the configuration
context while a call of that context is in progress (R170, R286). In this order, and before any refusal or fault of the operation's
own, by the model's choice (log 15, log 27): a request refused here latches no fault. -/
def gate (a : Agent) (i : Instr) (s : State) : Option Refusal :=
  if a ≠ (owner i).agent then some .foreignWriter
  else if owner i = .cfg ∧ cfgBusy s = true then some .commitInProgress
  else none

end Sys2Proof.Machine
end

