-- ==== Sys2Proof/Machine/Ops.lean ====
section
/-! DEFINITION. The shared operations over the state: register accessors, the bus transactions of 00_scope.md R9 and
40_register_access.md R130 to R141, the four ways an operation ends (60_exceptions.md R280 to R286). -/

namespace Sys2Proof.Machine

/-! ### Registers -/

/-- The byte offset of a register (R20). -/
def Reg.offset : Reg → BitVec 8
  | .htiming => 0x00#8
  | .vtiming => 0x04#8
  | .clockPolarity => 0x08#8
  | .frameBase => 0x10#8
  | .intEnable => 0x18#8
  | .control => 0x1C#8
  | .intClear => 0x20#8
  | .intStatus => 0x24#8

/-- The bus address of a register: `RB_BASE + off` (R9). -/
def busAddress (cfg : Config) (r : Reg) : Word := cfg.rbBase + r.offset.setWidth 32

def StoringReg.reg : StoringReg → Reg
  | .htiming => .htiming
  | .vtiming => .vtiming
  | .clockPolarity => .clockPolarity
  | .frameBase => .frameBase
  | .intEnable => .intEnable
  | .control => .control

/-- What a storing register holds. -/
def getReg (x : Regs) : StoringReg → Stored
  | .htiming => x.htiming
  | .vtiming => x.vtiming
  | .clockPolarity => x.clockPolarity
  | .frameBase => x.frameBase
  | .intEnable => x.intEnable
  | .control => x.control

/-- `x[REG] <- v`: all 32 bits, unchecked and unmasked; the register becomes written (R130). -/
def setReg (x : Regs) (r : StoringReg) (v : Word) : Regs :=
  match r with
  | .htiming => { x with htiming := .holds v }
  | .vtiming => { x with vtiming := .holds v }
  | .clockPolarity => { x with clockPolarity := .holds v }
  | .frameBase => { x with frameBase := .holds v }
  | .intEnable => { x with intEnable := .holds v }
  | .control => { x with control := .holds v }

/-- Whether a register has been written (R320). -/
def isWritten : Stored → Bool
  | .unwritten _ => false
  | .holds _ => true

/-! ### How an operation ends -/

/-- The operation returns a value or an error to its caller; nothing else changes (R280). -/
def finish (o : OpOutcome) (s : State) : State := { s with out := some o }

/-- The operation faults: the latch is set, and keeps the fault it already holds (R34, R285). No register is written. -/
def raiseFault (f : Fault) (s : State) : State :=
  { s with fault := some (s.fault.getD f), out := some (.fault f) }

/-- The operation is refused: no state changes but the mark (R286). -/
def refuse (r : Refusal) (s : State) : State := { s with refused := true, out := some (.refuse r) }

/-- The operation ends in one of the four ways (R10). -/
def endWith : OpOutcome → State → State
  | .ok v, s => finish (.ok v) s
  | .error e, s => finish (.error e) s
  | .fault f, s => raiseFault f s
  | .refuse r, s => refuse r s

/-- The numeric label of an error (R281 to R284; the spec's decision D18). It has no hardware meaning. -/
def OpError.code : OpError → Nat
  | .mode .missingClock => 1
  | .mode .clockTooFast => 2
  | .mode .resolutionFixed => 3
  | .mode .virtualHeightOutOfRange => 4
  | .mode .bufferTooSmall => 5
  | .mode .unsupportedDepth => 6
  | .timing .clockExceedsBus => 7
  | .sizer .outOfMemory => 8
  | .pan .outOfRange => 9
  | .pan .noBuffer => 10

/-! ### Bus transactions -/

/-- `RegWrite` to a storing register, one transaction, unconditional (R130; `CONTROL` goes through `writeControl`). -/
def storeReg (r : StoringReg) (v : Word) (s : State) : State :=
  { s with regs := setReg s.regs r v, bus := some (.write r.reg v) }

/-- `RegWrite(0x20, v)`: a 1 clears the status bit of its position, a 0 leaves it; nothing is stored (R28, R137). -/
def clearStatus (v : Word) (s : State) : State :=
  { s with intStatus := s.intStatus &&& ~~~v, bus := some (.write .intClear v) }

/-- `RegRead(0x24)`: the read changes nothing (R138). -/
def readStatus (s : State) : State := { s with bus := some (.read .intStatus s.intStatus) }

/-- Whether EN is set in a word written to `CONTROL` (R24). -/
def enableSet (l : Layout) (v : Word) : Bool := v.getLsbD l.en

/-- The registers that must have been written before the display is enabled (R136, decision D40). -/
def timingWritten (x : Regs) : Bool :=
  isWritten x.htiming && isWritten x.vtiming && isWritten x.clockPolarity && isWritten x.frameBase

/-- Whether a `WR.CONTROL v` faults with `EnableBeforeTiming` (R136). -/
def enableTooEarly (v : Word) (s : State) : Bool := enableSet s.cfg.layout v && !timingWritten s.regs

/-- A bus read of a storing register (R139, its pseudocode case by case): refused, or the word the register holds, or, of a
register the spec calls unwritten (R320), the fault `ReadUnwritten` of R285. -/
def readStoring (r : StoringReg) (s : State) : State :=
  match s.cfg.readback with
  | .refuse => refuse (.readNotShown r) s
  | .stored =>
    match getReg s.regs r with
    | .unwritten _ => raiseFault (.readUnwritten r) s
    | .holds w => finish (.ok (.word w)) { s with bus := some (.read r.reg w) }

end Sys2Proof.Machine
end

