-- ==== Sys2Proof/Machine/Operands.lean ====
section
/-! DEFINITION. Arithmetic and operand assembly: the primitives of 00_scope.md R7 and R8, and the encoded value of every
operand form with its range check (30_encoding.md R97 to R100). -/

namespace Sys2Proof.Machine

/-! ### Arithmetic (R8) -/

/-- `ceil_div(a, b)`, on naturals, for `b > 0`. -/
def ceilDiv (a b : Nat) : Nat := (a + b - 1) / b

/-- `trunc32(n)`, as a word. -/
def trunc32 (n : Nat) : Word := BitVec.ofNat 32 n

/-! ### Fields (R7) -/

/-- `mask(f)`. -/
def fieldMask (f : Field) : Word := BitVec.ofNat 32 (2 ^ f.width - 1) <<< f.lsb

/-- `ins(f, v)`. -/
def ins (f : Field) (v : Nat) : Word := BitVec.ofNat 32 v <<< f.lsb

/-- `ext(f, w)`. -/
def ext (f : Field) (w : Word) : Nat := (w.toNat >>> f.lsb) % 2 ^ f.width

/-- `fits(f, v)`, on integers. -/
def fits (f : Field) (e : Int) : Bool := decide (0 ≤ e) && decide (e < 2 ^ f.width)

/-- `flag(b, c)`. -/
def flag (bit : Nat) (c : Bool) : Word := if c then 1#32 <<< bit else 0#32

/-! ### Encoded values -/

/-- A minus-one operand, computed as an integer (R97). -/
def minusOne (v : Nat) : Int := (v : Int) - 1

/-- The width operand: `(xres div 16) - 1`, computed as an integer (R98). -/
def sixteenths (xres : Nat) : Int := ((xres / 16 : Nat) : Int) - 1

/-- A plain operand (R99). -/
def plain (v : Nat) : Int := v

/-- The field a name stands for in a layout. -/
def FieldName.field (l : Layout) : FieldName → Field
  | .divno => l.divno
  | .ppl => l.ppl
  | .hw => l.hw
  | .hfp => l.hfp
  | .hbp => l.hbp
  | .lpp => l.lpp
  | .vw => l.vw
  | .vfp => l.vfp
  | .vbp => l.vbp

/-- The range check (R100): the value to insert, or the fault; under `truncate` the value modulo `2^width`. -/
def checked (cfg : Config) (n : FieldName) (e : Int) : Except Fault Nat :=
  let f := n.field cfg.layout
  if fits f e then .ok e.toNat
  else
    match cfg.overflowPolicy with
    | .fault => .error (.encodeRange n e)
    | .truncate => .ok (e % 2 ^ f.width).toNat

end Sys2Proof.Machine
end

