-- ==== Sys2Proof/Machine/Flags.lean ====
section
/-! DEFINITION. The status flags: the interrupt word, the interrupt line, the decoding of a status word (10_state.md R26 to
R30, R37; 43_status_decoder.md R221; 60_exceptions.md R287 to R290). The block has no condition codes (R41). -/

namespace Sys2Proof.Machine

/-- The bit of an event's class, in `INT_STATUS`, `INT_CLEAR` and `INT_ENABLE` alike (R30). -/
def StatusEvent.bit (l : Layout) : StatusEvent → Nat
  | .underrun => l.underrun
  | .bufferBaseUpdated => l.nextBase
  | .verticalSync => l.vstatus
  | .busError => l.busError

/-- Membership in a set of events. -/
def EventSet.has (e : EventSet) : StatusEvent → Bool
  | .underrun => e.underrun
  | .bufferBaseUpdated => e.bufferBaseUpdated
  | .verticalSync => e.verticalSync
  | .busError => e.busError

/-- `bits(S)`: the status bits of a set of classes (R287). -/
def EventSet.word (l : Layout) (e : EventSet) : Word :=
  flag l.underrun e.underrun ||| flag l.nextBase e.bufferBaseUpdated
    ||| flag l.vstatus e.verticalSync ||| flag l.busError e.busError

/-- `EVENT_MASK` (R30). -/
def eventMask (l : Layout) : Word := EventSet.word l ⟨true, true, true, true⟩

/-- `INT_ENABLE_INIT` (R26). -/
def intEnableInit (l : Layout) : Word := flag l.underrun true ||| flag l.busError true

/-- `DECODE.STATUS` (R221): an event per set bit of the four; every other bit yields none. -/
def decodeStatus (l : Layout) (w : Word) : EventSet :=
  ⟨w.getLsbD l.underrun, w.getLsbD l.nextBase, w.getLsbD l.vstatus, w.getLsbD l.busError⟩

/-- The interrupt line (R37, R290): a level, not stored; a free value while `INT_ENABLE` is unwritten (log 4). -/
def irq (s : State) : Bool :=
  match s.regs.intEnable with
  | .unwritten w => Config.freeIrq w s.steps
  | .holds m => decide (s.intStatus &&& m &&& eventMask s.cfg.layout ≠ 0#32)

/-- The mask that gates which classes the display engine shows in `INT_STATUS` (R287, decision D13): every class, or those
enabled in `INT_ENABLE`; a free value while that register is unwritten (log 4). -/
def shownMask (s : State) : Word :=
  if s.cfg.statusMasked then
    match s.regs.intEnable with
    | .unwritten w => Config.freeMask w s.steps
    | .holds m => m
  else BitVec.allOnes 32

/-- `x[INT_STATUS] <- x[INT_STATUS] | bits(S)`, under the gate of `cfg.status_masked` (R287). -/
def raiseStatus (e : EventSet) (s : State) : State :=
  { s with intStatus := s.intStatus ||| (EventSet.word s.cfg.layout e &&& shownMask s) }

end Sys2Proof.Machine
end

