-- ==== Sys2Proof/Machine/Pan.lean ====
section
/-! DEFINITION. The pan controller: the frame-base address, `PAN`, `SETBASE` (42_pan_controller.md R200 to R204). -/

namespace Sys2Proof.Machine

/-- The address with its low `g` bits cleared: `a & ~(2^g - 1)` (R25, R66). -/
def alignDown (g : Nat) (a : Word) : Word := a &&& ~~~(BitVec.ofNat 32 (2 ^ g - 1))

/-- `PANADDR` (R200): the sum is a natural, reduced modulo `2^32`, then aligned down (decision D5). -/
def panAddr (g : Nat) (physicalBase lineLengthBytes yOffset : Nat) : Word :=
  alignDown g (trunc32 (physicalBase + yOffset * lineLengthBytes))

/-- The one write of `FRAME_BASE` that `PAN` and `SETBASE` make (R201, R202), refused while a commit is in progress; `o` is
what the operation returns. -/
def moveBase (a : Word) (o : Value) (s : State) : State :=
  if s.seq = .idle then finish (.ok o) (storeReg .frameBase a s) else refuse .commitInProgress s

/-- `PAN physical_base, line_length_bytes, y_offset` (R201). -/
def execPan (physicalBase lineLengthBytes yOffset : Word) (s : State) : Out :=
  let a := panAddr s.cfg.fbAlignLog2 physicalBase.toNat lineLengthBytes.toNat yOffset.toNat
  .next (moveBase a (.address a) s)

/-- `SETBASE physical_base` (R202): the address is written as it is, low bits included. -/
def execSetbase (physicalBase : Word) (s : State) : Out :=
  .next (moveBase physicalBase .unit s)

end Sys2Proof.Machine
end

