-- ==== Sys2Proof/Machine/Timing.lean ====
section
/-! DEFINITION. The timing encoder: divider, the four register words, `COMMIT` and its steps, the decode functions
(41_timing_encoder.md R160 to R176). -/

namespace Sys2Proof.Machine

/-! ### Clock arithmetic -/

/-- `PIXRATE` (R160), in kHz; `pixclock = 0` is outside its domain, and its callers exclude it first. -/
def pixRate (pixclock : Nat) : Nat := ceilDiv (10 ^ 9) pixclock

/-- `BYTESPP` (R161). -/
def bytesPerPixel (bpp : Nat) : Nat := ceilDiv bpp 8

/-- `DIVCALC` (R162). -/
def divCalc (clockKhz pixclock : Nat) : Nat := ceilDiv clockKhz (pixRate pixclock)

/-- `EFFCLK` (R163), first component: the achieved pixel clock in kHz. -/
def effectiveClock (clockKhz divider : Nat) : Nat := ceilDiv clockKhz divider

/-- `EFFCLK` (R163), second component: its inverse in picoseconds, rounded down (decision D16). -/
def khzToPicos (khz : Nat) : Nat := 10 ^ 9 / khz

/-! ### Encoders -/

/-- `ENC.CLOCK_POLARITY` (R93, R164): `sync_flags[0]`, `sync_flags[1]` are the active-high bits (R103, decision D23). -/
def encClockPolarity (cfg : Config) (divider : Nat) (syncFlags : Word) : Except Fault Word :=
  let l := cfg.layout
  match checked cfg .divno (minusOne divider) with
  | .error f => .error f
  | .ok d =>
    .ok (ins l.divno d ||| flag l.adpen true ||| flag l.ipc cfg.invertPixelClock
      ||| flag l.ihs (!syncFlags.getLsbD 0) ||| flag l.ivs (!syncFlags.getLsbD 1))

/-- `ENC.HTIMING` (R91, R165): the first field that does not fit, in the order PPL, HW, HFP, HBP, decides the fault. -/
def encHtiming (cfg : Config) (m : DisplayMode) : Except Fault Word :=
  let l := cfg.layout
  match checked cfg .ppl (sixteenths m.xres.toNat) with
  | .error f => .error f
  | .ok ppl =>
    match checked cfg .hw (minusOne m.hsyncLen.toNat) with
    | .error f => .error f
    | .ok hw =>
      match checked cfg .hfp (minusOne m.rightMargin.toNat) with
      | .error f => .error f
      | .ok hfp =>
        match checked cfg .hbp (minusOne m.leftMargin.toNat) with
        | .error f => .error f
        | .ok hbp => .ok (ins l.ppl ppl ||| ins l.hw hw ||| ins l.hfp hfp ||| ins l.hbp hbp)

/-- `ENC.VTIMING` (R92, R166): the margins are not minus one; order LPP, VW, VFP, VBP. -/
def encVtiming (cfg : Config) (m : DisplayMode) : Except Fault Word :=
  let l := cfg.layout
  match checked cfg .lpp (minusOne m.yres.toNat) with
  | .error f => .error f
  | .ok lpp =>
    match checked cfg .vw (minusOne m.vsyncLen.toNat) with
    | .error f => .error f
    | .ok vw =>
      match checked cfg .vfp (plain m.lowerMargin.toNat) with
      | .error f => .error f
      | .ok vfp =>
        match checked cfg .vbp (plain m.upperMargin.toNat) with
        | .error f => .error f
        | .ok vbp => .ok (ins l.lpp lpp ||| ins l.vw vw ||| ins l.vfp vfp ||| ins l.vbp vbp)

/-- `BPPCODE` (R29, R168). -/
def bppCode (l : Layout) (bpp : Nat) : Except Fault Nat :=
  match bpp with
  | 1 => .ok l.bppCode.bpp1
  | 2 => .ok l.bppCode.bpp2
  | 4 => .ok l.bppCode.bpp4
  | 8 => .ok l.bppCode.bpp8
  | 16 => .ok l.bppCode.bpp16
  | 24 => .ok l.bppCode.bpp24
  | 32 => .ok l.bppCode.bpp24
  | _ => .error (.contractViolation .unsupportedBpp)

/-- `ENC.CONTROL` (R94, R167). -/
def encControl (l : Layout) (bpp : Nat) : Except Fault Word :=
  match bppCode l bpp with
  | .error f => .error f
  | .ok c =>
    .ok (flag l.en true ||| flag l.tft true ||| flag l.bgr true ||| ins l.endian l.endianLeLe ||| ins l.bpp c)

/-! ### `COMMIT` -/

/-- What the pure phase of a `COMMIT` ends in (R169, phase 0). -/
inductive Plan where
  | fault (f : Fault)
  | error (e : TimingError)
  | ready (c : CommittedTiming)
deriving DecidableEq, Repr

/-- The four words of a commit, built in the order of R169, so that the first failure in that order is reported (R291). -/
def commitWords (cfg : Config) (m : DisplayMode) (divider : Nat) : Except Fault (Word × Word × Word × Word) :=
  match encClockPolarity cfg divider m.syncFlags with
  | .error f => .error f
  | .ok cp =>
    match encHtiming cfg m with
    | .error f => .error f
    | .ok ht =>
      match encVtiming cfg m with
      | .error f => .error f
      | .ok vt =>
        match encControl cfg.layout m.bitsPerPixel.toNat with
        | .error f => .error f
        | .ok ct => .ok (cp, ht, vt, ct)

/-- Phase 0 of `COMMIT` (R169): pure; it reads the configuration and the operands alone (R171). -/
def planCommit (cfg : Config) (m : DisplayMode) (clockKhz : Word) : Plan :=
  if m.pixclock = 0#32 then .fault (.contractViolation .pixclockZero)
  else
    let divider := divCalc clockKhz.toNat m.pixclock.toNat
    if divider = 0 then .error .clockExceedsBus
    else
      match commitWords cfg m divider with
      | .error f => .fault f
      | .ok (cp, ht, vt, ct) =>
        let eff := effectiveClock clockKhz.toNat divider
        .ready ⟨divider, eff, trunc32 (khzToPicos eff), cp, ht, vt, ct⟩

/-- `COMMIT` up to its first write, `CLOCK_POLARITY` (R32, R169): `setMode` is the validated mode when the commit belongs
to a `SET_MODE`. -/
def startCommit (setMode : Option DisplayMode) (m : DisplayMode) (clockKhz : Word) (s : State) : State :=
  if s.seq = .idle then
    match planCommit s.cfg m clockKhz with
    | .fault f => raiseFault f s
    | .error e => finish (.error (.timing e)) s
    | .ready c => { storeReg .clockPolarity c.cp s with seq := .c1, pend := some ⟨c, setMode⟩ }
  else refuse .commitInProgress s

/-- The fourth write of a `COMMIT` and its end (R136, R169): the committed timing is returned; the commit of a `SET_MODE`
instead stores the validated mode with the achieved `pixclock` and returns it (R247). -/
def endCommit (p : Pend) (s : State) : State :=
  if enableTooEarly p.timing.ct s then raiseFault .enableBeforeTiming s
  else
    let s' := { storeReg .control p.timing.ct s with seq := .idle, pend := none }
    match p.setMode with
    | none => finish (.ok (.timing p.timing)) s'
    | some v =>
      let m := { v with pixclock := p.timing.pixclock }
      finish (.ok (.mode m)) { s' with curMode := m }

/-- The next write of the commit in progress (R169, phases 2 to 4); nothing without one. -/
def continueCommit (s : State) : State :=
  match s.seq, s.pend with
  | .c1, some p => { storeReg .htiming p.timing.ht s with seq := .c2 }
  | .c2, some p => { storeReg .vtiming p.timing.vt s with seq := .c3 }
  | .c3, some p => endCommit p s
  | _, _ => s

/-- `COMMIT mode, clock_khz` (R169): phase 0 and the first write. The other three writes are steps of their own, between
which other agents may step (R170). -/
def execCommit (mode : DisplayMode) (clockKhz : Word) (s : State) : Out := .next (startCommit none mode clockKhz s)

/-! ### Decode functions -/

/-- `DEC.HTIMING` (R172): `xres`, `hsync_len`, `right_margin`, `left_margin`. -/
def decHtiming (l : Layout) (w : Word) : Nat × Nat × Nat × Nat :=
  ((ext l.ppl w + 1) * 16, ext l.hw w + 1, ext l.hfp w + 1, ext l.hbp w + 1)

/-- `DEC.VTIMING` (R173): `yres`, `vsync_len`, `lower_margin`, `upper_margin`. -/
def decVtiming (l : Layout) (w : Word) : Nat × Nat × Nat × Nat :=
  (ext l.lpp w + 1, ext l.vw w + 1, ext l.vfp w, ext l.vbp w)

/-- What `DEC.CLOCK_POLARITY` answers (R174). -/
structure DecodedPolarity where
  divider            : Nat
  hsyncActiveHigh    : Bool
  vsyncActiveHigh    : Bool
  invertedPixelClock : Bool
  autoDivider        : Bool
deriving DecidableEq, Repr

/-- `DEC.CLOCK_POLARITY` (R174). -/
def decClockPolarity (l : Layout) (w : Word) : DecodedPolarity :=
  ⟨ext l.divno w + 1, !w.getLsbD l.ihs, !w.getLsbD l.ivs, w.getLsbD l.ipc, w.getLsbD l.adpen⟩

/-- The depth classes a `BPP` code can stand for; 24 and 32 are one (R29, R175). -/
inductive DepthClass where
  | bpp1
  | bpp2
  | bpp4
  | bpp8
  | bpp16
  | bpp24or32
deriving DecidableEq, Repr

/-- The class a code stands for, or none (R106, R175). -/
def depthClass (c : BppCodes) (code : Nat) : Option DepthClass :=
  if code = c.bpp1 then some .bpp1
  else if code = c.bpp2 then some .bpp2
  else if code = c.bpp4 then some .bpp4
  else if code = c.bpp8 then some .bpp8
  else if code = c.bpp16 then some .bpp16
  else if code = c.bpp24 then some .bpp24or32
  else none

/-- What `DEC.CONTROL` answers (R175). -/
structure DecodedControl where
  enabled    : Bool
  tft        : Bool
  bgr        : Bool
  endianCode : Nat
  depth      : Option DepthClass
deriving DecidableEq, Repr

/-- `DEC.CONTROL` (R175). -/
def decControl (l : Layout) (w : Word) : DecodedControl :=
  ⟨w.getLsbD l.en, w.getLsbD l.tft, w.getLsbD l.bgr, ext l.endian w, depthClass l.bppCode (ext l.bpp w)⟩

end Sys2Proof.Machine
end

