-- ==== Sys2Proof/Machine/HostCalls.lean ====
section
/-! DEFINITION. The host-side mode logic: `VALIDATE`, the colour layout, sizes, the framebuffer sizer, `SET_MODE`, `PAN_Y`,
`GET_MODE` (44_host_mode_logic.md R240 to R252). -/

namespace Sys2Proof.Machine

/-! ### Mode validator -/

/-- `COLORLAYOUT` (R242; offsets and low depths by decision D24). -/
def colorLayout (bpp : Nat) (order : ColorOrder) : Option ColorFieldLayout :=
  match bpp, order with
  | 1, _ => some ⟨⟨0, 1⟩, ⟨0, 1⟩, ⟨0, 1⟩, ⟨0, 0⟩⟩
  | 2, _ => some ⟨⟨0, 2⟩, ⟨0, 2⟩, ⟨0, 2⟩, ⟨0, 0⟩⟩
  | 4, _ => some ⟨⟨0, 4⟩, ⟨0, 4⟩, ⟨0, 4⟩, ⟨0, 0⟩⟩
  | 8, _ => some ⟨⟨0, 8⟩, ⟨0, 8⟩, ⟨0, 8⟩, ⟨0, 0⟩⟩
  | 16, .redLow => some ⟨⟨0, 5⟩, ⟨5, 6⟩, ⟨11, 5⟩, ⟨0, 0⟩⟩
  | 16, .redHigh => some ⟨⟨11, 5⟩, ⟨5, 6⟩, ⟨0, 5⟩, ⟨0, 0⟩⟩
  | 24, .redLow => some ⟨⟨0, 8⟩, ⟨8, 8⟩, ⟨16, 8⟩, ⟨0, 0⟩⟩
  | 24, .redHigh => some ⟨⟨16, 8⟩, ⟨8, 8⟩, ⟨0, 8⟩, ⟨0, 0⟩⟩
  | 32, .redLow => some ⟨⟨0, 8⟩, ⟨8, 8⟩, ⟨16, 8⟩, ⟨24, 8⟩⟩
  | 32, .redHigh => some ⟨⟨16, 8⟩, ⟨8, 8⟩, ⟨0, 8⟩, ⟨24, 8⟩⟩
  | _, _ => none

/-- `REQUIRED_BYTES` (R243), a natural (decision D26). -/
def requiredBytes (m : DisplayMode) : Nat :=
  m.xresVirtual.toNat * m.yresVirtual.toNat * bytesPerPixel m.bitsPerPixel.toNat

/-- `LINELEN` (R244, decision D25). R244 types it u32 and states no wrap; that a product of `2^32` or more is taken as a natural
is the model's choice (log 28), which no address shows, since `PANADDR` reduces modulo `2^32` (R200). -/
def lineLength (m : DisplayMode) : Nat := m.xresVirtual.toNat * bytesPerPixel m.bitsPerPixel.toNat

/-- Rule 5 of the validator: a capacity is given and the size exceeds it (R240, `90_conflicts.md` C10). -/
def overCapacity (capacity : Option Nat) (need : Nat) : Bool :=
  match capacity with
  | none => false
  | some cap => decide (cap < need)

/-- `VALIDATE` (R240): the six rules in order, the first that fails deciding the error (R241). -/
def validateMode (cfg : Config) (requested current : DisplayMode) (clockKhz : Nat) (capacity : Option Nat) :
    Except ModeError DisplayMode :=
  if requested.pixclock = 0#32 then .error .missingClock
  else if clockKhz < pixRate requested.pixclock.toNat * bytesPerPixel requested.bitsPerPixel.toNat then
    .error .clockTooFast
  else if requested.xres ≠ current.xres ∨ requested.yres ≠ current.yres
      ∨ requested.xresVirtual ≠ current.xresVirtual then
    .error .resolutionFixed
  else if requested.yresVirtual.toNat < requested.yres.toNat
      ∨ (cfg.policy = .fixed ∧ current.yresVirtual.toNat < requested.yresVirtual.toNat) then
    .error .virtualHeightOutOfRange
  else if overCapacity capacity (requiredBytes requested) = true then
    .error .bufferTooSmall
  else
    match colorLayout requested.bitsPerPixel.toNat cfg.colorOrder with
    | none => .error .unsupportedDepth
    | some l => .ok { requested with layout := some l }

/-- `VALIDATE requested, current, clock_khz, existing_capacity_bytes` (R240): pure, its result returned to the caller. -/
def execValidate (requested current : DisplayMode) (clockKhz : Word) (capacity : Option Word) (s : State) : Out :=
  match validateMode s.cfg requested current clockKhz.toNat (capacity.map BitVec.toNat) with
  | .error e => .next (finish (.error (.mode e)) s)
  | .ok v => .next (finish (.ok (.mode v)) s)

/-! ### Framebuffer sizer -/

/-- Two regions of physical memory that share no byte. -/
def regionsApart (a la b lb : Nat) : Bool := decide (a + la ≤ b) || decide (b + lb ≤ a)

/-- The buffers the host holds: the active one and those not yet released (R35). -/
def heldBuffers (s : State) : List Buffer := s.buf.toList ++ s.retired

/-- The allocator's contract (R250): a region inside the 32-bit space (R61), disjoint from every live and retired buffer. -/
def regionFresh (base : Word) (bytes : Nat) (s : State) : Bool :=
  decide (base.toNat + bytes ≤ 2 ^ 32)
    && (heldBuffers s).all fun b => regionsApart base.toNat bytes b.physicalBase.toNat b.length

/-- `alloc_dma_zeroed(bytes)` (R250): the answer is an input of the step (log 14); one that breaks the allocator's contract
counts as a failure, and so does a size of `2^32` or more (R243, decision D26). -/
def allocate (bytes : Nat) (s : State) : Option (Nat × Word) :=
  if 2 ^ 32 ≤ bytes then none
  else
    match s.allocReply with
    | .fails => none
    | .grants h pa => if regionFresh pa bytes s then some (h, pa) else none

/-- `current_capacity`: the null buffer has capacity 0 (R245, R247). -/
def bufferCapacity (s : State) : Nat :=
  match s.buf with
  | none => 0
  | some b => b.length

/-- A new buffer is made active: `SETBASE`, then `buf` (R202, R245); the previous one, if it is kept, is retired. -/
def activate (handle : Nat) (pa : Word) (bytes : Nat) (retire : List Buffer) (s : State) : State :=
  { storeReg .frameBase pa s with retired := s.retired ++ retire, buf := some ⟨handle, pa, bytes⟩ }

/-- `SIZER.ENSURE` (R245): the state it leaves, or how it ends without one (nothing changed). -/
def ensureBuffer (m : DisplayMode) (s : State) : Except OpOutcome State :=
  let need := requiredBytes m
  if s.cfg.policy = .fixed ∨ need ≤ bufferCapacity s then .ok s
  else
    match allocate need s with
    | none => .error (.error (.sizer .outOfMemory))
    | some (h, pa) =>
      if s.seq = .idle then .ok (activate h pa need s.buf.toList s) else .error (.refuse .commitInProgress)

/-- `SIZER.ENSURE mode` (R245). -/
def execSizerEnsure (mode : DisplayMode) (s : State) : Out :=
  match ensureBuffer mode s with
  | .error o => .next (endWith o s)
  | .ok s' => .next (finish (.ok .unit) s')

/-- The size of the fixed policy's buffer (R246). -/
def fixedBytes (cfg : Config) : Nat :=
  cfg.probeMode.xresVirtual.toNat * (cfg.multiplier * cfg.probeMode.yres.toNat)
    * bytesPerPixel cfg.probeMode.bitsPerPixel.toNat

/-- `SIZER.FIXED_INIT` (R246): the buffer becomes the active one; the rule retires none. -/
def execSizerFixedInit (s : State) : Out :=
  match allocate (fixedBytes s.cfg) s with
  | none => .next (finish (.error (.sizer .outOfMemory)) s)
  | some (h, pa) =>
    if s.seq = .idle then .next (finish (.ok .unit) (activate h pa (fixedBytes s.cfg) [] s))
    else .next (refuse .commitInProgress s)

/-! ### Exposed calls -/

/-- The capacity `SET_MODE` hands to `VALIDATE` (R247). -/
def offeredCapacity (s : State) : Option Nat :=
  match s.cfg.policy with
  | .fixed => some (bufferCapacity s)
  | .grow => none

/-- `SET_MODE requested` (R247): its first step, validator and sizer (at most the one `SETBASE` write). The commit of the
validated mode follows in steps of its own; `setModeGap` holds the mode until it starts (log 11). -/
def execSetMode (requested : DisplayMode) (s : State) : Out :=
  match validateMode s.cfg requested s.curMode s.cfg.clockKhz.toNat (offeredCapacity s) with
  | .error e => .next (finish (.error (.mode e)) s)
  | .ok v =>
    match ensureBuffer v s with
    | .error o => .next (endWith o s)
    | .ok s' => .next { s' with setModeGap := some v }

/-- The next step of the configuration context's call: the commit of a `SET_MODE` starts, or a commit goes on. -/
def continueCfg (s : State) : State :=
  match s.setModeGap with
  | some v => startCommit (some v) v s.cfg.clockKhz { s with setModeGap := none }
  | none => continueCommit s

/-- `PAN_Y y_offset` (R248): the sum is a natural. -/
def execPanY (yOffset : Word) (s : State) : Out :=
  match s.buf with
  | none => .next (finish (.error (.pan .noBuffer)) s)
  | some b =>
    if s.curMode.yresVirtual.toNat < yOffset.toNat + s.curMode.yres.toNat then
      .next (finish (.error (.pan .outOfRange)) s)
    else
      .next (moveBase (panAddr s.cfg.fbAlignLog2 b.physicalBase.toNat (lineLength s.curMode) yOffset.toNat) .unit s)

/-- `GET_MODE` (R252). -/
def execGetMode (s : State) : Out := .next (finish (.ok (.mode s.curMode)) s)

end Sys2Proof.Machine
end

