-- ==== Sys2Proof/Machine/RegisterAccess.lean ====
section
/-! DEFINITION. The sixteen `REG` operations (40_register_access.md R130 to R149). Who may issue one is checked before it
runs (Machine/Agents.lean). -/

namespace Sys2Proof.Machine

/-- `WR.HTIMING v` (R131). -/
def execWrHtiming (v : Word) (s : State) : Out := .next (finish (.ok .unit) (storeReg .htiming v s))

/-- `WR.VTIMING v` (R132). -/
def execWrVtiming (v : Word) (s : State) : Out := .next (finish (.ok .unit) (storeReg .vtiming v s))

/-- `WR.CLOCK_POLARITY v` (R133). -/
def execWrClockPolarity (v : Word) (s : State) : Out := .next (finish (.ok .unit) (storeReg .clockPolarity v s))

/-- `WR.FRAME_BASE v` (R134): the low `g` bits are stored; the display engine's latch is a step of its own. -/
def execWrFrameBase (v : Word) (s : State) : Out := .next (finish (.ok .unit) (storeReg .frameBase v s))

/-- `WR.INT_ENABLE v` (R135). -/
def execWrIntEnable (v : Word) (s : State) : Out := .next (finish (.ok .unit) (storeReg .intEnable v s))

/-- `WR.CONTROL v` (R136): with EN set before timing and frame base are written it faults and stores nothing. -/
def execWrControl (v : Word) (s : State) : Out :=
  if enableTooEarly v s then .next (raiseFault .enableBeforeTiming s)
  else .next (finish (.ok .unit) (storeReg .control v s))

/-- `WR.INT_CLEAR v` (R137). -/
def execWrIntClear (v : Word) (s : State) : Out := .next (finish (.ok .unit) (clearStatus v s))

/-- `RD.INT_STATUS` (R138). -/
def execRdIntStatus (s : State) : Out := .next (finish (.ok (.word s.intStatus)) (readStatus s))

/-- `RD.HTIMING` (R139, R142). -/
def execRdHtiming (s : State) : Out := .next (readStoring .htiming s)

/-- `RD.VTIMING` (R139, R143). -/
def execRdVtiming (s : State) : Out := .next (readStoring .vtiming s)

/-- `RD.CLOCK_POLARITY` (R139, R144). -/
def execRdClockPolarity (s : State) : Out := .next (readStoring .clockPolarity s)

/-- `RD.FRAME_BASE` (R139, R145): the word as written, not the engine's masked view. -/
def execRdFrameBase (s : State) : Out := .next (readStoring .frameBase s)

/-- `RD.INT_ENABLE` (R139, R146). -/
def execRdIntEnable (s : State) : Out := .next (readStoring .intEnable s)

/-- `RD.CONTROL` (R139, R147). -/
def execRdControl (s : State) : Out := .next (readStoring .control s)

/-- `WR.INT_STATUS v` (R140, R148): its whole effect is the mark of the refusal; `v` is ignored. -/
def execWrIntStatus (_v : Word) (s : State) : Out := .next (refuse (.directionNotShown .intStatus) s)

/-- `RD.INT_CLEAR` (R140, R149): its whole effect is the mark of the refusal; there is no result. -/
def execRdIntClear (s : State) : Out := .next (refuse (.directionNotShown .intClear) s)

end Sys2Proof.Machine
end

