-- ==== Sys2Proof/Machine/Status.lean ====
section
/-! DEFINITION. The status decoder: `IRQ.INIT`, `POLL_ACK` and its second step, `POLL_EVENTS` (43_status_decoder.md R220 to
R224; 44_host_mode_logic.md R249). -/

namespace Sys2Proof.Machine

/-- `IRQ.INIT` (R220). -/
def execIrqInit (s : State) : Out :=
  if s.seq = .idle then
    .next (finish (.ok .unit) { storeReg .intEnable (intEnableInit s.cfg.layout) s with irqInited := true })
  else .next (refuse .commitInProgress s)

/-- The read step of `POLL_ACK` (R222, step 1): the word read is held in `ack`. -/
def startPoll (s : State) : State :=
  match s.ack with
  | .none => { readStatus s with ack := .pending s.intStatus }
  | .pending _ => refuse .pollInProgress s

/-- The acknowledge step of `POLL_ACK` (R222, step 2): the same word is written back, zero or not, and the decoded set is
returned; nothing without a poll in progress. -/
def continuePoll (s : State) : State :=
  match s.ack with
  | .none => s
  | .pending w => finish (.ok (.events (decodeStatus s.cfg.layout w))) { clearStatus w s with ack := .none }

/-- `POLL_ACK` (R222): its read step. The acknowledge is a step of its own, before which other agents may step (R75). -/
def execPollAck (s : State) : Out := .next (startPoll s)

/-- `POLL_EVENTS` (R249): `POLL_ACK`. -/
def execPollEvents (s : State) : Out := .next (startPoll s)

end Sys2Proof.Machine
end

