-- ==== Sys2Proof/Machine/Dispatch.lean ====
section
/-! DEFINITION. One arm per operation: the meaning it calls. -/

namespace Sys2Proof.Machine

def exec (i : Instr) (s : State) : Host.Outcome State Fault Refusal :=
  match i with
  | .wrHtiming v => Sys2Proof.Machine.execWrHtiming v s
  | .wrVtiming v => Sys2Proof.Machine.execWrVtiming v s
  | .wrClockPolarity v => Sys2Proof.Machine.execWrClockPolarity v s
  | .wrFrameBase v => Sys2Proof.Machine.execWrFrameBase v s
  | .wrIntEnable v => Sys2Proof.Machine.execWrIntEnable v s
  | .wrControl v => Sys2Proof.Machine.execWrControl v s
  | .wrIntClear v => Sys2Proof.Machine.execWrIntClear v s
  | .rdIntStatus => Sys2Proof.Machine.execRdIntStatus s
  | .rdHtiming => Sys2Proof.Machine.execRdHtiming s
  | .rdVtiming => Sys2Proof.Machine.execRdVtiming s
  | .rdClockPolarity => Sys2Proof.Machine.execRdClockPolarity s
  | .rdFrameBase => Sys2Proof.Machine.execRdFrameBase s
  | .rdIntEnable => Sys2Proof.Machine.execRdIntEnable s
  | .rdControl => Sys2Proof.Machine.execRdControl s
  | .wrIntStatus v => Sys2Proof.Machine.execWrIntStatus v s
  | .rdIntClear => Sys2Proof.Machine.execRdIntClear s
  | .irqInit => Sys2Proof.Machine.execIrqInit s
  | .commit mode clockKhz => Sys2Proof.Machine.execCommit mode clockKhz s
  | .pan physicalBase lineLengthBytes yOffset => Sys2Proof.Machine.execPan physicalBase lineLengthBytes yOffset s
  | .setbase physicalBase => Sys2Proof.Machine.execSetbase physicalBase s
  | .pollAck => Sys2Proof.Machine.execPollAck s
  | .validate requested current clockKhz capacity => Sys2Proof.Machine.execValidate requested current clockKhz capacity s
  | .sizerEnsure mode => Sys2Proof.Machine.execSizerEnsure mode s
  | .sizerFixedInit => Sys2Proof.Machine.execSizerFixedInit s
  | .setMode requested => Sys2Proof.Machine.execSetMode requested s
  | .panY yOffset => Sys2Proof.Machine.execPanY yOffset s
  | .pollEvents => Sys2Proof.Machine.execPollEvents s
  | .getMode => Sys2Proof.Machine.execGetMode s

end Sys2Proof.Machine
end

