-- ==== Sys2Proof/Machine/Engine.lean ====
section
/-! DEFINITION. The display engine, an environment agent (10_state.md R36; 60_exceptions.md R287), and the release of a
retired buffer (70_reset_and_hazards.md R325). -/

namespace Sys2Proof.Machine

/-- The frame base as the display engine uses it: the low `g` bits cleared (R25); nothing while unwritten. -/
def engineBase (s : State) : Option Word :=
  match s.regs.frameBase with
  | .unwritten _ => none
  | .holds a => some (alignDown s.cfg.fbAlignLog2 a)

/-- Whether the display pipeline runs. EN set in `CONTROL` starts it (R136). Otherwise it is a free value (log 26): after
reset the display must not be assumed disabled (R42, R320, U19), and what a later write with EN clear does to a started
pipeline is not said (N20, R300). -/
def pipelineStarted (s : State) : Bool :=
  match s.regs.control with
  | .unwritten w => Config.freePipeline w s.steps
  | .holds w => enableSet s.cfg.layout w || Config.freePipeline w s.steps

/-- The set that holds `BufferBaseUpdated` alone. -/
def EventSet.baseUpdated : EventSet := ⟨false, true, false, false⟩

/-- `DE.RAISE S` (R287): enabled at every step (decision D36). -/
def deRaise (e : EventSet) (s : State) : State := raiseStatus e s

/-- `DE.LATCH` (R36): when `scan_base` differs from the masked frame base it is copied and NextBase raised, under the gate
of `cfg.status_masked`; otherwise the action is not enabled and nothing happens (log 18). While `FRAME_BASE` is unwritten the
spec does not say what the engine does (R320); by the model's choice (log 4) the action is then enabled at every step,
latches a free value and raises NextBase, even where that value is the present `scan_base`. -/
def deLatch (s : State) : State :=
  match engineBase s with
  | some a => if s.scanBase = a then s else raiseStatus EventSet.baseUpdated { s with scanBase := a }
  | none => raiseStatus EventSet.baseUpdated { s with scanBase := Config.freeLatch s.regs.frameBase.word s.steps }

/-- The status bits outside the four classes take any value (R27, decision D31, log 10). -/
def deDrawReserved (w : Word) (s : State) : State :=
  let m := eventMask s.cfg.layout
  { s with intStatus := (s.intStatus &&& m) ||| (w &&& ~~~m) }

/-- Whether an address lies inside a buffer. -/
def Buffer.contains (b : Buffer) (a : Word) : Bool :=
  decide (b.physicalBase.toNat ≤ a.toNat) && decide (a.toNat < b.physicalBase.toNat + b.length)

/-- The grace condition (R325): the display engine does not scan inside the buffer. -/
def graceOver (b : Buffer) (s : State) : Bool := !b.contains s.scanBase

/-- `free_dma` of the `k`-th retired buffer (R325). A host that frees one still scanned is outside the contract (U14, log
9): the machine stops. -/
def hostFree (k : Nat) (s : State) : Out :=
  match s.retired[k]? with
  | none => .next s
  | some b => if graceOver b s then .next { s with retired := s.retired.eraseIdx k } else .refused .graceNotOver

end Sys2Proof.Machine
end

