-- ==== Sys2Proof/Machine/Schedule.lean ====
section
/-! DEFINITION. One entry of the schedule performed (00_scope.md R11, R12): the step of one agent. -/

namespace Sys2Proof.Machine

/-- Every step begins so: the entry is taken off the schedule, the outputs of the step before are dropped, the step is
counted. -/
def beginStep (rest : List Action) (s : State) : State :=
  { s with schedule := rest, out := none, bus := none, steps := s.steps + 1 }

/-- The refusal of a request that decodes to no operation (R107, R141); a record of the wrong type stops the machine. -/
def rejected (r : Reject) (s : State) : Out :=
  match r with
  | .unmapped off => .next (refuse (.unmapped off) s)
  | .reservedCommand op => .next (refuse (.reservedCommand op) s)
  | .illTyped _ => .refused .illTyped

/-- An agent issues a request: it is decoded, checked against the agent's rights, and run. Where several refusals would fit
one request (R107, R141, R286 give no order) decoding comes first, by the model's choice (log 27): an unmapped transaction,
a reserved command or a record of the wrong type is rejected as such, whoever issues it and whatever is in progress. The gate
comes next, and only then the operation with a refusal of its own: `ForeignWriter` and `CommitInProgress` win over
`ReadNotShown` and `DirectionNotShown` (R139, R140), by the same choice, and over the faults `EnableBeforeTiming` (R136) and
`ReadUnwritten` (R139), none of which is then latched. -/
def issue (a : Agent) (c : Code) (reply : AllocReply) (s : State) : Out :=
  match decode c with
  | .error r => rejected r s
  | .ok i =>
    match gate a i s with
    | some r => .next (refuse r s)
    | none => exec i { s with allocReply := reply }

/-- The step an entry of the schedule stands for. -/
def perform (a : Action) (s : State) : Out :=
  match a with
  | .issue agent code reply => issue agent code reply s
  | .resume .cfg => .next (continueCfg s)
  | .resume .evt => .next (continuePoll s)
  | .raise classes => .next (deRaise classes s)
  | .latch => .next (deLatch s)
  | .scan => .next s
  | .drawReserved w => .next (deDrawReserved w s)
  | .free k => hostFree k s

/-- The request of the operation whose bits are `w` as the opcode table numbers them, issued by the context that may. -/
def tableRequest (nbits w : Nat) (reply : AllocReply) : Action :=
  let agent : Agent :=
    match decodeTableWord nbits w with
    | some i => (owner i).agent
    | none => .cfg
  .issue agent (tableCode nbits w) reply

end Sys2Proof.Machine
end

