-- ==== Sys2Proof/Machine/Step.lean ====
section
/-! DEFINITION. One step of the machine, and how an operation is placed where the next step takes it. -/

namespace Sys2Proof.Machine

/-- One step. A machine whose fault latch is set stops with that fault (R34, R285, log 7). Otherwise the agent at the head
of the schedule takes its step; with nothing scheduled the block does nothing (R321). -/
def step (s : State) : Host.Outcome State Fault Refusal :=
  match s.fault with
  | some f => .fault f
  | none =>
    match s.schedule with
    | [] => .next (beginStep [] s)
    | a :: rest => perform a (beginStep rest s)

/-- `s` with the operation whose bits are `w` (as the opcode table numbers them, operand words 0) at the head of the
schedule, issued by the context that may issue it, so that the next step runs it (log 13). -/
def State.withFetchWord (s : State) (nbits w : Nat) : State :=
  { s with schedule := tableRequest nbits w s.allocReply :: s.schedule }

end Sys2Proof.Machine
end

