-- ==== Sys2Proof/Safety.lean ====
section
/-! DEFINITION. The terms in which claims about the machine are made: runs, clean states, the invariants, and the conditions
under which an operation has its whole effect. -/

namespace Sys2Proof.Machine

/-- `n` steps, stopping at the first fault or refusal. -/
def stepN : Nat → State → Out
  | 0, s => .next s
  | n + 1, s =>
    match step s with
    | .next t => stepN n t
    | .fault f => .fault f
    | .refused r => .refused r

/-- No operation has faulted or been refused since reset (R34, R286). A state with the latch set "is never final" (R34). -/
def State.clean (s : State) : Prop := s.fault = none ∧ s.refused = false

/-! ### Operations named by their register -/

/-- The write of a storing register (R130). -/
def writeOf : StoringReg → Word → Instr
  | .htiming, v => .wrHtiming v
  | .vtiming, v => .wrVtiming v
  | .clockPolarity, v => .wrClockPolarity v
  | .frameBase, v => .wrFrameBase v
  | .intEnable, v => .wrIntEnable v
  | .control, v => .wrControl v

/-- The read of a storing register (R139). -/
def readOf : StoringReg → Instr
  | .htiming => .rdHtiming
  | .vtiming => .rdVtiming
  | .clockPolarity => .rdClockPolarity
  | .frameBase => .rdFrameBase
  | .intEnable => .rdIntEnable
  | .control => .rdControl

/-! ### When a commit has its whole effect -/

/-- Every field of `CLOCK_POLARITY`, `HTIMING` and `VTIMING` can carry its operand (R100). -/
structure FieldsFit (cfg : Config) (m : DisplayMode) (clockKhz : Word) : Prop where
  divno : fits cfg.layout.divno (minusOne (divCalc clockKhz.toNat m.pixclock.toNat)) = true
  ppl : fits cfg.layout.ppl (sixteenths m.xres.toNat) = true
  hw  : fits cfg.layout.hw (minusOne m.hsyncLen.toNat) = true
  hfp : fits cfg.layout.hfp (minusOne m.rightMargin.toNat) = true
  hbp : fits cfg.layout.hbp (minusOne m.leftMargin.toNat) = true
  lpp : fits cfg.layout.lpp (minusOne m.yres.toNat) = true
  vw  : fits cfg.layout.vw (minusOne m.vsyncLen.toNat) = true
  vfp : fits cfg.layout.vfp (plain m.lowerMargin.toNat) = true
  vbp : fits cfg.layout.vbp (plain m.upperMargin.toNat) = true

/-- The nine fields of the timing words with the values a commit encodes in them (R97 to R99), in the order in which they are
checked (R169). -/
def encodedFields (m : DisplayMode) (clockKhz : Word) : List (FieldName × Int) :=
  [(.divno, minusOne (divCalc clockKhz.toNat m.pixclock.toNat)),
    (.ppl, sixteenths m.xres.toNat), (.hw, minusOne m.hsyncLen.toNat), (.hfp, minusOne m.rightMargin.toNat),
    (.hbp, minusOne m.leftMargin.toNat),
    (.lpp, minusOne m.yres.toNat), (.vw, minusOne m.vsyncLen.toNat), (.vfp, plain m.lowerMargin.toNat),
    (.vbp, plain m.upperMargin.toNat)]

/-- The first field, in that order, that cannot carry its value. -/
def firstMisfit (cfg : Config) (m : DisplayMode) (clockKhz : Word) : Option (FieldName × Int) :=
  (encodedFields m clockKhz).find? fun x => !fits (x.1.field cfg.layout) x.2

/-- The depths the block supports (R29, R168). -/
def supportedDepth (bpp : Nat) : Prop := bpp ∈ [1, 2, 4, 8, 16, 24, 32]

/-- The operands under which a `COMMIT` neither returns an error nor faults in its pure phase (R169): under
`overflow_policy = truncate` no field needs to fit (R100). -/
structure Committable (cfg : Config) (m : DisplayMode) (clockKhz : Word) : Prop where
  pixclock : m.pixclock ≠ 0#32
  clock : clockKhz ≠ 0#32
  fields : cfg.overflowPolicy = .truncate ∨ FieldsFit cfg m clockKhz
  depth : supportedDepth m.bitsPerPixel.toNat

/-- `t` is the committed timing of a mode: the clock arithmetic of R162 and R163 and the four words of R164 to R167. -/
structure TimingOf (cfg : Config) (m : DisplayMode) (clockKhz : Word) (t : CommittedTiming) : Prop where
  divider : t.divider = divCalc clockKhz.toNat m.pixclock.toNat
  effective : t.effectiveClockKhz = effectiveClock clockKhz.toNat t.divider
  pixclock : t.pixclock.toNat = khzToPicos t.effectiveClockKhz
  cp : encClockPolarity cfg t.divider m.syncFlags = .ok t.cp
  ht : encHtiming cfg m = .ok t.ht
  vt : encVtiming cfg m = .ok t.vt
  ct : encControl cfg.layout m.bitsPerPixel.toNat = .ok t.ct

/-- The register file after a whole commit: four words, the frame base and the enable mask as they were. -/
def committedRegs (x : Regs) (t : CommittedTiming) : Regs :=
  { x with clockPolarity := .holds t.cp, htiming := .holds t.ht, vtiming := .holds t.vt, control := .holds t.ct }

/-! ### When an allocation fails -/

/-- No memory of `n` bytes (R250, R283; log 14): the allocator fails, or the size does not fit its operand, or it answers a
region that breaks its contract. -/
def NoMemory (n : Nat) (s : State) : Prop :=
  s.allocReply = .fails ∨ 2 ^ 32 ≤ n ∨ ∃ h pa, s.allocReply = .grants h pa ∧ regionFresh pa n s = false

/-! ### Which steps are whose -/

/-- A step of the display engine (R74, R287). -/
def Action.ofEngine : Action → Bool
  | .raise _ => true
  | .latch => true
  | .scan => true
  | .drawReserved _ => true
  | .issue _ _ _ => false
  | .resume _ => false
  | .free _ => false

/-- A step of the display engine or of the event context (R170): an engine action, the acknowledge of a poll, or an
operation the event context issues within its rights. -/
def Action.sparesCfg : Action → Bool
  | .raise _ => true
  | .latch => true
  | .scan => true
  | .drawReserved _ => true
  | .resume .evt => true
  | .resume .cfg => false
  | .free _ => false
  | .issue a c _ =>
    decide (a = .evt) &&
      match decode c with
      | .ok i => decide (owner i = .evt)
      | .error _ => false

/-! ### Invariants -/

/-- The registers agree with the position of the commit in progress (R32, R71): the words written so far are the latched
ones; without a commit nothing is latched; a `SET_MODE` before its commit leaves the sequencer idle. -/
def CommitOrder (s : State) : Prop :=
  (s.setModeGap ≠ none → s.seq = .idle) ∧
  match s.seq with
  | .idle => s.pend = none
  | .c1 => ∃ p, s.pend = some p ∧ s.regs.clockPolarity = .holds p.timing.cp
  | .c2 => ∃ p, s.pend = some p ∧ s.regs.clockPolarity = .holds p.timing.cp ∧ s.regs.htiming = .holds p.timing.ht
  | .c3 => ∃ p, s.pend = some p ∧ s.regs.clockPolarity = .holds p.timing.cp ∧ s.regs.htiming = .holds p.timing.ht
      ∧ s.regs.vtiming = .holds p.timing.vt

/-- Two modes of one panel resolution (R240, rule 3). -/
def SameResolution (m n : DisplayMode) : Prop := m.xres = n.xres ∧ m.yres = n.yres ∧ m.xresVirtual = n.xresVirtual

/-- The panel resolution is the probe mode's, in the current mode and in every mode on its way to become current (R4). -/
def ResolutionFixed (s : State) : Prop :=
  SameResolution s.curMode s.cfg.probeMode ∧
  (∀ v, s.setModeGap = some v → SameResolution v s.cfg.probeMode) ∧
  ∀ p v, s.pend = some p → p.setMode = some v → SameResolution v s.cfg.probeMode

/-- Two buffers share no byte. -/
def Buffer.apart (a b : Buffer) : Prop :=
  a.physicalBase.toNat + a.length ≤ b.physicalBase.toNat ∨ b.physicalBase.toNat + b.length ≤ a.physicalBase.toNat

/-- The buffers the host holds lie inside the 32-bit space and share no byte (R35, R250). -/
def BuffersDisjoint (s : State) : Prop :=
  (∀ b ∈ heldBuffers s, b.physicalBase.toNat + b.length ≤ 2 ^ 32) ∧ (heldBuffers s).Pairwise Buffer.apart

end Sys2Proof.Machine
end

