-- ==== Sys2Proof/Certificates/Slice0/Obligations.lean ====
section
/-! DEFINITION. The statements for the provers. Words such as "the spec's decision D12" in a docstring name the part of a
statement that the spec marks as its own choice or inference, and "log n" the part that is the model's. -/

open Sys2Proof Sys2Proof.Machine

/-! ### Encoding -/

/-- Decoding inverts encoding, for every well-formed operation at every operand (R101, R102, R103). The order of the operand
words is the model's choice (log 5). -/
def Obligations.DecodeInvertsEncode : Prop := ∀ i : Instr, i.wf = true → decode (encode i) = .ok i

/-- The whole `REG` table (R101): sixteen selects of nine bits name sixteen operations, and every other select is
unmapped, as is every width but four bytes (R65, R141; the spec's decisions D9, D10, D39). -/
def Obligations.RegSelectsDecodeByTable : Prop :=
  (∀ v : Word,
    decode (.reg 0x100#9 4 v) = .ok (.wrHtiming v) ∧ decode (.reg 0x104#9 4 v) = .ok (.wrVtiming v) ∧
    decode (.reg 0x108#9 4 v) = .ok (.wrClockPolarity v) ∧ decode (.reg 0x110#9 4 v) = .ok (.wrFrameBase v) ∧
    decode (.reg 0x118#9 4 v) = .ok (.wrIntEnable v) ∧ decode (.reg 0x11C#9 4 v) = .ok (.wrControl v) ∧
    decode (.reg 0x120#9 4 v) = .ok (.wrIntClear v) ∧ decode (.reg 0x024#9 4 v) = .ok .rdIntStatus ∧
    decode (.reg 0x000#9 4 v) = .ok .rdHtiming ∧ decode (.reg 0x004#9 4 v) = .ok .rdVtiming ∧
    decode (.reg 0x008#9 4 v) = .ok .rdClockPolarity ∧ decode (.reg 0x010#9 4 v) = .ok .rdFrameBase ∧
    decode (.reg 0x018#9 4 v) = .ok .rdIntEnable ∧ decode (.reg 0x01C#9 4 v) = .ok .rdControl ∧
    decode (.reg 0x124#9 4 v) = .ok (.wrIntStatus v) ∧ decode (.reg 0x020#9 4 v) = .ok .rdIntClear) ∧
  (∀ (sel : BitVec 9) (v : Word),
    sel ∉ [0x100#9, 0x104#9, 0x108#9, 0x110#9, 0x118#9, 0x11C#9, 0x120#9, 0x024#9, 0x000#9, 0x004#9, 0x008#9, 0x010#9,
      0x018#9, 0x01C#9, 0x124#9, 0x020#9] → decode (.reg sel 4 v) = .error (.unmapped (sel.setWidth 8))) ∧
  ∀ (sel : BitVec 9) (width : Nat) (v : Word), width ≠ 4 →
    decode (.reg sel width v) = .error (.unmapped (sel.setWidth 8))

/-- The `CMD` selects (R102, R107; the spec's decision D7): each of the twelve codes names its command, and a select is
rejected as reserved exactly when it is 0x5, 0x6, 0x7 or 0xF. The operand words are laid out as log 5 says. -/
def Obligations.CommandSelectsDecodeByTable : Prop :=
  (∀ ws, decode (.cmd 0x0#4 ws) = .ok .irqInit ∧ decode (.cmd 0x4#4 ws) = .ok .pollAck ∧
    decode (.cmd 0xA#4 ws) = .ok .sizerFixedInit ∧ decode (.cmd 0xD#4 ws) = .ok .pollEvents ∧
    decode (.cmd 0xE#4 ws) = .ok .getMode) ∧
  (∀ b l y ws, decode (.cmd 0x2#4 (b :: l :: y :: ws)) = .ok (.pan b l y) ∧
    decode (.cmd 0x3#4 (b :: ws)) = .ok (.setbase b) ∧ decode (.cmd 0xC#4 (y :: ws)) = .ok (.panY y)) ∧
  (∀ m k, m.wf = true → decode (.cmd 0x1#4 (m.words ++ [k])) = .ok (.commit m k) ∧
    decode (.cmd 0x9#4 m.words) = .ok (.sizerEnsure m) ∧ decode (.cmd 0xB#4 m.words) = .ok (.setMode m)) ∧
  (∀ r c k cap, r.wf = true → c.wf = true →
    decode (.cmd 0x8#4 (r.words ++ (c.words ++ (k :: optionWords cap)))) = .ok (.validate r c k cap)) ∧
  ∀ op ws, (decode (.cmd op ws) = .error (.reservedCommand op) ↔ op ∈ [0x5#4, 0x6#4, 0x7#4, 0xF#4])

/-! ### Steps -/

/-- A step runs the decoded operation: when the head of the schedule is a request that decodes to `i`, issued by the context
in whose rights it is, and no call of the configuration context stands in its way, the step is `exec i` on the state with
the entry taken off, the outputs of the step before dropped, the step counted and the allocator's answer in place (log 12,
13, 14). -/
def Obligations.StepRunsDecodedOperation : Prop :=
  ∀ s a c reply rest i, s.fault = none → s.schedule = .issue a c reply :: rest → decode c = .ok i →
    a = (owner i).agent → (owner i = .cfg → s.seq = .idle ∧ s.setModeGap = none) →
    step s = exec i { s with schedule := rest, out := none, bus := none, steps := s.steps + 1, allocReply := reply }

/-- Every operation, on every operand and in every state, answers a next state. From a state whose outputs are clear, as they
are when `exec` is called in a step, one that faults sets the latch, unless it already holds a fault, and one that is
refused sets the mark, and neither changes anything else; every other leaves latch and mark as they were (R34, R285, R286).
That both are next states is the model's reading (log 7, log 8). -/
def Obligations.EveryOperationRuns : Prop :=
  ∀ i s, ∃ t, exec i s = .next t ∧ (s.out = none →
    (∀ f, t.out = some (.fault f) → t = { s with fault := some (s.fault.getD f), out := some (.fault f) }) ∧
    (∀ r, t.out = some (.refuse r) → t = { s with refused := true, out := some (.refuse r) }) ∧
    ((∀ f, t.out ≠ some (.fault f)) → t.fault = s.fault) ∧
    ((∀ r, t.out ≠ some (.refuse r)) → t.refused = s.refused))

/-- A step stops only for these reasons: with a fault exactly when the latch holds it, which is the model's reading of R34
(log 7); with a refusal only on operand words of the wrong type or on the release of a buffer still scanned (log 5, log
9). -/
def Obligations.StepStopsOnlyWithCause : Prop :=
  (∀ s f, step s = .fault f ↔ s.fault = some f) ∧
  ∀ s r, step s = .refused r → s.fault = none ∧
    ((r = .illTyped ∧ ∃ a c reply rest op, s.schedule = .issue a c reply :: rest ∧ decode c = .error (.illTyped op)) ∨
     (r = .graceNotOver ∧ ∃ k rest b, s.schedule = .free k :: rest ∧ s.retired[k]? = some b ∧ b.contains s.scanBase = true))

/-- What no step undoes, whoever takes it: a latched fault (R34) and the mark of a refusal (R286) stay for the whole run, and
the configuration record never changes (R4; that the state carries it is log 1). -/
def Obligations.LatchMarkAndConfigurationPersist : Prop :=
  ∀ a s t, perform a s = .next t →
    (∀ f, s.fault = some f → t.fault = some f) ∧ (s.refused = true → t.refused = true) ∧ t.cfg = s.cfg

/-- A request outside its agent's rights is refused as `ForeignWriter` and changes nothing but the mark (R286, R294; the
spec's decision D28). The event context's rights are the operations on `INT_STATUS` and `INT_CLEAR`; every other operation
is the configuration context's. Four points of this are the model's choice: the rights of the reads and of the unshown
directions (log 15); that host calls which touch no register, `VALIDATE` and `GET_MODE`, are refused to the other agents
too (log 15); that rights are checked before `CommitInProgress` (log 15); and that they are before an operation's own
refusal or fault, so that a foreign `WR.CONTROL` that would fault latches nothing (log 27). -/
def Obligations.ForeignRequestsAreRefused : Prop :=
  (∀ s a c reply rest i, s.fault = none → s.schedule = .issue a c reply :: rest → decode c = .ok i →
    a ≠ (owner i).agent →
    step s = .next { s with schedule := rest, out := some (.refuse .foreignWriter), bus := none, steps := s.steps + 1,
                            refused := true }) ∧
  ∀ i, (owner i = .evt ↔ i = .rdIntStatus ∨ (∃ v, i = .wrIntClear v) ∨ i = .pollAck ∨ i = .pollEvents ∨
    (∃ v, i = .wrIntStatus v) ∨ i = .rdIntClear)

/-- No step of the configuration context falls between the writes of a commit: what it issues while the sequencer is not
idle is refused as `CommitInProgress` and changes nothing but the mark (R170, R286; the spec's decision D37). That single
`REG` transactions and the pure calls are refused as the commands are is the model's choice (log 15), and so is that a
request between a `SET_MODE`'s first step and its commit is (log 11), and that this refusal wins over a read's own and
over the faults `EnableBeforeTiming` and `ReadUnwritten` (log 27). -/
def Obligations.NoConfigurationStepInsideCommit : Prop :=
  ∀ s c reply rest i, s.fault = none → s.schedule = .issue .cfg c reply :: rest → decode c = .ok i → owner i = .cfg →
    (s.seq ≠ .idle ∨ s.setModeGap ≠ none) →
    step s = .next { s with schedule := rest, out := some (.refuse .commitInProgress), bus := none, steps := s.steps + 1,
                            refused := true }

/-- A transaction that is not one of the sixteen is refused as `Unmapped`, and a reserved command as `ReservedCommand`; nothing
changes but the mark (R107, R141, R286; the spec's decisions D7, D9, D10). That it is so for every agent and whatever is in
progress, so that these two are reported before `ForeignWriter` and `CommitInProgress`, is the model's choice (log 27). -/
def Obligations.UnmappedAccessChangesNothing : Prop :=
  (∀ s a sel width v reply rest, s.fault = none → s.schedule = .issue a (.reg sel width v) reply :: rest →
    (width ≠ 4 ∨ sel ∉ [0x100#9, 0x104#9, 0x108#9, 0x110#9, 0x118#9, 0x11C#9, 0x120#9, 0x024#9, 0x000#9, 0x004#9, 0x008#9,
      0x010#9, 0x018#9, 0x01C#9, 0x124#9, 0x020#9]) →
    step s = .next { s with schedule := rest, out := some (.refuse (.unmapped (sel.setWidth 8))), bus := none,
                            steps := s.steps + 1, refused := true }) ∧
  ∀ s a op ws reply rest, s.fault = none → s.schedule = .issue a (.cmd op ws) reply :: rest →
    op ∈ [0x5#4, 0x6#4, 0x7#4, 0xF#4] →
    step s = .next { s with schedule := rest, out := some (.refuse (.reservedCommand op)), bus := none,
                            steps := s.steps + 1, refused := true }

/-! ### Reset -/

/-- What reset leaves (R42, R320, R321; the spec's decisions D6, D17, D20, D34): a register to which the reset image gives a
value holds it; every other is unwritten, over a free word that is the model's way to say that it holds no value (log 29);
`INT_STATUS` and `scan_base` are drawn, the sequencer idle, every latch clear, the probe mode current, no buffer. The reset
state is one of these, under the default image: every storing register unwritten. With nothing scheduled the block does
nothing: only the outputs of the step before are dropped and the step counted (log 12, 13). -/
def Obligations.ResetStateIsAsStated : Prop :=
  (∀ cfg ws d1 d2,
    (∀ r, (∀ w, imageValue cfg.resetImage r = some w → getReg (State.resetOf cfg ws d1 d2).regs r = .holds w) ∧
      (imageValue cfg.resetImage r = none → getReg (State.resetOf cfg ws d1 d2).regs r = .unwritten (ws r))) ∧
    (State.resetOf cfg ws d1 d2).intStatus = d1 ∧
    (State.resetOf cfg ws d1 d2).scanBase = d2 ∧ (State.resetOf cfg ws d1 d2).seq = .idle ∧
    (State.resetOf cfg ws d1 d2).pend = none ∧ (State.resetOf cfg ws d1 d2).ack = .none ∧
    (State.resetOf cfg ws d1 d2).fault = none ∧ (State.resetOf cfg ws d1 d2).refused = false ∧
    (State.resetOf cfg ws d1 d2).curMode = cfg.probeMode ∧ (State.resetOf cfg ws d1 d2).buf = none ∧
    (State.resetOf cfg ws d1 d2).retired = [] ∧ (State.resetOf cfg ws d1 d2).irqInited = false) ∧
  (∃ cfg ws d1 d2, State.reset = State.resetOf cfg ws d1 d2) ∧ (∀ r, isWritten (getReg State.reset.regs r) = false) ∧
  ∀ s, s.fault = none → s.schedule = [] → step s = .next { s with out := none, bus := none, steps := s.steps + 1 }

/-- Every reset state meets the three invariants below. -/
def Obligations.ResetMeetsInvariants : Prop :=
  ∀ cfg ws d1 d2, CommitOrder (State.resetOf cfg ws d1 d2) ∧ ResolutionFixed (State.resetOf cfg ws d1 d2) ∧
    BuffersDisjoint (State.resetOf cfg ws d1 d2)

/-! ### Register access -/

/-- A write of a storing register puts all 32 bits into that register and into no other, in one transaction, and changes
nothing else; it is the configuration context's; writing the value a register holds leaves the registers as they are (R130
to R136). `CONTROL` has the exception of the next statement. -/
def Obligations.StoringWritesStoreWholeWord : Prop :=
  (∀ r v s, (r = .control → enableTooEarly v s = false) →
    exec (writeOf r v) s =
      .next { s with regs := setReg s.regs r v, bus := some (.write r.reg v), out := some (.ok .unit) }) ∧
  (∀ x r v, getReg (setReg x r v) r = .holds v ∧ ∀ r', r' ≠ r → getReg (setReg x r v) r' = getReg x r') ∧
  (∀ x r v, getReg x r = .holds v → setReg x r v = x) ∧
  ∀ r v, owner (writeOf r v) = .cfg

/-- `WR.CONTROL` with EN set while one of `HTIMING`, `VTIMING`, `CLOCK_POLARITY`, `FRAME_BASE` is unwritten latches
`EnableBeforeTiming` and stores nothing; with EN clear, or with all four written, it stores the word, and a stored word
with EN set starts the display pipeline. So does the fourth write of a commit fault while `FRAME_BASE` is unwritten (R136,
R169; the spec's decision D40); that the sequencer then stays at C3 with its words latched is the model's reading (log
25). -/
def Obligations.ControlEnableNeedsTiming : Prop :=
  (∀ v s, v.getLsbD s.cfg.layout.en = true →
    (isWritten s.regs.htiming = false ∨ isWritten s.regs.vtiming = false ∨ isWritten s.regs.clockPolarity = false ∨
      isWritten s.regs.frameBase = false) →
    exec (.wrControl v) s =
      .next { s with fault := some (s.fault.getD .enableBeforeTiming), out := some (.fault .enableBeforeTiming) }) ∧
  (∀ s p rest, s.fault = none → s.schedule = .resume .cfg :: rest → s.setModeGap = none → s.seq = .c3 →
    s.pend = some p → p.timing.ct.getLsbD s.cfg.layout.en = true → isWritten s.regs.frameBase = false →
    step s = .next { s with schedule := rest, bus := none, steps := s.steps + 1, fault := some .enableBeforeTiming,
                            out := some (.fault .enableBeforeTiming) }) ∧
  ∀ v s, (v.getLsbD s.cfg.layout.en = false ∨
      (isWritten s.regs.htiming = true ∧ isWritten s.regs.vtiming = true ∧ isWritten s.regs.clockPolarity = true ∧
        isWritten s.regs.frameBase = true)) →
    ∃ t, exec (.wrControl v) s = .next t ∧
      t = { s with regs := { s.regs with control := .holds v }, bus := some (.write .control v), out := some (.ok .unit) } ∧
      (v.getLsbD s.cfg.layout.en = true → pipelineStarted t = true)

/-- `WR.INT_CLEAR` clears exactly the status bits written as 1; a write of 0 clears none; nothing else changes (R28, R137;
bit by bit is the spec's decision D12). -/
def Obligations.IntClearClearsBitsWrittenOne : Prop :=
  ∀ v s, ∃ t, exec (.wrIntClear v) s = .next t ∧
    (∀ n, n < 32 → t.intStatus.getLsbD n = (s.intStatus.getLsbD n && !v.getLsbD n)) ∧
    (v = 0#32 → t.intStatus = s.intStatus) ∧
    t = { s with intStatus := t.intStatus, bus := some (.write .intClear v), out := some (.ok .unit) }

/-- `RD.INT_STATUS` returns the whole word and changes nothing, so that two reads in a row return the same; it is the event
context's (R138). -/
def Obligations.StatusReadHasNoSideEffect : Prop :=
  owner .rdIntStatus = .evt ∧
  ∀ s, ∃ t, exec .rdIntStatus s = .next t ∧
    t = { s with bus := some (.read .intStatus s.intStatus), out := some (.ok (.word s.intStatus)) } ∧
    exec .rdIntStatus t = .next t

/-- A bus read of a storing register (R139, R142 to R147; the spec's decision D11): under `readback = stored` the word as
written, low bits included, or a latched `ReadUnwritten`; under `refuse` the refusal mark. Nothing else changes. -/
def Obligations.StoringReadsFollowReadback : Prop :=
  (∀ r s w, s.cfg.readback = .stored → getReg s.regs r = .holds w →
    exec (readOf r) s = .next { s with bus := some (.read r.reg w), out := some (.ok (.word w)) }) ∧
  (∀ r s, s.cfg.readback = .stored → isWritten (getReg s.regs r) = false →
    exec (readOf r) s = .next { s with fault := some (s.fault.getD (.readUnwritten r)),
                                       out := some (.fault (.readUnwritten r)) }) ∧
  ∀ r s, s.cfg.readback = .refuse →
    exec (readOf r) s = .next { s with refused := true, out := some (.refuse (.readNotShown r)) }

/-- `WR.INT_STATUS` and `RD.INT_CLEAR` run as R148 and R149 say: their whole effect is the mark of the refusal, on every
operand and in every state; `INT_STATUS` and everything else stay as they are, and no result is returned (R140, R286; the
spec's decision D11; that the run goes on is log 8). -/
def Obligations.UnshownDirectionsSetTheMark : Prop :=
  (∀ v s, exec (.wrIntStatus v) s =
    .next { s with refused := true, out := some (.refuse (.directionNotShown .intStatus)) }) ∧
  ∀ s, exec .rdIntClear s = .next { s with refused := true, out := some (.refuse (.directionNotShown .intClear)) }

/-- A status read or an acknowledge commutes with every write of a storing register, as far as the register block and the
fault latch go, and the read returns the same word on either side (R73). -/
def Obligations.StatusPairCommutesWithWrites : Prop :=
  ∀ e r v s t t' u u', (e = .rdIntStatus ∨ ∃ w, e = .wrIntClear w) →
    exec e s = .next t → exec (writeOf r v) t = .next t' → exec (writeOf r v) s = .next u → exec e u = .next u' →
    t'.regs = u'.regs ∧ t'.intStatus = u'.intStatus ∧ t'.fault = u'.fault ∧ t.out = u'.out ∧ t.bus = u'.bus

/-! ### Timing encoder -/

/-- `PIXRATE` is the ceiling of `10^9 / pixclock`, and lies between 1 and `10^9`, so that it fits 30 bits; a `pixclock` of 0 is
turned into `MissingClock` by the validator and faults in `COMMIT` (R160). `BYTESPP` is the ceiling of a depth over 8, with
R161's table. -/
def Obligations.PixelRateAndSizeAreCeilings : Prop :=
  (∀ p, 1 ≤ p → 1 ≤ pixRate p ∧ pixRate p ≤ 10 ^ 9 ∧ pixRate p < 2 ^ 30 ∧ 10 ^ 9 ≤ pixRate p * p ∧
    (pixRate p - 1) * p < 10 ^ 9 ∧ (10 ^ 9 ≤ p → pixRate p = 1)) ∧
  pixRate 1 = 1000000000 ∧ pixRate 3 = 333333334 ∧ pixRate 166667 = 6000 ∧
  (∀ cfg r c k cap, r.pixclock = 0#32 → validateMode cfg r c k cap = .error .missingClock) ∧
  (∀ cfg m k, m.pixclock = 0#32 → planCommit cfg m k = .fault (.contractViolation .pixclockZero)) ∧
  (∀ b, b ≤ 8 * bytesPerPixel b ∧ 8 * bytesPerPixel b < b + 8) ∧
  [1, 2, 4, 8, 16, 24, 32].map bytesPerPixel = [1, 1, 1, 1, 2, 3, 4]

/-- `DIVCALC` (R162): the divider is the ceiling of the clock over the pixel rate. It is 0 exactly when the clock is 0; it is
1 when the rate is at least the clock; and for a mode that passed validator rule 2 it is at least the bytes per pixel (the
spec's derivations). -/
def Obligations.DividerIsZeroOnlyForZeroClock : Prop :=
  ∀ k p, 1 ≤ p → (divCalc k p = 0 ↔ k = 0) ∧ (1 ≤ k → k ≤ pixRate p → divCalc k p = 1) ∧
    k ≤ divCalc k p * pixRate p ∧ divCalc k p * pixRate p < k + pixRate p ∧ ∀ bpp, pixRate p * bytesPerPixel bpp ≤ k → bytesPerPixel bpp ≤ divCalc k p

/-- `EFFCLK` (R163): the achieved pixel clock is the ceiling of clock over divider, and the returned `pixclock` the floor of
`10^9` over it (the rounding is the spec's decision D16), which is what the record of a committable mode holds. Under the
divider of R162 the achieved clock is at least 1 kHz and never above the requested rate, and the returned `pixclock` fits
its field (the spec's derivations). -/
def Obligations.AchievedClockNeverExceedsRequest : Prop :=
  (∀ k d, 1 ≤ d → k ≤ effectiveClock k d * d ∧ effectiveClock k d * d < k + d) ∧
  (∀ e, 1 ≤ e → khzToPicos e * e ≤ 10 ^ 9 ∧ 10 ^ 9 < (khzToPicos e + 1) * e) ∧
  (∀ cfg m k, Committable cfg m k → ∃ t, planCommit cfg m k = .ready t ∧ t.divider = divCalc k.toNat m.pixclock.toNat ∧
    t.effectiveClockKhz = effectiveClock k.toNat t.divider ∧ t.pixclock.toNat = khzToPicos t.effectiveClockKhz) ∧
  ∀ k p, 1 ≤ k → 1 ≤ p → 1 ≤ effectiveClock k (divCalc k p) ∧ effectiveClock k (divCalc k p) ≤ pixRate p ∧
    khzToPicos (effectiveClock k (divCalc k p)) ≤ 10 ^ 9

/-- The range check (R100; the spec's decision D3): a value that fits is inserted as it is; one that does not is a fault, or
is reduced modulo `2^width`; a minus-one operand of 0 never fits (R97), nor a width below 16 (R98). -/
def Obligations.RangeCheckFollowsPolicy : Prop :=
  (∀ cfg n e, 0 ≤ e → e < 2 ^ (n.field cfg.layout).width → checked cfg n e = .ok e.toNat) ∧
  (∀ cfg n e, ¬ (0 ≤ e ∧ e < 2 ^ (n.field cfg.layout).width) →
    (cfg.overflowPolicy = .fault → checked cfg n e = .error (.encodeRange n e)) ∧
    (cfg.overflowPolicy = .truncate → checked cfg n e = .ok (e % 2 ^ (n.field cfg.layout).width).toNat)) ∧
  ∀ f x, fits f (minusOne 0) = false ∧ (x < 16 → fits f (sixteenths x) = false)

/-- What the three timing words hold, for every well-formed layout. When every field fits, decoding the encoded `HTIMING` and
`VTIMING` gives back the mode's values, `xres` as the multiple of 16 below it, so exactly when it is one (R98, R165, R176;
the spec's decision D29), and decoding `CLOCK_POLARITY` the divider and the two polarity senses (the spec's derivation).
Whatever the overflow policy and the operands, a field of a word that is built extracts to its encoded value modulo
`2^width`, and under `truncate` all three words are built (R100; the spec's decision D3). -/
def Obligations.TimingWordsRoundTrip : Prop :=
  (∀ cfg m d, cfg.layout.wf = true →
    let l := cfg.layout
    (∀ w, encClockPolarity cfg d m.syncFlags = .ok w →
      decClockPolarity l w = ⟨(minusOne d % 2 ^ l.divno.width).toNat + 1, m.syncFlags.getLsbD 0, m.syncFlags.getLsbD 1,
        cfg.invertPixelClock, true⟩) ∧
    (∀ w, encHtiming cfg m = .ok w →
      ext l.ppl w = (sixteenths m.xres.toNat % 2 ^ l.ppl.width).toNat ∧
      ext l.hw w = (minusOne m.hsyncLen.toNat % 2 ^ l.hw.width).toNat ∧
      ext l.hfp w = (minusOne m.rightMargin.toNat % 2 ^ l.hfp.width).toNat ∧
      ext l.hbp w = (minusOne m.leftMargin.toNat % 2 ^ l.hbp.width).toNat) ∧
    (∀ w, encVtiming cfg m = .ok w →
      ext l.lpp w = (minusOne m.yres.toNat % 2 ^ l.lpp.width).toNat ∧
      ext l.vw w = (minusOne m.vsyncLen.toNat % 2 ^ l.vw.width).toNat ∧
      ext l.vfp w = (plain m.lowerMargin.toNat % 2 ^ l.vfp.width).toNat ∧
      ext l.vbp w = (plain m.upperMargin.toNat % 2 ^ l.vbp.width).toNat) ∧
    (cfg.overflowPolicy = .truncate → ∃ cp ht vt, encClockPolarity cfg d m.syncFlags = .ok cp ∧
      encHtiming cfg m = .ok ht ∧ encVtiming cfg m = .ok vt)) ∧
  ∀ cfg m k, cfg.layout.wf = true → FieldsFit cfg m k →
    ∃ cp ht vt, encClockPolarity cfg (divCalc k.toNat m.pixclock.toNat) m.syncFlags = .ok cp ∧
      encHtiming cfg m = .ok ht ∧ encVtiming cfg m = .ok vt ∧
      decHtiming cfg.layout ht =
        (m.xres.toNat / 16 * 16, m.hsyncLen.toNat, m.rightMargin.toNat, m.leftMargin.toNat) ∧
      (m.xres.toNat % 16 = 0 → decHtiming cfg.layout ht =
        (m.xres.toNat, m.hsyncLen.toNat, m.rightMargin.toNat, m.leftMargin.toNat)) ∧
      decVtiming cfg.layout vt = (m.yres.toNat, m.vsyncLen.toNat, m.lowerMargin.toNat, m.upperMargin.toNat) ∧
      decClockPolarity cfg.layout cp = ⟨divCalc k.toNat m.pixclock.toNat, m.syncFlags.getLsbD 0, m.syncFlags.getLsbD 1,
        cfg.invertPixelClock, true⟩

/-- The `CONTROL` word of every supported depth, under every well-formed layout, decodes to EN, TFT and BGR set, the
little-endian code and the depth's class; 24 and 32 give one word; every other depth faults (R94, R167, R168, R175). -/
def Obligations.ControlWordDecodesToDepth : Prop :=
  ∀ l : Layout, l.wf = true →
    (∀ bpp c, (bpp, c) ∈ [(1, DepthClass.bpp1), (2, .bpp2), (4, .bpp4), (8, .bpp8), (16, .bpp16), (24, .bpp24or32),
        (32, .bpp24or32)] →
      ∃ w, encControl l bpp = .ok w ∧ decControl l w = ⟨true, true, true, l.endianLeLe, some c⟩) ∧
    encControl l 24 = encControl l 32 ∧
    ∀ bpp, bpp ∉ [1, 2, 4, 8, 16, 24, 32] → encControl l bpp = .error (.contractViolation .unsupportedBpp)

/-- Every bit of an encoded word that no field or flag of its format covers is 0, whatever the overflow policy (R105; the
spec's decision D15). -/
def Obligations.ReservedBitsAreWrittenZero : Prop :=
  ∀ cfg m d w n, cfg.layout.wf = true →
    (encHtiming cfg m = .ok w → (∀ f ∈ cfg.layout.htimingFields, n < f.lsb ∨ f.lsb + f.width ≤ n) →
      w.getLsbD n = false) ∧
    (encVtiming cfg m = .ok w → (∀ f ∈ cfg.layout.vtimingFields, n < f.lsb ∨ f.lsb + f.width ≤ n) →
      w.getLsbD n = false) ∧
    (encClockPolarity cfg d m.syncFlags = .ok w →
      (∀ f ∈ cfg.layout.clockPolarityFields, n < f.lsb ∨ f.lsb + f.width ≤ n) → w.getLsbD n = false) ∧
    (encControl cfg.layout m.bitsPerPixel.toNat = .ok w →
      (∀ f ∈ cfg.layout.controlFields, n < f.lsb ∨ f.lsb + f.width ≤ n) → w.getLsbD n = false)

/-- `COMMIT` on operands it can commit, with the sequencer idle: its first step latches the mode's committed timing, writes
`CLOCK_POLARITY` and moves the sequencer to C1; nothing else changes (R32, R169). -/
def Obligations.CommitStartsWithClockPolarity : Prop :=
  ∀ m k s, s.seq = .idle → Committable s.cfg m k →
    ∃ t, TimingOf s.cfg m k t ∧ exec (.commit m k) s =
      .next { s with regs := { s.regs with clockPolarity := .holds t.cp }, bus := some (.write .clockPolarity t.cp),
                     seq := .c1, pend := some ⟨t, none⟩ }

/-- A `COMMIT` that fails touches no register, and reports the first cause in order (R169, R282, R285, R291): `pixclock = 0`
latches a contract violation; then a clock of 0 is the error `ClockExceedsBus`; then the first value that does not fit, in
the order DIVNO, PPL, HW, HFP, HBP, LPP, VW, VFP, VBP, latches `EncodeRange` with its field and its encoded value; then an
unsupported depth a contract violation. During a commit it is refused. -/
def Obligations.CommitFailuresTouchNoRegister : Prop :=
  (∀ m k s, s.seq = .idle → m.pixclock = 0#32 → exec (.commit m k) s =
    .next { s with fault := some (s.fault.getD (.contractViolation .pixclockZero)),
                   out := some (.fault (.contractViolation .pixclockZero)) }) ∧
  (∀ m s, s.seq = .idle → m.pixclock ≠ 0#32 → exec (.commit m 0#32) s =
    .next { s with out := some (.error (.timing .clockExceedsBus)) }) ∧
  (∀ m k s, s.seq = .idle → m.pixclock ≠ 0#32 → k ≠ 0#32 → s.cfg.overflowPolicy = .fault → ¬ FieldsFit s.cfg m k →
    ∃ n e, firstMisfit s.cfg m k = some (n, e) ∧ fits (n.field s.cfg.layout) e = false ∧ exec (.commit m k) s =
      .next { s with fault := some (s.fault.getD (.encodeRange n e)), out := some (.fault (.encodeRange n e)) }) ∧
  (∀ m k s, s.seq = .idle → m.pixclock ≠ 0#32 → k ≠ 0#32 → (s.cfg.overflowPolicy = .truncate ∨ FieldsFit s.cfg m k) →
    ¬ supportedDepth m.bitsPerPixel.toNat → exec (.commit m k) s =
      .next { s with fault := some (s.fault.getD (.contractViolation .unsupportedBpp)),
                     out := some (.fault (.contractViolation .unsupportedBpp)) }) ∧
  ∀ m k s, s.seq ≠ .idle → exec (.commit m k) s =
    .next { s with refused := true, out := some (.refuse .commitInProgress) }

/-- A commit runs to its end, whatever the event context and the display engine do between its writes: with its three
remaining steps scheduled among any steps of theirs, the registers end with the four words and nothing else of the register
image changed, the sequencer idle, and the committed timing returned (R169, R170, R171, R336). -/
def Obligations.CommitCompletesUnderInterleaving : Prop :=
  ∀ s m k reply e0 e1 e2 a, s.fault = none → s.seq = .idle → s.setModeGap = none → m.wf = true →
    Committable s.cfg m k → s.regs.frameBase = .holds a →
    (∀ x ∈ e0 ++ e1 ++ e2, x.sparesCfg = true) →
    s.schedule = .issue .cfg (encode (.commit m k)) reply :: e0 ++ .resume .cfg :: e1 ++ .resume .cfg :: e2
      ++ [.resume .cfg] →
    ∃ t u, TimingOf s.cfg m k t ∧ stepN (4 + (e0.length + e1.length + e2.length)) s = .next u ∧
      u.regs = committedRegs s.regs t ∧ u.seq = .idle ∧ u.pend = none ∧ u.fault = none ∧
      u.out = some (.ok (.timing t)) ∧ u.bus = some (.write .control t.ct) ∧ u.curMode = s.curMode ∧ u.buf = s.buf ∧
      u.retired = s.retired ∧ u.irqInited = s.irqInited ∧ u.setModeGap = none ∧ u.schedule = []

/-- A commit is idempotent (R171): committing the same mode again, four steps after four steps, ends with the same
registers and returns the same record. -/
def Obligations.CommitTwiceLeavesSameRegisters : Prop :=
  ∀ s m k r1 r2 a, s.fault = none → s.seq = .idle → s.setModeGap = none → m.wf = true → Committable s.cfg m k →
    s.regs.frameBase = .holds a →
    s.schedule = [.issue .cfg (encode (.commit m k)) r1, .resume .cfg, .resume .cfg, .resume .cfg,
      .issue .cfg (encode (.commit m k)) r2, .resume .cfg, .resume .cfg, .resume .cfg] →
    ∃ u v, stepN 4 s = .next u ∧ stepN 8 s = .next v ∧ v.regs = u.regs ∧ v.out = u.out ∧
      isWritten u.regs.control = true

/-- Every step keeps the registers in agreement with the position of the commit in progress (R32, R71). -/
def Obligations.CommitOrderIsInvariant : Prop := ∀ s t, CommitOrder s → step s = .next t → CommitOrder t

/-- Whoever sees the new `CONTROL` of a commit sees its three timing words (R71): in a state that keeps the invariant, the
step that ends a commit leaves all four of its words in the registers. -/
def Obligations.NewControlComesWithNewTiming : Prop :=
  ∀ s t p, CommitOrder s → s.seq = .c3 → s.pend = some p → step s = .next t → t.seq = .idle →
    t.regs = committedRegs s.regs p.timing

/-- The sequencer advances by exactly one position on each write of the commit and never skips or goes back (R32): a step
that changes it goes from idle to C1 with a write of `CLOCK_POLARITY`, from C1 to C2 with `HTIMING`, from C2 to C3 with
`VTIMING`, from C3 to idle with `CONTROL`. And the next step of a commit does write the next latched word and advance, with
nothing else changed; at C3 it returns the committed timing, or, for a `SET_MODE`, stores and returns the mode with the
achieved `pixclock` (R169, R247), where the write of `CONTROL` does not fault (R136). -/
def Obligations.SequencerAdvancesByOne : Prop :=
  (∀ s p rest, s.fault = none → s.setModeGap = none → s.pend = some p → s.schedule = .resume .cfg :: rest →
    (s.seq = .c1 → step s =
      .next { s with regs := { s.regs with htiming := .holds p.timing.ht }, seq := .c2,
                     bus := some (.write .htiming p.timing.ht), out := none, schedule := rest, steps := s.steps + 1 }) ∧
    (s.seq = .c2 → step s =
      .next { s with regs := { s.regs with vtiming := .holds p.timing.vt }, seq := .c3,
                     bus := some (.write .vtiming p.timing.vt), out := none, schedule := rest, steps := s.steps + 1 }) ∧
    (s.seq = .c3 → (p.timing.ct.getLsbD s.cfg.layout.en = false ∨
        (isWritten s.regs.htiming = true ∧ isWritten s.regs.vtiming = true ∧ isWritten s.regs.clockPolarity = true ∧
          isWritten s.regs.frameBase = true)) →
      (p.setMode = none → step s =
        .next { s with regs := { s.regs with control := .holds p.timing.ct }, seq := .idle, pend := none,
                       bus := some (.write .control p.timing.ct), out := some (.ok (.timing p.timing)),
                       schedule := rest, steps := s.steps + 1 }) ∧
      ∀ v, p.setMode = some v → step s =
        .next { s with regs := { s.regs with control := .holds p.timing.ct }, seq := .idle, pend := none,
                       bus := some (.write .control p.timing.ct), curMode := { v with pixclock := p.timing.pixclock },
                       out := some (.ok (.mode { v with pixclock := p.timing.pixclock })),
                       schedule := rest, steps := s.steps + 1 })) ∧
  ∀ s t, step s = .next t → t.seq ≠ s.seq →
    (s.seq = .idle ∧ t.seq = .c1 ∧ ∃ w, t.bus = some (.write .clockPolarity w)) ∨
    (s.seq = .c1 ∧ t.seq = .c2 ∧ ∃ w, t.bus = some (.write .htiming w)) ∨
    (s.seq = .c2 ∧ t.seq = .c3 ∧ ∃ w, t.bus = some (.write .vtiming w)) ∨
    (s.seq = .c3 ∧ t.seq = .idle ∧ ∃ w, t.bus = some (.write .control w))

/-! ### Pan controller -/

/-- `PANADDR` (R66, R200): a multiple of `2^g`; the sum, reduced modulo `2^32` (the spec's decision D5), is truncated
downwards by less than `2^g`. -/
def Obligations.PanAddressIsAlignedDown : Prop :=
  ∀ g base line y, (panAddr g base line y).toNat % 2 ^ g = 0 ∧
    (panAddr g base line y).toNat ≤ (base + y * line) % 2 ^ 32 ∧
    (base + y * line) % 2 ^ 32 < (panAddr g base line y).toNat + 2 ^ g

/-- `PAN` writes the aligned address to `FRAME_BASE` and returns it, whatever its operands; `SETBASE` writes its operand as
it is; nothing else changes. During a commit both are refused (R201, R202). -/
def Obligations.PanAndSetbaseWriteFrameBase : Prop :=
  (∀ b l y s, s.seq = .idle → exec (.pan b l y) s =
    .next { s with
      regs := { s.regs with frameBase := .holds (panAddr s.cfg.fbAlignLog2 b.toNat l.toNat y.toNat) },
      bus := some (.write .frameBase (panAddr s.cfg.fbAlignLog2 b.toNat l.toNat y.toNat)),
      out := some (.ok (.address (panAddr s.cfg.fbAlignLog2 b.toNat l.toNat y.toNat))) }) ∧
  (∀ b s, s.seq = .idle → exec (.setbase b) s =
    .next { s with regs := { s.regs with frameBase := .holds b }, bus := some (.write .frameBase b),
                   out := some (.ok .unit) }) ∧
  ∀ b l y s, s.seq ≠ .idle →
    exec (.pan b l y) s = .next { s with refused := true, out := some (.refuse .commitInProgress) } ∧
    exec (.setbase b) s = .next { s with refused := true, out := some (.refuse .commitInProgress) }

/-- Under the caller's obligation and a buffer of at least the mode's size inside the 32-bit space, the sum of a pan does not
wrap and lies inside the buffer, and the address is that sum truncated downwards by less than `2^g`; with an aligned base the
address lies inside the buffer too (R200, R204, the spec's derivation). -/
def Obligations.PanInRangeStaysInsideBuffer : Prop :=
  ∀ g (m : DisplayMode) (b : Buffer) (y : Nat), requiredBytes m ≤ b.length →
    b.physicalBase.toNat + b.length ≤ 2 ^ 32 → 1 ≤ m.yres.toNat → 1 ≤ lineLength m →
    y + m.yres.toNat ≤ m.yresVirtual.toNat →
    b.physicalBase.toNat + y * lineLength m < 2 ^ 32 ∧
    b.physicalBase.toNat + y * lineLength m < b.physicalBase.toNat + b.length ∧
    (panAddr g b.physicalBase.toNat (lineLength m) y).toNat ≤ b.physicalBase.toNat + y * lineLength m ∧
    b.physicalBase.toNat + y * lineLength m < (panAddr g b.physicalBase.toNat (lineLength m) y).toNat + 2 ^ g ∧
    (b.physicalBase.toNat % 2 ^ g = 0 → b.contains (panAddr g b.physicalBase.toNat (lineLength m) y) = true)

/-- `PAN_Y` (R248, R291; the spec's decision D19): without a buffer `NoBuffer`, out of range `OutOfRange`, both without a
write; otherwise one write of the line's address to `FRAME_BASE`, a line being `xres_virtual` times the bytes per pixel of
the current mode (R244; the spec's decision D25; a product of `2^32` or more: log 28). -/
def Obligations.PanYChecksRangeThenPans : Prop :=
  (∀ y s, s.buf = none → exec (.panY y) s = .next { s with out := some (.error (.pan .noBuffer)) }) ∧
  (∀ y s b, s.buf = some b → s.curMode.yresVirtual.toNat < y.toNat + s.curMode.yres.toNat →
    exec (.panY y) s = .next { s with out := some (.error (.pan .outOfRange)) }) ∧
  ∀ y s b, s.buf = some b → y.toNat + s.curMode.yres.toNat ≤ s.curMode.yresVirtual.toNat → s.seq = .idle →
    exec (.panY y) s = .next { s with
      regs := { s.regs with
        frameBase := .holds (panAddr s.cfg.fbAlignLog2 b.physicalBase.toNat
          (s.curMode.xresVirtual.toNat * bytesPerPixel s.curMode.bitsPerPixel.toNat) y.toNat) },
      bus := some (.write .frameBase (panAddr s.cfg.fbAlignLog2 b.physicalBase.toNat
        (s.curMode.xresVirtual.toNat * bytesPerPixel s.curMode.bitsPerPixel.toNat) y.toNat)),
      out := some (.ok .unit) }

/-! ### Status decoder -/

/-- `IRQ.INIT` (R26, R105, R220, R288): with the sequencer idle it writes the word in which the bits of underrun and bus error
are 1 and every other bit, the reserved ones too, is 0 (the spec's decision D15), and records that it ran; after it the
interrupt line is asserted exactly when an underrun or a bus error is pending (the line's formula is the spec's decision
D14). -/
def Obligations.IrqInitUnmasksUnderrunAndBusError : Prop :=
  ∀ s, s.seq = .idle → s.cfg.layout.wf = true → ∃ (t : State) (w : Word), exec .irqInit s = .next t ∧
    (∀ n, n < 32 → (w.getLsbD n = true ↔ n = s.cfg.layout.underrun ∨ n = s.cfg.layout.busError)) ∧
    t = { s with regs := { s.regs with intEnable := .holds w }, irqInited := true,
                 bus := some (.write .intEnable w), out := some (.ok .unit) } ∧
    irq t = (s.intStatus.getLsbD s.cfg.layout.underrun || s.intStatus.getLsbD s.cfg.layout.busError)

/-- The read step of `POLL_ACK`, and of `POLL_EVENTS`: the status word is read once and held; nothing else changes. While a
poll is in progress both are refused (R222, R223). -/
def Obligations.PollReadsStatusAndHoldsIt : Prop :=
  ∀ i, (i = .pollAck ∨ i = .pollEvents) →
    (∀ s, s.ack = .none → exec i s =
      .next { s with ack := .pending s.intStatus, bus := some (.read .intStatus s.intStatus) }) ∧
    ∀ s w, s.ack = .pending w → exec i s =
      .next { s with refused := true, out := some (.refuse .pollInProgress) }

/-- `POLL_EVENTS` (R249): command select 0xD, the event context's, and in every state the same as `POLL_ACK`. -/
def Obligations.PollEventsIsPollAck : Prop :=
  (∀ ws, decode (.cmd 0xD#4 ws) = .ok .pollEvents) ∧ owner .pollEvents = .evt ∧
  ∀ s, exec .pollEvents s = exec .pollAck s

/-- The acknowledge step of a poll (R221, R222): the word read is written back, zero or not, which clears exactly its bits;
an event is returned exactly when its bit was set in that word; nothing else changes. -/
def Obligations.PollAcknowledgesWhatItRead : Prop :=
  ∀ s w rest, s.fault = none → s.ack = .pending w → s.schedule = .resume .evt :: rest →
    ∃ t ev, step s = .next t ∧
      t = { s with intStatus := s.intStatus &&& ~~~w, ack := .none, bus := some (.write .intClear w),
                   out := some (.ok (.events ev)), schedule := rest, steps := s.steps + 1 } ∧
      ∀ e : StatusEvent, ev.has e = w.getLsbD (e.bit s.cfg.layout)

/-- An event raised between the read and the acknowledge of a poll, of a class the read did not see, is not lost: this poll
does not report it and it stays pending (R75, R224; bit by bit is the spec's decision D12). Under `status_masked = true`
that is so of a class enabled in `INT_ENABLE`, the only ones the engine shows (R287; the spec's decision D13). -/
def Obligations.EventBetweenReadAndAckSurvives : Prop :=
  ∀ s e (S : EventSet) reply rest, s.fault = none → s.ack = .none → s.cfg.layout.wf = true →
    (s.cfg.statusMasked = false ∨
      ∃ m, s.regs.intEnable = .holds m ∧ m.getLsbD (StatusEvent.bit s.cfg.layout e) = true) →
    s.intStatus.getLsbD (StatusEvent.bit s.cfg.layout e) = false → S.has e = true →
    s.schedule = .issue .evt (encode .pollAck) reply :: .raise S :: .resume .evt :: rest →
    ∃ t ev, stepN 3 s = .next t ∧ t.out = some (.ok (.events ev)) ∧ ev.has e = false ∧
      t.intStatus.getLsbD (e.bit s.cfg.layout) = true

/-- Pending and clearing (R289): in every step that turns an event's status bit from 1 to 0, a word with that bit set is
written to `INT_CLEAR`; such a write does clear the bit; reading `INT_STATUS` clears nothing; a poll acknowledges
everything it saw, by writing back the word it read. -/
def Obligations.OnlyAcknowledgeClearsEvents : Prop :=
  (∀ v s t e, exec (.wrIntClear v) s = .next t → v.getLsbD (StatusEvent.bit s.cfg.layout e) = true →
    t.intStatus.getLsbD (StatusEvent.bit s.cfg.layout e) = false) ∧
  (∀ s t, exec .rdIntStatus s = .next t → t.intStatus = s.intStatus) ∧
  (∀ s t, s.ack = .none → exec .pollAck s = .next t → t.ack = .pending s.intStatus ∧ t.intStatus = s.intStatus) ∧
  (∀ s w rest, s.fault = none → s.ack = .pending w → s.schedule = .resume .evt :: rest →
    ∃ t, step s = .next t ∧ t.bus = some (.write .intClear w) ∧
      ∀ e, w.getLsbD (StatusEvent.bit s.cfg.layout e) = true →
        t.intStatus.getLsbD (StatusEvent.bit s.cfg.layout e) = false) ∧
  ∀ s t e, step s = .next t → s.intStatus.getLsbD (StatusEvent.bit s.cfg.layout e) = true →
    t.intStatus.getLsbD (StatusEvent.bit s.cfg.layout e) = false →
    ∃ v, t.bus = some (.write .intClear v) ∧ v.getLsbD (StatusEvent.bit s.cfg.layout e) = true

/-- The interrupt line (R37, R290; the spec's decision D14): with `INT_ENABLE` written it is asserted exactly when some
class is both pending and unmasked. -/
def Obligations.InterruptLineFollowsMask : Prop :=
  ∀ s m, s.regs.intEnable = .holds m → s.cfg.layout.wf = true →
    (irq s = true ↔ ∃ e : StatusEvent, s.intStatus.getLsbD (e.bit s.cfg.layout) = true ∧
      m.getLsbD (e.bit s.cfg.layout) = true)

/-! ### Display engine -/

/-- `DE.RAISE S` sets the bits of `S` and clears none: of every class under `status_masked = false`, of the classes enabled
in `INT_ENABLE` under `true`; no other bit and nothing else changes (R287; the spec's decisions D13, D36). -/
def Obligations.RaiseSetsShownClasses : Prop :=
  ∀ s (S : EventSet), s.cfg.layout.wf = true → ∃ t, perform (.raise S) s = .next t ∧
    t = { s with intStatus := t.intStatus } ∧
    (∀ n, n < 32 → (∀ e : StatusEvent, n ≠ e.bit s.cfg.layout) → t.intStatus.getLsbD n = s.intStatus.getLsbD n) ∧
    (s.cfg.statusMasked = false → ∀ e : StatusEvent, t.intStatus.getLsbD (e.bit s.cfg.layout) =
      (s.intStatus.getLsbD (e.bit s.cfg.layout) || S.has e)) ∧
    ∀ m, s.cfg.statusMasked = true → s.regs.intEnable = .holds m → ∀ e : StatusEvent,
      t.intStatus.getLsbD (e.bit s.cfg.layout) =
        (s.intStatus.getLsbD (e.bit s.cfg.layout) || (S.has e && m.getLsbD (e.bit s.cfg.layout)))

/-- `DE.LATCH` (R25, R36; the spec's decisions D13, D22): when `scan_base` differs from the masked frame base, it becomes that
address, a multiple of `2^g`, and the NextBase bit is set, under `status_masked = true` only if that class is enabled in
`INT_ENABLE`, and no other bit. When it does not differ the action is not enabled, and the step that names it changes
nothing, which is the model's choice (log 18). -/
def Obligations.LatchAdoptsMaskedFrameBase : Prop :=
  ∀ s a, s.regs.frameBase = .holds a → s.cfg.layout.wf = true →
    ∃ t b, perform .latch s = .next t ∧ b.toNat = a.toNat - a.toNat % 2 ^ s.cfg.fbAlignLog2 ∧ t.scanBase = b ∧
      t = { s with scanBase := b, intStatus := t.intStatus } ∧
      (s.scanBase = b → t = s) ∧
      (s.scanBase ≠ b → s.cfg.statusMasked = false →
        t.intStatus = s.intStatus ||| (1#32 <<< s.cfg.layout.nextBase)) ∧
      ∀ m, s.scanBase ≠ b → s.cfg.statusMasked = true → s.regs.intEnable = .holds m →
        t.intStatus = if m.getLsbD s.cfg.layout.nextBase then s.intStatus ||| (1#32 <<< s.cfg.layout.nextBase)
          else s.intStatus

/-- Status events are not errors (R295): a step of the display engine, whatever event it raises, answers a next state and
changes `INT_STATUS` and `scan_base` alone, so neither the fault latch nor the sequencer, the register image or the current
mode; and a poll returns the events, whatever they are, as its result, changing none of those either. -/
def Obligations.EngineStepsChangeStatusAndScanOnly : Prop :=
  (∀ a s, a.ofEngine = true → ∃ t, perform a s = .next t ∧
    t = { s with intStatus := t.intStatus, scanBase := t.scanBase }) ∧
  ∀ s w, s.ack = .pending w → ∃ t, perform (.resume .evt) s = .next t ∧
    t.out = some (.ok (.events (decodeStatus s.cfg.layout w))) ∧
    t.fault = s.fault ∧ t.seq = s.seq ∧ t.regs = s.regs ∧ t.curMode = s.curMode

/-- The event context and the display engine leave everything of the configuration context alone (R31, R73, R78): no step of
theirs changes a storing register, the commit in progress, the host state or the configuration. And the other way round
(R31, R294): no step of the configuration context, be it the next of its call in progress or a request it issues, changes
`INT_STATUS`, the latch of a poll or `scan_base`. -/
def Obligations.EventStepsSpareConfiguration : Prop :=
  (∀ a s t, (a = .resume .cfg ∨ ∃ c reply, a = .issue .cfg c reply) → perform a s = .next t →
    t.intStatus = s.intStatus ∧ t.ack = s.ack ∧ t.scanBase = s.scanBase) ∧
  ∀ a s t, a.sparesCfg = true → perform a s = .next t →
    t.regs = s.regs ∧ t.seq = s.seq ∧ t.pend = s.pend ∧ t.curMode = s.curMode ∧ t.buf = s.buf ∧ t.retired = s.retired ∧
      t.irqInited = s.irqInited ∧ t.setModeGap = s.setModeGap ∧ t.cfg = s.cfg ∧ t.fault = s.fault

/-- A retired buffer is released once the display engine scans outside it, and then leaves the list, nothing else changing
(R325; the spec's decision D27). The condition is the host's obligation; that the machine does not go on after an earlier
release is the model's choice (log 9). -/
def Obligations.ReleaseWaitsForGrace : Prop :=
  ∀ s k b, s.retired[k]? = some b →
    (b.contains s.scanBase = false → perform (.free k) s = .next { s with retired := s.retired.eraseIdx k }) ∧
    ∀ t, perform (.free k) s = .next t → b.contains s.scanBase = false

/-! ### Host-side mode logic -/

/-- `VALIDATE` (R240, R241, R281): it reports the first of the six rules that fails, or the request with its colour layout;
it changes nothing (the rule on capacity compares naturals, the spec's decision D26). -/
def Obligations.ValidateReportsFirstFailure : Prop :=
  ∀ r c k cap s, ∃ o, exec (.validate r c k cap) s = .next { s with out := some o } ∧
    let tooFast := k.toNat < pixRate r.pixclock.toNat * bytesPerPixel r.bitsPerPixel.toNat
    let resized := r.xres ≠ c.xres ∨ r.yres ≠ c.yres ∨ r.xresVirtual ≠ c.xresVirtual
    let height := r.yresVirtual.toNat < r.yres.toNat ∨
      (s.cfg.policy = .fixed ∧ c.yresVirtual.toNat < r.yresVirtual.toNat)
    let tooSmall := ∃ n, cap = some n ∧ n.toNat < requiredBytes r
    (r.pixclock = 0#32 → o = .error (.mode .missingClock)) ∧
    (r.pixclock ≠ 0#32 → tooFast → o = .error (.mode .clockTooFast)) ∧
    (r.pixclock ≠ 0#32 → ¬ tooFast → resized → o = .error (.mode .resolutionFixed)) ∧
    (r.pixclock ≠ 0#32 → ¬ tooFast → ¬ resized → height → o = .error (.mode .virtualHeightOutOfRange)) ∧
    (r.pixclock ≠ 0#32 → ¬ tooFast → ¬ resized → ¬ height → tooSmall → o = .error (.mode .bufferTooSmall)) ∧
    (r.pixclock ≠ 0#32 → ¬ tooFast → ¬ resized → ¬ height → ¬ tooSmall → ¬ supportedDepth r.bitsPerPixel.toNat →
      o = .error (.mode .unsupportedDepth)) ∧
    (r.pixclock ≠ 0#32 → ¬ tooFast → ¬ resized → ¬ height → ¬ tooSmall → supportedDepth r.bitsPerPixel.toNat →
      ∃ l, colorLayout r.bitsPerPixel.toNat s.cfg.colorOrder = some l ∧ o = .ok (.mode { r with layout := some l }))

/-- Colour layouts (R242): every supported depth has one and no other; for 1, 2, 4 and 8 all three colours are the whole pixel
and there is no alpha (the spec's decision D24); for 16, 24 and 32 the fields have the source's lengths, fill the pixel
from bit 0 without overlap, and red is at one end or the other by the colour order (the offsets are the spec's derivation,
the alpha field its decision D24). -/
def Obligations.ColourLayoutFollowsDepthAndOrder : Prop :=
  ∀ bpp o, (supportedDepth bpp ↔ colorLayout bpp o ≠ none) ∧
    ∀ l, colorLayout bpp o = some l →
      (bpp ≤ 8 → l = ⟨⟨0, bpp⟩, ⟨0, bpp⟩, ⟨0, bpp⟩, ⟨0, 0⟩⟩) ∧
      (bpp = 16 → l.red.length = 5 ∧ l.green.length = 6 ∧ l.blue.length = 5 ∧ l.alpha.length = 0) ∧
      (bpp = 24 → l.red.length = 8 ∧ l.green.length = 8 ∧ l.blue.length = 8 ∧ l.alpha.length = 0) ∧
      (bpp = 32 → l.red.length = 8 ∧ l.green.length = 8 ∧ l.blue.length = 8 ∧ l.alpha.length = 8 ∧ l.alpha.offset = 24) ∧
      (16 ≤ bpp → o = .redLow → l.red.offset = 0 ∧ l.green.offset = l.red.length ∧
        l.blue.offset = l.red.length + l.green.length) ∧
      (16 ≤ bpp → o = .redHigh → l.blue.offset = 0 ∧ l.green.offset = l.blue.length ∧
        l.red.offset = l.blue.length + l.green.length)

/-- `SIZER.ENSURE` (R245, R250; the spec's decision D26): enough capacity, or the fixed policy, and nothing changes; a
refused or impossible allocation is `OutOfMemory` and nothing changes; otherwise the fresh region of exactly the needed
bytes becomes the active buffer, its base goes to `FRAME_BASE`, and the previous buffer is retired, not freed. The needed
bytes are those of R243. The allocator's answer is an input (log 14). -/
def Obligations.SizerGrowsOrLeavesUntouched : Prop :=
  ∀ m s, requiredBytes m = m.xresVirtual.toNat * m.yresVirtual.toNat * bytesPerPixel m.bitsPerPixel.toNat ∧
    ((s.cfg.policy = .fixed ∨ requiredBytes m ≤ bufferCapacity s) →
      exec (.sizerEnsure m) s = .next { s with out := some (.ok .unit) }) ∧
    (s.cfg.policy = .grow → bufferCapacity s < requiredBytes m →
      NoMemory (requiredBytes m) s →
      exec (.sizerEnsure m) s = .next { s with out := some (.error (.sizer .outOfMemory)) }) ∧
    ∀ h pa, s.cfg.policy = .grow → bufferCapacity s < requiredBytes m → requiredBytes m < 2 ^ 32 →
      s.allocReply = .grants h pa → regionFresh pa (requiredBytes m) s = true → s.seq = .idle →
      exec (.sizerEnsure m) s =
        .next { s with regs := { s.regs with frameBase := .holds pa }, bus := some (.write .frameBase pa),
                       retired := s.retired ++ s.buf.toList, buf := some ⟨h, pa, requiredBytes m⟩,
                       out := some (.ok .unit) }

/-- `SIZER.FIXED_INIT` (R246): `xres_virtual * (N * yres) * bytes_per_pixel` of the probe mode are allocated, the region
becomes the active buffer and its base goes to `FRAME_BASE` (the write is the spec's derivation); a failure changes
nothing. The allocator's answer is an input, and must be a fresh region (log 14). That no policy is checked, and that a
buffer already active is replaced and not retired, is the model's reading (log 17). In a well-formed configuration of the
fixed policy the probe mode's virtual height is `N` times its height (R246), and the region is exactly what that mode
needs. -/
def Obligations.FixedInitAllocatesDoubleCapacity : Prop :=
  (∀ cfg : Config, cfg.wf = true → cfg.policy = .fixed →
    cfg.probeMode.yresVirtual.toNat = cfg.multiplier * cfg.probeMode.yres.toNat ∧
    requiredBytes cfg.probeMode = cfg.probeMode.xresVirtual.toNat * (cfg.multiplier * cfg.probeMode.yres.toNat)
      * bytesPerPixel cfg.probeMode.bitsPerPixel.toNat) ∧
  ∀ s n, n = s.cfg.probeMode.xresVirtual.toNat * (s.cfg.multiplier * s.cfg.probeMode.yres.toNat)
      * bytesPerPixel s.cfg.probeMode.bitsPerPixel.toNat →
    (NoMemory n s →
      exec .sizerFixedInit s = .next { s with out := some (.error (.sizer .outOfMemory)) }) ∧
    ∀ h pa, n < 2 ^ 32 → s.allocReply = .grants h pa → regionFresh pa n s = true → s.seq = .idle →
      exec .sizerFixedInit s =
        .next { s with regs := { s.regs with frameBase := .holds pa }, bus := some (.write .frameBase pa),
                       buf := some ⟨h, pa, n⟩, out := some (.ok .unit) }

/-- The first step of `SET_MODE` (R247; that validator and sizer are one step, and the mode is kept for a commit in later
steps, is the model's choice, log 11): a request the validator accepts and the buffer can hold (or, under the fixed policy,
the validator's rule 5 covers) is kept for its commit, and nothing else changes; one that needs a larger buffer is kept
once the fresh region of the needed bytes is the active buffer, its base in `FRAME_BASE` and the previous buffer retired.
The allocator's answer is an input (log 14). -/
def Obligations.SetModeKeepsValidatedMode : Prop :=
  (∀ r s v h pa, validateMode s.cfg r s.curMode s.cfg.clockKhz.toNat none = .ok v → s.cfg.policy = .grow →
    bufferCapacity s < requiredBytes v → requiredBytes v < 2 ^ 32 → s.allocReply = .grants h pa →
    regionFresh pa (requiredBytes v) s = true → s.seq = .idle →
    exec (.setMode r) s =
      .next { s with regs := { s.regs with frameBase := .holds pa }, bus := some (.write .frameBase pa),
                     retired := s.retired ++ s.buf.toList, buf := some ⟨h, pa, requiredBytes v⟩,
                     setModeGap := some v }) ∧
  ∀ r s v, validateMode s.cfg r s.curMode s.cfg.clockKhz.toNat
      (match s.cfg.policy with | .fixed => some (bufferCapacity s) | .grow => none) = .ok v →
    (s.cfg.policy = .fixed ∨ requiredBytes v ≤ bufferCapacity s) →
    exec (.setMode r) s = .next { s with setModeGap := some v }

/-- A `SET_MODE` whose validation or allocation fails leaves everything as it was (R247, R335): a request the validator rejects
returns the validator's error, whatever the allocator would answer (R291); one it accepts and no memory can be had for
returns `OutOfMemory` (what counts as no memory: log 14); and its first step (log 11) returns no error otherwise than so,
without a change. -/
def Obligations.FailedSetModeChangesNothing : Prop :=
  (∀ r s e, validateMode s.cfg r s.curMode s.cfg.clockKhz.toNat
      (match s.cfg.policy with | .fixed => some (bufferCapacity s) | .grow => none) = .error e →
    exec (.setMode r) s = .next { s with out := some (.error (.mode e)) }) ∧
  (∀ r s v, validateMode s.cfg r s.curMode s.cfg.clockKhz.toNat none = .ok v → s.cfg.policy = .grow →
    bufferCapacity s < requiredBytes v → NoMemory (requiredBytes v) s →
    exec (.setMode r) s = .next { s with out := some (.error (.sizer .outOfMemory)) }) ∧
  ∀ r s t e, s.out = none → exec (.setMode r) s = .next t → t.out = some (.error e) →
    t = { s with out := some (.error e) }

/-- A `SET_MODE` runs to its end (R247), whatever the event context and the display engine do between its steps (R170):
validator, sizer, then the four writes of the commit; the validated mode with the achieved `pixclock` becomes current and
is returned; `t` is the committed timing of the validated mode under the instance's clock. Either no growth is needed and
the frame base is written, or a fresh region becomes the active buffer, its base in `FRAME_BASE`, and the previous buffer
is retired. That it takes five steps is the model's choice (log 11); the allocator's answer is an input (log 14). -/
def Obligations.SetModeRunsToCompletion : Prop :=
  ∀ s r v reply e0 e1 e2 e3 x buf retired, s.fault = none → s.seq = .idle → s.setModeGap = none → r.wf = true →
    validateMode s.cfg r s.curMode s.cfg.clockKhz.toNat
      (match s.cfg.policy with | .fixed => some (bufferCapacity s) | .grow => none) = .ok v →
    (s.cfg.overflowPolicy = .truncate ∨ FieldsFit s.cfg v s.cfg.clockKhz) →
    (((s.cfg.policy = .fixed ∨ requiredBytes v ≤ bufferCapacity s) ∧ isWritten s.regs.frameBase = true ∧
        x = s.regs ∧ buf = s.buf ∧ retired = s.retired) ∨
      ∃ h pa, s.cfg.policy = .grow ∧ bufferCapacity s < requiredBytes v ∧ requiredBytes v < 2 ^ 32 ∧
        reply = .grants h pa ∧ regionFresh pa (requiredBytes v) s = true ∧
        x = { s.regs with frameBase := .holds pa } ∧ buf = some ⟨h, pa, requiredBytes v⟩ ∧
        retired = s.retired ++ s.buf.toList) →
    (∀ a ∈ e0 ++ e1 ++ e2 ++ e3, a.sparesCfg = true) →
    s.schedule = .issue .cfg (encode (.setMode r)) reply :: e0 ++ .resume .cfg :: e1 ++ .resume .cfg :: e2
      ++ .resume .cfg :: e3 ++ [.resume .cfg] →
    ∃ t u, TimingOf s.cfg v s.cfg.clockKhz t ∧
      stepN (5 + (e0.length + e1.length + e2.length + e3.length)) s = .next u ∧ u.regs = committedRegs x t ∧
      u.curMode = { v with pixclock := t.pixclock } ∧ u.out = some (.ok (.mode { v with pixclock := t.pixclock })) ∧
      u.bus = some (.write .control t.ct) ∧ u.fault = none ∧ u.seq = .idle ∧ u.pend = none ∧ u.setModeGap = none ∧
      u.buf = buf ∧ u.retired = retired ∧ u.irqInited = s.irqInited ∧ u.schedule = [] ∧
      (e0 ++ e1 ++ e2 ++ e3 = [] → u.intStatus = s.intStatus ∧ u.scanBase = s.scanBase)

/-- The pure phase of the commit of a validated mode, under the same clock, returns no `TimingError`, and faults for no cause
but a field's range (R247, R282, the spec's derivation). The fourth write of the commit can still fault, while `FRAME_BASE`
is unwritten (R169). Where a field does not fit, under `overflow_policy = fault`, the step of the `SET_MODE` that starts its
commit (a step of its own: log 11) latches `EncodeRange` with the first such field and its value, ends the call, and
changes nothing else: no register is written, the current mode stays, and a buffer the first step made active is kept
(R247, R285, R291). -/
def Obligations.ValidatedModeNeverExceedsBus : Prop :=
  (∀ cfg r c k cap v, validateMode cfg r c k.toNat cap = .ok v →
    (∃ t, planCommit cfg v k = .ready t) ∨ ∃ n e, planCommit cfg v k = .fault (.encodeRange n e)) ∧
  ∀ s r c cap v rest, validateMode s.cfg r c s.cfg.clockKhz.toNat cap = .ok v → s.fault = none → s.seq = .idle →
    s.setModeGap = some v → s.schedule = .resume .cfg :: rest → s.cfg.overflowPolicy = .fault →
    ¬ FieldsFit s.cfg v s.cfg.clockKhz →
    ∃ n e, firstMisfit s.cfg v s.cfg.clockKhz = some (n, e) ∧ fits (n.field s.cfg.layout) e = false ∧ step s =
      .next { s with schedule := rest, bus := none, steps := s.steps + 1, setModeGap := none,
                     fault := some (.encodeRange n e), out := some (.fault (.encodeRange n e)) }

/-- `GET_MODE` (R252): command select 0xE; it returns the current mode and changes nothing. -/
def Obligations.GetModeReturnsCurrentMode : Prop :=
  (∀ ws, decode (.cmd 0xE#4 ws) = .ok .getMode) ∧
  ∀ s, exec .getMode s = .next { s with out := some (.ok (.mode s.curMode)) }

/-- The panel resolution never changes (R4, R240): every step keeps the current mode at the probe mode's `xres`, `yres` and
`xres_virtual` (that nothing changes them afterwards is the spec's decision D34). -/
def Obligations.ResolutionIsInvariant : Prop := ∀ s t, ResolutionFixed s → step s = .next t → ResolutionFixed t

/-- Every step keeps the buffers the host holds inside the 32-bit space and apart from each other (R35, R250; the bound of
the space is log 14). -/
def Obligations.BuffersStayDisjoint : Prop := ∀ s t, BuffersDisjoint s → step s = .next t → BuffersDisjoint t
end

