-- ==== Sys2Proof/Laws/Codec.lean ====
section
/-! SUPPORT. Operand records read back as they were written. -/

namespace Sys2Proof

theorem toNat_word {n : Nat} (h : fitsWord n = true) : (BitVec.ofNat 32 n).toNat = n := by
  simp only [fitsWord, decide_eq_true_eq] at h
  rw [BitVec.toNat_ofNat, Nat.mod_eq_of_lt h]

theorem takeLayout_words {l : Option ColorFieldLayout} (h : ∀ c, l = some c → c.wf = true) (rest : List Word) :
    takeLayout (layoutWords l ++ rest) = some (l, rest) := by
  cases l with
  | none => simp [takeLayout, layoutWords, List.replicate]
  | some c =>
    have hc := h c rfl
    obtain ⟨⟨ro, rl⟩, ⟨go, gl⟩, ⟨bo, bl⟩, ⟨ao, al⟩⟩ := c
    simp only [ColorFieldLayout.wf, BitField.wf, Bool.and_eq_true] at hc
    obtain ⟨⟨⟨⟨h1, h2⟩, h3, h4⟩, h5, h6⟩, h7, h8⟩ := hc
    simp only [takeLayout, layoutWords, BitField.words, List.cons_append, List.nil_append]
    simp [toNat_word h1, toNat_word h2, toNat_word h3, toNat_word h4, toNat_word h5, toNat_word h6, toNat_word h7,
      toNat_word h8]

theorem takeMode_words {m : DisplayMode} (h : m.wf = true) (rest : List Word) :
    takeMode (m.words ++ rest) = some (m, rest) := by
  have hl : ∀ c, m.layout = some c → c.wf = true := by
    intro c hc; simpa [DisplayMode.wf, hc] using h
  simp only [takeMode, DisplayMode.words, List.cons_append, List.nil_append, takeLayout_words hl]

theorem takeOptionWord_words (o : Option Word) : takeOptionWord (optionWords o) = some (o, []) := by
  cases o <;> simp [takeOptionWord, optionWords]

end Sys2Proof
end

