-- ==== Sys2Proof/Laws/Fields.lean ====
section
/-! SUPPORT. The bits of an inserted field, of a flag, and of an extracted field (00_scope.md R7). -/

namespace Sys2Proof.Machine

theorem getLsbD_ins (f : Field) (v n : Nat) :
    (ins f v).getLsbD n = (decide (n < 32) && decide (f.lsb ≤ n) && v.testBit (n - f.lsb)) := by
  unfold ins
  rw [BitVec.getLsbD_shiftLeft, BitVec.getLsbD_ofNat]
  by_cases h1 : n < 32 <;> by_cases h2 : f.lsb ≤ n <;> simp [h1, h2]
  · simp [show ¬ n < f.lsb by omega, show n - f.lsb < 32 by omega]

theorem getLsbD_flag (b : Nat) (c : Bool) (n : Nat) :
    (flag b c).getLsbD n = (c && decide (n = b) && decide (n < 32)) := by
  cases c <;> simp [flag, BitVec.getLsbD_shiftLeft]
  by_cases h1 : n < 32 <;> by_cases h2 : n = b <;> simp [h1, h2]
  omega

theorem testBit_ext (f : Field) (w : Word) (k : Nat) :
    (ext f w).testBit k = (decide (k < f.width) && w.getLsbD (f.lsb + k)) := by
  simp [ext, Nat.testBit_mod_two_pow, BitVec.getLsbD, Nat.testBit_shiftRight]

/-- A field whose bits are those of `v` extracts to `v`. -/
theorem ext_eq {f : Field} {w : Word} {v : Nat} (hv : v < 2 ^ f.width)
    (h : ∀ k, k < f.width → w.getLsbD (f.lsb + k) = v.testBit k) : ext f w = v := by
  apply Nat.eq_of_testBit_eq
  intro k
  rw [testBit_ext]
  by_cases hk : k < f.width
  · simp [hk, h k hk]
  · simp only [hk, decide_false, Bool.false_and]
    exact (Nat.testBit_lt_two_pow (lt_of_lt_of_le hv (Nat.pow_le_pow_right (by omega) (by omega)))).symm

theorem inWord_iff {f : Field} : f.inWord = true ↔ f.lsb + f.width ≤ 32 := decide_eq_true_iff

theorem inWord_ofBit_iff {b : Nat} : (Field.ofBit b).inWord = true ↔ b < 32 := inWord_iff

/-- An inserted field shows its own value in its own bits. -/
theorem getLsbD_ins_own {f : Field} (hw : f.inWord = true) (v : Nat) {k : Nat} (hk : k < f.width) :
    (ins f v).getLsbD (f.lsb + k) = v.testBit k := by
  simp only [Field.inWord, decide_eq_true_eq] at hw
  rw [getLsbD_ins]
  simp [show f.lsb + k < 32 by omega]

/-- An inserted field shows nothing outside its bits. -/
theorem getLsbD_ins_outside {f : Field} {v : Nat} (hv : v < 2 ^ f.width) {n : Nat}
    (hn : n < f.lsb ∨ f.lsb + f.width ≤ n) : (ins f v).getLsbD n = false := by
  rw [getLsbD_ins]
  rcases hn with h | h
  · simp [show ¬ f.lsb ≤ n by omega]
  · rw [Nat.testBit_lt_two_pow (lt_of_lt_of_le hv (Nat.pow_le_pow_right (by omega) (by omega : f.width ≤ n - f.lsb)))]
    simp

theorem apart_iff {f g : Field} : f.apart g = true ↔ f.lsb + f.width ≤ g.lsb ∨ g.lsb + g.width ≤ f.lsb := by
  simp [Field.apart]

/-- An inserted field shows nothing in the bits of a field apart from it. -/
theorem getLsbD_ins_apart {f g : Field} (h : f.apart g = true ∨ g.apart f = true) {v : Nat} (hv : v < 2 ^ g.width)
    {k : Nat} (hk : k < f.width) : (ins g v).getLsbD (f.lsb + k) = false := by
  rw [apart_iff, apart_iff] at h
  exact getLsbD_ins_outside hv (by omega)

/-- A flag shows nothing in the bits of a field apart from it. -/
theorem getLsbD_flag_apart {f : Field} {b : Nat} (h : f.apart (.ofBit b) = true ∨ (Field.ofBit b).apart f = true) (c : Bool)
    {k : Nat} (hk : k < f.width) : (flag b c).getLsbD (f.lsb + k) = false := by
  rw [apart_iff, apart_iff] at h
  simp only [Field.ofBit] at h
  rw [getLsbD_flag]
  simp only [Bool.and_eq_false_iff, decide_eq_false_iff_not]
  exact .inl (.inr (by omega))

/-! ### The range check -/

theorem fits_iff {f : Field} {e : Int} : fits f e = true ↔ 0 ≤ e ∧ e < 2 ^ f.width := by
  simp [fits]

/-- What the range check answers on a value that fits (R100). -/
theorem checked_of_fits {cfg : Config} {n : FieldName} {e : Int} (h : fits (n.field cfg.layout) e = true) :
    checked cfg n e = .ok e.toNat := by
  simp [checked, h]

/-- Everything the range check can answer (R100). -/
theorem checked_cases (cfg : Config) (n : FieldName) (e : Int) :
    (fits (n.field cfg.layout) e = true ∧ checked cfg n e = .ok e.toNat) ∨
    (fits (n.field cfg.layout) e = false ∧ cfg.overflowPolicy = .fault ∧ checked cfg n e = .error (.encodeRange n e)) ∨
    (fits (n.field cfg.layout) e = false ∧ cfg.overflowPolicy = .truncate ∧
      checked cfg n e = .ok (e % 2 ^ (n.field cfg.layout).width).toNat) := by
  unfold checked
  cases hf : fits (n.field cfg.layout) e <;> cases hp : cfg.overflowPolicy <;> simp [hf]

/-- Whatever the policy, the value the range check lets through fits its field. -/
theorem checked_lt {cfg : Config} {n : FieldName} {e : Int} {v : Nat} (h : checked cfg n e = .ok v) :
    v < 2 ^ (n.field cfg.layout).width := by
  have hp : (0 : Int) < 2 ^ (n.field cfg.layout).width := by positivity
  rcases checked_cases cfg n e with ⟨hf, hc⟩ | ⟨_, _, hc⟩ | ⟨_, _, hc⟩ <;> rw [hc] at h
  · cases h
    have hf' := fits_iff.mp hf
    zify
    rw [Int.toNat_of_nonneg hf'.1]
    exact hf'.2
  · cases h
  · cases h
    zify
    rw [Int.toNat_of_nonneg (Int.emod_nonneg _ hp.ne')]
    exact Int.emod_lt_of_pos _ hp

/-- Whatever the policy, the value the range check lets through is the encoded value modulo `2^width` (R100). -/
theorem checked_eq_emod {cfg : Config} {n : FieldName} {e : Int} {v : Nat} (h : checked cfg n e = .ok v) :
    v = (e % 2 ^ (n.field cfg.layout).width).toNat := by
  rcases checked_cases cfg n e with ⟨hf, hc⟩ | ⟨_, _, hc⟩ | ⟨_, _, hc⟩ <;> rw [hc] at h <;> cases h
  · have hf' := fits_iff.mp hf
    rw [Int.emod_eq_of_lt hf'.1 hf'.2]
  · rfl

/-- A value that fits is below the bound of its field. -/
theorem toNat_lt_of_fits {f : Field} {e : Int} (h : fits f e = true) : e.toNat < 2 ^ f.width := by
  have h' := fits_iff.mp h
  zify
  rw [Int.toNat_of_nonneg h'.1]
  exact h'.2

/-- The decoder's plus one undoes the encoder's minus one, on a value that fits (R97). -/
theorem minusOne_toNat_add_one {f : Field} {v : Nat} (h : fits f (minusOne v) = true) : (minusOne v).toNat + 1 = v := by
  have := (fits_iff.mp h).1
  unfold minusOne at *
  omega

/-! ### Well-formed layouts -/

/-- The parts of a well-formed layout (R90, R29). -/
theorem layout_wf_parts {l : Layout} (h : l.wf = true) :
    formatWf l.htimingFields = true ∧ formatWf l.vtimingFields = true ∧ formatWf l.clockPolarityFields = true ∧
      formatWf l.controlFields = true ∧ formatWf l.interruptFields = true ∧ l.divno.lsb = 0 ∧ l.bpp.width = 3 ∧
      l.endianLeLe < 2 ^ l.endian.width ∧ l.bppCode.wf = true := by
  simpa [Layout.wf, and_assoc] using h

/-- The fields of a well-formed format lie in the word, and apart from each other (R90). -/
theorem formatWf_cons {f : Field} {rest : List Field} (h : formatWf (f :: rest) = true) :
    f.inWord = true ∧ (∀ g ∈ rest, f.apart g = true) ∧ formatWf rest = true := by
  simpa [formatWf, and_assoc] using h

/-- The four fields of a word built from them extract to what was inserted (R7, R90). -/
theorem ext_of_four {a b c d : Field} (h : formatWf [a, b, c, d] = true) {va vb vc vd : Nat} (ha : va < 2 ^ a.width)
    (hb : vb < 2 ^ b.width) (hc : vc < 2 ^ c.width) (hd : vd < 2 ^ d.width) :
    let w := ins a va ||| ins b vb ||| ins c vc ||| ins d vd
    ext a w = va ∧ ext b w = vb ∧ ext c w = vc ∧ ext d w = vd := by
  simp only [formatWf, List.all_cons, List.all_nil, Bool.and_true, Bool.and_eq_true] at h
  obtain ⟨⟨ia, ab, ac, ad⟩, ⟨ib, bc, bd⟩, ⟨ic, cd⟩, id⟩ := h
  refine ⟨ext_eq ha fun k hk => ?_, ext_eq hb fun k hk => ?_, ext_eq hc fun k hk => ?_, ext_eq hd fun k hk => ?_⟩ <;>
    simp only [BitVec.getLsbD_or]
  · rw [getLsbD_ins_own ia _ hk, getLsbD_ins_apart (.inl ab) hb hk, getLsbD_ins_apart (.inl ac) hc hk,
      getLsbD_ins_apart (.inl ad) hd hk]
    simp
  · rw [getLsbD_ins_own ib _ hk, getLsbD_ins_apart (.inr ab) ha hk, getLsbD_ins_apart (.inl bc) hc hk,
      getLsbD_ins_apart (.inl bd) hd hk]
    simp
  · rw [getLsbD_ins_own ic _ hk, getLsbD_ins_apart (.inr ac) ha hk, getLsbD_ins_apart (.inr bc) hb hk,
      getLsbD_ins_apart (.inl cd) hd hk]
    simp
  · rw [getLsbD_ins_own id _ hk, getLsbD_ins_apart (.inr ad) ha hk, getLsbD_ins_apart (.inr bd) hb hk,
      getLsbD_ins_apart (.inr cd) hc hk]
    simp

end Sys2Proof.Machine
end

