-- ==== Sys2Proof/Laws/State.lean ====
section
/-! SUPPORT. What each named update of the state does to each field. -/

namespace Sys2Proof.Machine

variable (s : State)

/-! ### `finish` -/

@[simp] theorem finish_cfg (o : OpOutcome) : (finish o s).cfg = s.cfg := rfl
@[simp] theorem finish_regs (o : OpOutcome) : (finish o s).regs = s.regs := rfl
@[simp] theorem finish_intStatus (o : OpOutcome) : (finish o s).intStatus = s.intStatus := rfl
@[simp] theorem finish_seq (o : OpOutcome) : (finish o s).seq = s.seq := rfl
@[simp] theorem finish_pend (o : OpOutcome) : (finish o s).pend = s.pend := rfl
@[simp] theorem finish_ack (o : OpOutcome) : (finish o s).ack = s.ack := rfl
@[simp] theorem finish_fault (o : OpOutcome) : (finish o s).fault = s.fault := rfl
@[simp] theorem finish_refused (o : OpOutcome) : (finish o s).refused = s.refused := rfl
@[simp] theorem finish_curMode (o : OpOutcome) : (finish o s).curMode = s.curMode := rfl
@[simp] theorem finish_buf (o : OpOutcome) : (finish o s).buf = s.buf := rfl
@[simp] theorem finish_retired (o : OpOutcome) : (finish o s).retired = s.retired := rfl
@[simp] theorem finish_irqInited (o : OpOutcome) : (finish o s).irqInited = s.irqInited := rfl
@[simp] theorem finish_scanBase (o : OpOutcome) : (finish o s).scanBase = s.scanBase := rfl
@[simp] theorem finish_setModeGap (o : OpOutcome) : (finish o s).setModeGap = s.setModeGap := rfl
@[simp] theorem finish_out (o : OpOutcome) : (finish o s).out = some o := rfl
@[simp] theorem finish_bus (o : OpOutcome) : (finish o s).bus = s.bus := rfl
@[simp] theorem finish_schedule (o : OpOutcome) : (finish o s).schedule = s.schedule := rfl
@[simp] theorem finish_allocReply (o : OpOutcome) : (finish o s).allocReply = s.allocReply := rfl
@[simp] theorem finish_steps (o : OpOutcome) : (finish o s).steps = s.steps := rfl

/-! ### `raiseFault` -/

@[simp] theorem raiseFault_cfg (f : Fault) : (raiseFault f s).cfg = s.cfg := rfl
@[simp] theorem raiseFault_regs (f : Fault) : (raiseFault f s).regs = s.regs := rfl
@[simp] theorem raiseFault_intStatus (f : Fault) : (raiseFault f s).intStatus = s.intStatus := rfl
@[simp] theorem raiseFault_seq (f : Fault) : (raiseFault f s).seq = s.seq := rfl
@[simp] theorem raiseFault_pend (f : Fault) : (raiseFault f s).pend = s.pend := rfl
@[simp] theorem raiseFault_ack (f : Fault) : (raiseFault f s).ack = s.ack := rfl
@[simp] theorem raiseFault_fault (f : Fault) : (raiseFault f s).fault = some (s.fault.getD f) := rfl
@[simp] theorem raiseFault_refused (f : Fault) : (raiseFault f s).refused = s.refused := rfl
@[simp] theorem raiseFault_curMode (f : Fault) : (raiseFault f s).curMode = s.curMode := rfl
@[simp] theorem raiseFault_buf (f : Fault) : (raiseFault f s).buf = s.buf := rfl
@[simp] theorem raiseFault_retired (f : Fault) : (raiseFault f s).retired = s.retired := rfl
@[simp] theorem raiseFault_irqInited (f : Fault) : (raiseFault f s).irqInited = s.irqInited := rfl
@[simp] theorem raiseFault_scanBase (f : Fault) : (raiseFault f s).scanBase = s.scanBase := rfl
@[simp] theorem raiseFault_setModeGap (f : Fault) : (raiseFault f s).setModeGap = s.setModeGap := rfl
@[simp] theorem raiseFault_out (f : Fault) : (raiseFault f s).out = some (.fault f) := rfl
@[simp] theorem raiseFault_bus (f : Fault) : (raiseFault f s).bus = s.bus := rfl
@[simp] theorem raiseFault_schedule (f : Fault) : (raiseFault f s).schedule = s.schedule := rfl
@[simp] theorem raiseFault_allocReply (f : Fault) : (raiseFault f s).allocReply = s.allocReply := rfl
@[simp] theorem raiseFault_steps (f : Fault) : (raiseFault f s).steps = s.steps := rfl

/-! ### `refuse` -/

@[simp] theorem refuse_cfg (r : Refusal) : (refuse r s).cfg = s.cfg := rfl
@[simp] theorem refuse_regs (r : Refusal) : (refuse r s).regs = s.regs := rfl
@[simp] theorem refuse_intStatus (r : Refusal) : (refuse r s).intStatus = s.intStatus := rfl
@[simp] theorem refuse_seq (r : Refusal) : (refuse r s).seq = s.seq := rfl
@[simp] theorem refuse_pend (r : Refusal) : (refuse r s).pend = s.pend := rfl
@[simp] theorem refuse_ack (r : Refusal) : (refuse r s).ack = s.ack := rfl
@[simp] theorem refuse_fault (r : Refusal) : (refuse r s).fault = s.fault := rfl
@[simp] theorem refuse_refused (r : Refusal) : (refuse r s).refused = true := rfl
@[simp] theorem refuse_curMode (r : Refusal) : (refuse r s).curMode = s.curMode := rfl
@[simp] theorem refuse_buf (r : Refusal) : (refuse r s).buf = s.buf := rfl
@[simp] theorem refuse_retired (r : Refusal) : (refuse r s).retired = s.retired := rfl
@[simp] theorem refuse_irqInited (r : Refusal) : (refuse r s).irqInited = s.irqInited := rfl
@[simp] theorem refuse_scanBase (r : Refusal) : (refuse r s).scanBase = s.scanBase := rfl
@[simp] theorem refuse_setModeGap (r : Refusal) : (refuse r s).setModeGap = s.setModeGap := rfl
@[simp] theorem refuse_out (r : Refusal) : (refuse r s).out = some (.refuse r) := rfl
@[simp] theorem refuse_bus (r : Refusal) : (refuse r s).bus = s.bus := rfl
@[simp] theorem refuse_schedule (r : Refusal) : (refuse r s).schedule = s.schedule := rfl
@[simp] theorem refuse_allocReply (r : Refusal) : (refuse r s).allocReply = s.allocReply := rfl
@[simp] theorem refuse_steps (r : Refusal) : (refuse r s).steps = s.steps := rfl

/-! ### `storeReg` -/

@[simp] theorem storeReg_cfg (r : StoringReg) (v : Word) : (storeReg r v s).cfg = s.cfg := rfl
@[simp] theorem storeReg_regs (r : StoringReg) (v : Word) : (storeReg r v s).regs = setReg s.regs r v := rfl
@[simp] theorem storeReg_intStatus (r : StoringReg) (v : Word) : (storeReg r v s).intStatus = s.intStatus := rfl
@[simp] theorem storeReg_seq (r : StoringReg) (v : Word) : (storeReg r v s).seq = s.seq := rfl
@[simp] theorem storeReg_pend (r : StoringReg) (v : Word) : (storeReg r v s).pend = s.pend := rfl
@[simp] theorem storeReg_ack (r : StoringReg) (v : Word) : (storeReg r v s).ack = s.ack := rfl
@[simp] theorem storeReg_fault (r : StoringReg) (v : Word) : (storeReg r v s).fault = s.fault := rfl
@[simp] theorem storeReg_refused (r : StoringReg) (v : Word) : (storeReg r v s).refused = s.refused := rfl
@[simp] theorem storeReg_curMode (r : StoringReg) (v : Word) : (storeReg r v s).curMode = s.curMode := rfl
@[simp] theorem storeReg_buf (r : StoringReg) (v : Word) : (storeReg r v s).buf = s.buf := rfl
@[simp] theorem storeReg_retired (r : StoringReg) (v : Word) : (storeReg r v s).retired = s.retired := rfl
@[simp] theorem storeReg_irqInited (r : StoringReg) (v : Word) : (storeReg r v s).irqInited = s.irqInited := rfl
@[simp] theorem storeReg_scanBase (r : StoringReg) (v : Word) : (storeReg r v s).scanBase = s.scanBase := rfl
@[simp] theorem storeReg_setModeGap (r : StoringReg) (v : Word) : (storeReg r v s).setModeGap = s.setModeGap := rfl
@[simp] theorem storeReg_out (r : StoringReg) (v : Word) : (storeReg r v s).out = s.out := rfl
@[simp] theorem storeReg_bus (r : StoringReg) (v : Word) : (storeReg r v s).bus = some (.write r.reg v) := rfl
@[simp] theorem storeReg_schedule (r : StoringReg) (v : Word) : (storeReg r v s).schedule = s.schedule := rfl
@[simp] theorem storeReg_allocReply (r : StoringReg) (v : Word) : (storeReg r v s).allocReply = s.allocReply := rfl
@[simp] theorem storeReg_steps (r : StoringReg) (v : Word) : (storeReg r v s).steps = s.steps := rfl

/-! ### `clearStatus` -/

@[simp] theorem clearStatus_cfg (v : Word) : (clearStatus v s).cfg = s.cfg := rfl
@[simp] theorem clearStatus_regs (v : Word) : (clearStatus v s).regs = s.regs := rfl
@[simp] theorem clearStatus_intStatus (v : Word) : (clearStatus v s).intStatus = s.intStatus &&& ~~~v := rfl
@[simp] theorem clearStatus_seq (v : Word) : (clearStatus v s).seq = s.seq := rfl
@[simp] theorem clearStatus_pend (v : Word) : (clearStatus v s).pend = s.pend := rfl
@[simp] theorem clearStatus_ack (v : Word) : (clearStatus v s).ack = s.ack := rfl
@[simp] theorem clearStatus_fault (v : Word) : (clearStatus v s).fault = s.fault := rfl
@[simp] theorem clearStatus_refused (v : Word) : (clearStatus v s).refused = s.refused := rfl
@[simp] theorem clearStatus_curMode (v : Word) : (clearStatus v s).curMode = s.curMode := rfl
@[simp] theorem clearStatus_buf (v : Word) : (clearStatus v s).buf = s.buf := rfl
@[simp] theorem clearStatus_retired (v : Word) : (clearStatus v s).retired = s.retired := rfl
@[simp] theorem clearStatus_irqInited (v : Word) : (clearStatus v s).irqInited = s.irqInited := rfl
@[simp] theorem clearStatus_scanBase (v : Word) : (clearStatus v s).scanBase = s.scanBase := rfl
@[simp] theorem clearStatus_setModeGap (v : Word) : (clearStatus v s).setModeGap = s.setModeGap := rfl
@[simp] theorem clearStatus_out (v : Word) : (clearStatus v s).out = s.out := rfl
@[simp] theorem clearStatus_bus (v : Word) : (clearStatus v s).bus = some (.write .intClear v) := rfl
@[simp] theorem clearStatus_schedule (v : Word) : (clearStatus v s).schedule = s.schedule := rfl
@[simp] theorem clearStatus_allocReply (v : Word) : (clearStatus v s).allocReply = s.allocReply := rfl
@[simp] theorem clearStatus_steps (v : Word) : (clearStatus v s).steps = s.steps := rfl

/-! ### `readStatus` -/

@[simp] theorem readStatus_cfg : (readStatus s).cfg = s.cfg := rfl
@[simp] theorem readStatus_regs : (readStatus s).regs = s.regs := rfl
@[simp] theorem readStatus_intStatus : (readStatus s).intStatus = s.intStatus := rfl
@[simp] theorem readStatus_seq : (readStatus s).seq = s.seq := rfl
@[simp] theorem readStatus_pend : (readStatus s).pend = s.pend := rfl
@[simp] theorem readStatus_ack : (readStatus s).ack = s.ack := rfl
@[simp] theorem readStatus_fault : (readStatus s).fault = s.fault := rfl
@[simp] theorem readStatus_refused : (readStatus s).refused = s.refused := rfl
@[simp] theorem readStatus_curMode : (readStatus s).curMode = s.curMode := rfl
@[simp] theorem readStatus_buf : (readStatus s).buf = s.buf := rfl
@[simp] theorem readStatus_retired : (readStatus s).retired = s.retired := rfl
@[simp] theorem readStatus_irqInited : (readStatus s).irqInited = s.irqInited := rfl
@[simp] theorem readStatus_scanBase : (readStatus s).scanBase = s.scanBase := rfl
@[simp] theorem readStatus_setModeGap : (readStatus s).setModeGap = s.setModeGap := rfl
@[simp] theorem readStatus_out : (readStatus s).out = s.out := rfl
@[simp] theorem readStatus_bus : (readStatus s).bus = some (.read .intStatus s.intStatus) := rfl
@[simp] theorem readStatus_schedule : (readStatus s).schedule = s.schedule := rfl
@[simp] theorem readStatus_allocReply : (readStatus s).allocReply = s.allocReply := rfl
@[simp] theorem readStatus_steps : (readStatus s).steps = s.steps := rfl

/-! ### `beginStep` -/

@[simp] theorem beginStep_cfg (rest : List Action) : (beginStep rest s).cfg = s.cfg := rfl
@[simp] theorem beginStep_regs (rest : List Action) : (beginStep rest s).regs = s.regs := rfl
@[simp] theorem beginStep_intStatus (rest : List Action) : (beginStep rest s).intStatus = s.intStatus := rfl
@[simp] theorem beginStep_seq (rest : List Action) : (beginStep rest s).seq = s.seq := rfl
@[simp] theorem beginStep_pend (rest : List Action) : (beginStep rest s).pend = s.pend := rfl
@[simp] theorem beginStep_ack (rest : List Action) : (beginStep rest s).ack = s.ack := rfl
@[simp] theorem beginStep_fault (rest : List Action) : (beginStep rest s).fault = s.fault := rfl
@[simp] theorem beginStep_refused (rest : List Action) : (beginStep rest s).refused = s.refused := rfl
@[simp] theorem beginStep_curMode (rest : List Action) : (beginStep rest s).curMode = s.curMode := rfl
@[simp] theorem beginStep_buf (rest : List Action) : (beginStep rest s).buf = s.buf := rfl
@[simp] theorem beginStep_retired (rest : List Action) : (beginStep rest s).retired = s.retired := rfl
@[simp] theorem beginStep_irqInited (rest : List Action) : (beginStep rest s).irqInited = s.irqInited := rfl
@[simp] theorem beginStep_scanBase (rest : List Action) : (beginStep rest s).scanBase = s.scanBase := rfl
@[simp] theorem beginStep_setModeGap (rest : List Action) : (beginStep rest s).setModeGap = s.setModeGap := rfl
@[simp] theorem beginStep_out (rest : List Action) : (beginStep rest s).out = none := rfl
@[simp] theorem beginStep_bus (rest : List Action) : (beginStep rest s).bus = none := rfl
@[simp] theorem beginStep_schedule (rest : List Action) : (beginStep rest s).schedule = rest := rfl
@[simp] theorem beginStep_allocReply (rest : List Action) : (beginStep rest s).allocReply = s.allocReply := rfl
@[simp] theorem beginStep_steps (rest : List Action) : (beginStep rest s).steps = s.steps + 1 := rfl

/-! ### `raiseStatus` -/

@[simp] theorem raiseStatus_cfg (e : EventSet) : (raiseStatus e s).cfg = s.cfg := rfl
@[simp] theorem raiseStatus_regs (e : EventSet) : (raiseStatus e s).regs = s.regs := rfl
@[simp] theorem raiseStatus_intStatus (e : EventSet) : (raiseStatus e s).intStatus = s.intStatus ||| (EventSet.word s.cfg.layout e &&& shownMask s) := rfl
@[simp] theorem raiseStatus_seq (e : EventSet) : (raiseStatus e s).seq = s.seq := rfl
@[simp] theorem raiseStatus_pend (e : EventSet) : (raiseStatus e s).pend = s.pend := rfl
@[simp] theorem raiseStatus_ack (e : EventSet) : (raiseStatus e s).ack = s.ack := rfl
@[simp] theorem raiseStatus_fault (e : EventSet) : (raiseStatus e s).fault = s.fault := rfl
@[simp] theorem raiseStatus_refused (e : EventSet) : (raiseStatus e s).refused = s.refused := rfl
@[simp] theorem raiseStatus_curMode (e : EventSet) : (raiseStatus e s).curMode = s.curMode := rfl
@[simp] theorem raiseStatus_buf (e : EventSet) : (raiseStatus e s).buf = s.buf := rfl
@[simp] theorem raiseStatus_retired (e : EventSet) : (raiseStatus e s).retired = s.retired := rfl
@[simp] theorem raiseStatus_irqInited (e : EventSet) : (raiseStatus e s).irqInited = s.irqInited := rfl
@[simp] theorem raiseStatus_scanBase (e : EventSet) : (raiseStatus e s).scanBase = s.scanBase := rfl
@[simp] theorem raiseStatus_setModeGap (e : EventSet) : (raiseStatus e s).setModeGap = s.setModeGap := rfl
@[simp] theorem raiseStatus_out (e : EventSet) : (raiseStatus e s).out = s.out := rfl
@[simp] theorem raiseStatus_bus (e : EventSet) : (raiseStatus e s).bus = s.bus := rfl
@[simp] theorem raiseStatus_schedule (e : EventSet) : (raiseStatus e s).schedule = s.schedule := rfl
@[simp] theorem raiseStatus_allocReply (e : EventSet) : (raiseStatus e s).allocReply = s.allocReply := rfl
@[simp] theorem raiseStatus_steps (e : EventSet) : (raiseStatus e s).steps = s.steps := rfl

/-! ### `deDrawReserved` -/

@[simp] theorem deDrawReserved_cfg (w : Word) : (deDrawReserved w s).cfg = s.cfg := rfl
@[simp] theorem deDrawReserved_regs (w : Word) : (deDrawReserved w s).regs = s.regs := rfl
@[simp] theorem deDrawReserved_intStatus (w : Word) : (deDrawReserved w s).intStatus = (s.intStatus &&& eventMask s.cfg.layout) ||| (w &&& ~~~eventMask s.cfg.layout) := rfl
@[simp] theorem deDrawReserved_seq (w : Word) : (deDrawReserved w s).seq = s.seq := rfl
@[simp] theorem deDrawReserved_pend (w : Word) : (deDrawReserved w s).pend = s.pend := rfl
@[simp] theorem deDrawReserved_ack (w : Word) : (deDrawReserved w s).ack = s.ack := rfl
@[simp] theorem deDrawReserved_fault (w : Word) : (deDrawReserved w s).fault = s.fault := rfl
@[simp] theorem deDrawReserved_refused (w : Word) : (deDrawReserved w s).refused = s.refused := rfl
@[simp] theorem deDrawReserved_curMode (w : Word) : (deDrawReserved w s).curMode = s.curMode := rfl
@[simp] theorem deDrawReserved_buf (w : Word) : (deDrawReserved w s).buf = s.buf := rfl
@[simp] theorem deDrawReserved_retired (w : Word) : (deDrawReserved w s).retired = s.retired := rfl
@[simp] theorem deDrawReserved_irqInited (w : Word) : (deDrawReserved w s).irqInited = s.irqInited := rfl
@[simp] theorem deDrawReserved_scanBase (w : Word) : (deDrawReserved w s).scanBase = s.scanBase := rfl
@[simp] theorem deDrawReserved_setModeGap (w : Word) : (deDrawReserved w s).setModeGap = s.setModeGap := rfl
@[simp] theorem deDrawReserved_out (w : Word) : (deDrawReserved w s).out = s.out := rfl
@[simp] theorem deDrawReserved_bus (w : Word) : (deDrawReserved w s).bus = s.bus := rfl
@[simp] theorem deDrawReserved_schedule (w : Word) : (deDrawReserved w s).schedule = s.schedule := rfl
@[simp] theorem deDrawReserved_allocReply (w : Word) : (deDrawReserved w s).allocReply = s.allocReply := rfl
@[simp] theorem deDrawReserved_steps (w : Word) : (deDrawReserved w s).steps = s.steps := rfl

/-! ### `activate` -/

@[simp] theorem activate_cfg (h : Nat) (pa : Word) (n : Nat) (l : List Buffer) : (activate h pa n l s).cfg = s.cfg := rfl
@[simp] theorem activate_regs (h : Nat) (pa : Word) (n : Nat) (l : List Buffer) : (activate h pa n l s).regs = setReg s.regs .frameBase pa := rfl
@[simp] theorem activate_intStatus (h : Nat) (pa : Word) (n : Nat) (l : List Buffer) : (activate h pa n l s).intStatus = s.intStatus := rfl
@[simp] theorem activate_seq (h : Nat) (pa : Word) (n : Nat) (l : List Buffer) : (activate h pa n l s).seq = s.seq := rfl
@[simp] theorem activate_pend (h : Nat) (pa : Word) (n : Nat) (l : List Buffer) : (activate h pa n l s).pend = s.pend := rfl
@[simp] theorem activate_ack (h : Nat) (pa : Word) (n : Nat) (l : List Buffer) : (activate h pa n l s).ack = s.ack := rfl
@[simp] theorem activate_fault (h : Nat) (pa : Word) (n : Nat) (l : List Buffer) : (activate h pa n l s).fault = s.fault := rfl
@[simp] theorem activate_refused (h : Nat) (pa : Word) (n : Nat) (l : List Buffer) : (activate h pa n l s).refused = s.refused := rfl
@[simp] theorem activate_curMode (h : Nat) (pa : Word) (n : Nat) (l : List Buffer) : (activate h pa n l s).curMode = s.curMode := rfl
@[simp] theorem activate_buf (h : Nat) (pa : Word) (n : Nat) (l : List Buffer) : (activate h pa n l s).buf = some ⟨h, pa, n⟩ := rfl
@[simp] theorem activate_retired (h : Nat) (pa : Word) (n : Nat) (l : List Buffer) : (activate h pa n l s).retired = s.retired ++ l := rfl
@[simp] theorem activate_irqInited (h : Nat) (pa : Word) (n : Nat) (l : List Buffer) : (activate h pa n l s).irqInited = s.irqInited := rfl
@[simp] theorem activate_scanBase (h : Nat) (pa : Word) (n : Nat) (l : List Buffer) : (activate h pa n l s).scanBase = s.scanBase := rfl
@[simp] theorem activate_setModeGap (h : Nat) (pa : Word) (n : Nat) (l : List Buffer) : (activate h pa n l s).setModeGap = s.setModeGap := rfl
@[simp] theorem activate_out (h : Nat) (pa : Word) (n : Nat) (l : List Buffer) : (activate h pa n l s).out = s.out := rfl
@[simp] theorem activate_bus (h : Nat) (pa : Word) (n : Nat) (l : List Buffer) : (activate h pa n l s).bus = some (.write .frameBase pa) := rfl
@[simp] theorem activate_schedule (h : Nat) (pa : Word) (n : Nat) (l : List Buffer) : (activate h pa n l s).schedule = s.schedule := rfl
@[simp] theorem activate_allocReply (h : Nat) (pa : Word) (n : Nat) (l : List Buffer) : (activate h pa n l s).allocReply = s.allocReply := rfl
@[simp] theorem activate_steps (h : Nat) (pa : Word) (n : Nat) (l : List Buffer) : (activate h pa n l s).steps = s.steps := rfl

end Sys2Proof.Machine
end

