-- ==== Sys2Proof/Laws/Registers.lean ====
section
/-! SUPPORT. The laws of the register accessors, and of the operations that end a step. -/

namespace Sys2Proof.Machine

/-! ### Read after write -/

@[simp] theorem getReg_setReg_same (x : Regs) (r : StoringReg) (v : Word) : getReg (setReg x r v) r = .holds v := by
  cases r <;> rfl

theorem getReg_setReg_other (x : Regs) {r r' : StoringReg} (v : Word) (h : r' ≠ r) :
    getReg (setReg x r v) r' = getReg x r' := by
  cases r <;> cases r' <;> first | rfl | exact absurd rfl h

/-- What a register holds after reset (R42, R320). -/
@[simp] theorem getReg_resetRegs (x : ResetImage) (ws : StoringReg → Word) (r : StoringReg) :
    getReg (resetRegs x ws) r = resetCell (imageValue x r) (ws r) := by
  cases r <;> rfl

@[simp] theorem resetCell_some (w u : Word) : resetCell (some w) u = .holds w := rfl

@[simp] theorem resetCell_none (u : Word) : resetCell none u = .unwritten u := rfl

/-- Two register files with the same contents are equal. -/
theorem regs_eq_of_getReg {x y : Regs} (h : ∀ r, getReg x r = getReg y r) : x = y := by
  cases x; cases y
  simpa [getReg] using And.intro (h .htiming) ⟨h .vtiming, h .clockPolarity, h .frameBase, h .intEnable, h .control⟩

theorem setReg_eq_self {x : Regs} {r : StoringReg} {v : Word} (h : getReg x r = .holds v) : setReg x r v = x :=
  regs_eq_of_getReg fun r' => by
    by_cases hr : r' = r
    · subst hr; simp [h]
    · exact getReg_setReg_other x v hr

@[simp] theorem isWritten_holds (w : Word) : isWritten (.holds w) = true := rfl

theorem isWritten_iff {c : Stored} : isWritten c = true ↔ ∃ w, c = .holds w := by
  cases c <;> simp [isWritten]

theorem isWritten_eq_false_iff {c : Stored} : isWritten c = false ↔ ∃ w, c = .unwritten w := by
  cases c <;> simp [isWritten]

@[simp] theorem isWritten_unwritten (w : Word) : isWritten (.unwritten w) = false := rfl

@[simp] theorem word_holds (w : Word) : (Stored.holds w).word = w := rfl

@[simp] theorem word_unwritten (w : Word) : (Stored.unwritten w).word = w := rfl

theorem timingWritten_iff {x : Regs} : timingWritten x = true ↔
    isWritten x.htiming = true ∧ isWritten x.vtiming = true ∧ isWritten x.clockPolarity = true ∧
      isWritten x.frameBase = true := by
  simp only [timingWritten, Bool.and_eq_true, and_assoc]

/-! ### Ends of an operation -/

theorem endWith_ok (v : Value) (s : State) : endWith (.ok v) s = finish (.ok v) s := rfl
theorem endWith_error (e : OpError) (s : State) : endWith (.error e) s = finish (.error e) s := rfl
theorem endWith_fault (f : Fault) (s : State) : endWith (.fault f) s = raiseFault f s := rfl
theorem endWith_refuse (r : Refusal) (s : State) : endWith (.refuse r) s = refuse r s := rfl

/-- Ending an operation changes no field but the output, the latch and the mark. -/
theorem endWith_eq (o : OpOutcome) (s : State) :
    endWith o s = { s with fault := (endWith o s).fault, refused := (endWith o s).refused, out := some o } := by
  cases o <;> rfl

/-- A latched fault stays latched, whichever way an operation ends (R34). -/
theorem endWith_fault_sticky {o : OpOutcome} {s : State} {f : Fault} (h : s.fault = some f) :
    (endWith o s).fault = some f := by
  cases o <;> simp [endWith, h]

/-! ### Reads of storing registers -/

/-- Everything a read of a storing register can do (R139). -/
theorem readStoring_cases (r : StoringReg) (s : State) :
    (s.cfg.readback = .refuse ∧ readStoring r s = refuse (.readNotShown r) s) ∨
    (s.cfg.readback = .stored ∧ isWritten (getReg s.regs r) = false ∧ readStoring r s = raiseFault (.readUnwritten r) s) ∨
    (∃ w, s.cfg.readback = .stored ∧ getReg s.regs r = .holds w ∧
      readStoring r s = { s with bus := some (.read r.reg w), out := some (.ok (.word w)) }) := by
  unfold readStoring
  cases hb : s.cfg.readback with
  | refuse => simp
  | stored => cases hr : getReg s.regs r <;> simp [finish]

end Sys2Proof.Machine
end

