-- ==== Sys2Proof/Laws/Commit.lean ====
section
/-! SUPPORT. What the phases of a commit can do (41_timing_encoder.md R164 to R170). -/

namespace Sys2Proof.Machine

/-! ### Clock arithmetic -/

theorem ceilDiv_le_iff {a b c : Nat} (hb : 0 < b) : ceilDiv a b ≤ c ↔ a ≤ c * b := by
  unfold ceilDiv
  rw [Nat.div_le_iff_le_mul_add_pred hb, Nat.mul_comm]
  omega

theorem ceilDiv_pos_iff {a b : Nat} (hb : 0 < b) : 0 < ceilDiv a b ↔ 0 < a := by
  rw [← not_iff_not]
  simp only [Nat.not_lt]
  rw [ceilDiv_le_iff hb]
  omega

theorem ceilDiv_eq_zero_iff {a b : Nat} (hb : 0 < b) : ceilDiv a b = 0 ↔ a = 0 := by
  have := ceilDiv_pos_iff (a := a) hb
  omega

theorem pixRate_pos {p : Nat} (hp : 0 < p) : 0 < pixRate p := (ceilDiv_pos_iff hp).mpr (by norm_num)

theorem divCalc_eq_zero_iff {k p : Nat} (hp : 0 < p) : divCalc k p = 0 ↔ k = 0 := ceilDiv_eq_zero_iff (pixRate_pos hp)

theorem khzToPicos_lt (k : Nat) : khzToPicos k < 2 ^ 32 :=
  lt_of_le_of_lt (Nat.div_le_self _ _) (by norm_num)

@[simp] theorem toNat_trunc32_khz (k : Nat) : (trunc32 (khzToPicos k)).toNat = khzToPicos k := by
  rw [trunc32, BitVec.toNat_ofNat, Nat.mod_eq_of_lt (khzToPicos_lt k)]

theorem toNat_pos_of_ne {w : Word} (h : w ≠ 0#32) : 0 < w.toNat := by
  rcases Nat.eq_zero_or_pos w.toNat with h0 | h0
  · exact absurd (BitVec.eq_of_toNat_eq (by simpa using h0)) h
  · exact h0

/-! ### The pure phase -/

theorem encClockPolarity_of_fits {cfg : Config} {d : Nat} {f : Word}
    (h : fits cfg.layout.divno (minusOne d) = true) :
    encClockPolarity cfg d f = .ok (ins cfg.layout.divno (minusOne d).toNat ||| flag cfg.layout.adpen true
      ||| flag cfg.layout.ipc cfg.invertPixelClock ||| flag cfg.layout.ihs (!f.getLsbD 0)
      ||| flag cfg.layout.ivs (!f.getLsbD 1)) := by
  simp [encClockPolarity, checked_of_fits (n := .divno) h]

theorem encHtiming_of_fits {cfg : Config} {m : DisplayMode}
    (h1 : fits cfg.layout.ppl (sixteenths m.xres.toNat) = true) (h2 : fits cfg.layout.hw (minusOne m.hsyncLen.toNat) = true)
    (h3 : fits cfg.layout.hfp (minusOne m.rightMargin.toNat) = true)
    (h4 : fits cfg.layout.hbp (minusOne m.leftMargin.toNat) = true) :
    encHtiming cfg m = .ok (ins cfg.layout.ppl (sixteenths m.xres.toNat).toNat
      ||| ins cfg.layout.hw (minusOne m.hsyncLen.toNat).toNat ||| ins cfg.layout.hfp (minusOne m.rightMargin.toNat).toNat
      ||| ins cfg.layout.hbp (minusOne m.leftMargin.toNat).toNat) := by
  simp [encHtiming, checked_of_fits (n := .ppl) h1, checked_of_fits (n := .hw) h2, checked_of_fits (n := .hfp) h3,
    checked_of_fits (n := .hbp) h4]

theorem encVtiming_of_fits {cfg : Config} {m : DisplayMode}
    (h1 : fits cfg.layout.lpp (minusOne m.yres.toNat) = true) (h2 : fits cfg.layout.vw (minusOne m.vsyncLen.toNat) = true)
    (h3 : fits cfg.layout.vfp (plain m.lowerMargin.toNat) = true)
    (h4 : fits cfg.layout.vbp (plain m.upperMargin.toNat) = true) :
    encVtiming cfg m = .ok (ins cfg.layout.lpp (minusOne m.yres.toNat).toNat
      ||| ins cfg.layout.vw (minusOne m.vsyncLen.toNat).toNat ||| ins cfg.layout.vfp (plain m.lowerMargin.toNat).toNat
      ||| ins cfg.layout.vbp (plain m.upperMargin.toNat).toNat) := by
  simp [encVtiming, checked_of_fits (n := .lpp) h1, checked_of_fits (n := .vw) h2, checked_of_fits (n := .vfp) h3,
    checked_of_fits (n := .vbp) h4]

/-! ### The first field that does not fit -/

/-- A value that does not fit is a fault under `overflow_policy = fault` (R100). -/
theorem checked_of_misfit {cfg : Config} {n : FieldName} {e : Int} (hp : cfg.overflowPolicy = .fault)
    (h : fits (n.field cfg.layout) e = false) : checked cfg n e = .error (.encodeRange n e) := by
  simp [checked, h, hp]

/-- No field is in the way exactly when every field fits. -/
theorem firstMisfit_eq_none_iff {cfg : Config} {m : DisplayMode} {k : Word} :
    firstMisfit cfg m k = none ↔ FieldsFit cfg m k := by
  simp only [firstMisfit, encodedFields, List.find?_eq_none, List.mem_cons, List.not_mem_nil, or_false, forall_eq_or_imp,
    forall_eq, Bool.not_eq_true', Bool.not_eq_false, FieldName.field]
  exact ⟨fun ⟨a, b, c, d, e, f, g, h, i⟩ => ⟨a, b, c, d, e, f, g, h, i⟩,
    fun ⟨a, b, c, d, e, f, g, h, i⟩ => ⟨a, b, c, d, e, f, g, h, i⟩⟩

/-- The first field that does not fit decides the fault of the pure phase (R164 to R166, R169). -/
theorem commitWords_of_firstMisfit {cfg : Config} {m : DisplayMode} {k : Word} {n : FieldName} {e : Int}
    (hp : cfg.overflowPolicy = .fault) (h : firstMisfit cfg m k = some (n, e)) :
    fits (n.field cfg.layout) e = false ∧
      commitWords cfg m (divCalc k.toNat m.pixclock.toNat) = .error (.encodeRange n e) := by
  refine ⟨by simpa using List.find?_some h, ?_⟩
  unfold firstMisfit encodedFields at h
  simp only [List.find?_cons, List.find?_nil] at h
  repeat' split at h
  all_goals first | (cases h; done) | skip
  all_goals
    obtain ⟨rfl, rfl⟩ := Prod.mk.inj (Option.some.inj h)
    simp_all [commitWords, encClockPolarity, encHtiming, encVtiming, checked_of_fits, checked_of_misfit]

/-! ### What the encoders answer -/

/-- Under `overflow_policy = fault` the range check lets through only what fits (R100). -/
theorem fits_of_checked_ok {cfg : Config} {n : FieldName} {e : Int} {v : Nat} (h : checked cfg n e = .ok v)
    (hp : cfg.overflowPolicy = .fault) : fits (n.field cfg.layout) e = true := by
  rcases checked_cases cfg n e with ⟨h1, _⟩ | ⟨_, _, h2⟩ | ⟨_, h3, _⟩
  · exact h1
  · rw [h2] at h
    cases h
  · rw [hp] at h3
    cases h3

/-- The one way the range check fails (R100). -/
theorem checked_error {cfg : Config} {n : FieldName} {e : Int} {f : Fault} (h : checked cfg n e = .error f) :
    cfg.overflowPolicy = .fault ∧ fits (n.field cfg.layout) e = false ∧ f = .encodeRange n e := by
  rcases checked_cases cfg n e with ⟨_, h2⟩ | ⟨h1, h3, h2⟩ | ⟨_, _, h2⟩ <;> rw [h2] at h <;> cases h
  exact ⟨h3, h1, rfl⟩

/-- Under `overflow_policy = truncate` the range check lets every value through (R100). -/
theorem checked_truncate {cfg : Config} (hp : cfg.overflowPolicy = .truncate) (n : FieldName) (e : Int) :
    ∃ v, checked cfg n e = .ok v := by
  rcases checked_cases cfg n e with ⟨_, h⟩ | ⟨_, h, _⟩ | ⟨_, _, h⟩
  · exact ⟨_, h⟩
  · rw [hp] at h
    cases h
  · exact ⟨_, h⟩

/-- A fault of the range check, of some field on some value, under `overflow_policy = fault`. -/
def RangeFault (cfg : Config) (f : Fault) : Prop :=
  cfg.overflowPolicy = .fault ∧ ∃ n e, fits (FieldName.field cfg.layout n) e = false ∧ f = .encodeRange n e

theorem RangeFault.of_checked {cfg : Config} {n : FieldName} {e : Int} {f : Fault} (h : checked cfg n e = .error f) :
    RangeFault cfg f := by
  obtain ⟨h1, h2, h3⟩ := checked_error h
  exact ⟨h1, n, e, h2, h3⟩

/-- Everything `ENC.CLOCK_POLARITY` can answer (R164). -/
theorem encClockPolarity_cases (cfg : Config) (d : Nat) (s : Word) :
    (∃ v, checked cfg .divno (minusOne d) = .ok v ∧
      encClockPolarity cfg d s = .ok (ins cfg.layout.divno v ||| flag cfg.layout.adpen true
        ||| flag cfg.layout.ipc cfg.invertPixelClock ||| flag cfg.layout.ihs (!s.getLsbD 0)
        ||| flag cfg.layout.ivs (!s.getLsbD 1))) ∨
    (∃ f, RangeFault cfg f ∧ encClockPolarity cfg d s = .error f) := by
  unfold encClockPolarity
  cases h : checked cfg .divno (minusOne d) with
  | error f => exact .inr ⟨f, .of_checked h, rfl⟩
  | ok v => exact .inl ⟨v, rfl, rfl⟩

/-- Everything `ENC.HTIMING` can answer (R165). -/
theorem encHtiming_cases (cfg : Config) (m : DisplayMode) :
    (∃ a b c d, checked cfg .ppl (sixteenths m.xres.toNat) = .ok a ∧ checked cfg .hw (minusOne m.hsyncLen.toNat) = .ok b ∧
      checked cfg .hfp (minusOne m.rightMargin.toNat) = .ok c ∧ checked cfg .hbp (minusOne m.leftMargin.toNat) = .ok d ∧
      encHtiming cfg m = .ok (ins cfg.layout.ppl a ||| ins cfg.layout.hw b ||| ins cfg.layout.hfp c
        ||| ins cfg.layout.hbp d)) ∨
    (∃ f, RangeFault cfg f ∧ encHtiming cfg m = .error f) := by
  unfold encHtiming
  cases h1 : checked cfg .ppl (sixteenths m.xres.toNat) with
  | error f => exact .inr ⟨f, .of_checked h1, rfl⟩
  | ok a =>
    cases h2 : checked cfg .hw (minusOne m.hsyncLen.toNat) with
    | error f => exact .inr ⟨f, .of_checked h2, rfl⟩
    | ok b =>
      cases h3 : checked cfg .hfp (minusOne m.rightMargin.toNat) with
      | error f => exact .inr ⟨f, .of_checked h3, rfl⟩
      | ok c =>
        cases h4 : checked cfg .hbp (minusOne m.leftMargin.toNat) with
        | error f => exact .inr ⟨f, .of_checked h4, rfl⟩
        | ok d => exact .inl ⟨a, b, c, d, rfl, rfl, rfl, rfl, rfl⟩

/-- Everything `ENC.VTIMING` can answer (R166). -/
theorem encVtiming_cases (cfg : Config) (m : DisplayMode) :
    (∃ a b c d, checked cfg .lpp (minusOne m.yres.toNat) = .ok a ∧ checked cfg .vw (minusOne m.vsyncLen.toNat) = .ok b ∧
      checked cfg .vfp (plain m.lowerMargin.toNat) = .ok c ∧ checked cfg .vbp (plain m.upperMargin.toNat) = .ok d ∧
      encVtiming cfg m = .ok (ins cfg.layout.lpp a ||| ins cfg.layout.vw b ||| ins cfg.layout.vfp c
        ||| ins cfg.layout.vbp d)) ∨
    (∃ f, RangeFault cfg f ∧ encVtiming cfg m = .error f) := by
  unfold encVtiming
  cases h1 : checked cfg .lpp (minusOne m.yres.toNat) with
  | error f => exact .inr ⟨f, .of_checked h1, rfl⟩
  | ok a =>
    cases h2 : checked cfg .vw (minusOne m.vsyncLen.toNat) with
    | error f => exact .inr ⟨f, .of_checked h2, rfl⟩
    | ok b =>
      cases h3 : checked cfg .vfp (plain m.lowerMargin.toNat) with
      | error f => exact .inr ⟨f, .of_checked h3, rfl⟩
      | ok c =>
        cases h4 : checked cfg .vbp (plain m.upperMargin.toNat) with
        | error f => exact .inr ⟨f, .of_checked h4, rfl⟩
        | ok d => exact .inl ⟨a, b, c, d, rfl, rfl, rfl, rfl, rfl⟩

theorem bppCode_ok_iff {l : Layout} {b : Nat} : (∃ c, bppCode l b = .ok c) ↔ supportedDepth b := by
  constructor
  · rintro ⟨c, h⟩
    unfold bppCode at h
    split at h <;> first | (simp [supportedDepth]; done) | cases h
  · intro h
    simp only [supportedDepth, List.mem_cons, List.not_mem_nil, or_false] at h
    rcases h with rfl | rfl | rfl | rfl | rfl | rfl | rfl <;> exact ⟨_, rfl⟩

theorem bppCode_unsupported {l : Layout} {b : Nat} (h : ¬ supportedDepth b) :
    bppCode l b = .error (.contractViolation .unsupportedBpp) := by
  rw [← bppCode_ok_iff (l := l)] at h
  unfold bppCode at h ⊢
  split at h <;> first | rfl | exact absurd ⟨_, rfl⟩ h

theorem encControl_of_supported {l : Layout} {b : Nat} (h : supportedDepth b) : ∃ w, encControl l b = .ok w := by
  obtain ⟨c, hc⟩ := (bppCode_ok_iff (l := l)).mpr h
  unfold encControl
  rw [hc]
  exact ⟨_, rfl⟩

/-- The pure phase succeeds with these four words exactly when each encoder does (R169). -/
theorem commitWords_ok_iff {cfg : Config} {m : DisplayMode} {d : Nat} {cp ht vt ct : Word} :
    commitWords cfg m d = .ok (cp, ht, vt, ct) ↔
      encClockPolarity cfg d m.syncFlags = .ok cp ∧ encHtiming cfg m = .ok ht ∧ encVtiming cfg m = .ok vt ∧
        encControl cfg.layout m.bitsPerPixel.toNat = .ok ct := by
  unfold commitWords
  cases encClockPolarity cfg d m.syncFlags <;> cases encHtiming cfg m <;> cases encVtiming cfg m <;>
    cases encControl cfg.layout m.bitsPerPixel.toNat <;> simp

/-- The two ways the four words fail (R291): a value that does not fit, or else an unsupported depth. -/
theorem commitWords_error {cfg : Config} {m : DisplayMode} {d : Nat} {f : Fault} (h : commitWords cfg m d = .error f) :
    RangeFault cfg f ∨ (¬ supportedDepth m.bitsPerPixel.toNat ∧ f = .contractViolation .unsupportedBpp ∧
      ∃ cp ht vt, encClockPolarity cfg d m.syncFlags = .ok cp ∧ encHtiming cfg m = .ok ht ∧ encVtiming cfg m = .ok vt) := by
  unfold commitWords at h
  rcases encClockPolarity_cases cfg d m.syncFlags with ⟨v, _, h1⟩ | ⟨g, hg, h1⟩ <;> simp only [h1] at h
  · rcases encHtiming_cases cfg m with ⟨_, _, _, _, _, _, _, _, h2⟩ | ⟨g, hg, h2⟩ <;> simp only [h2] at h
    · rcases encVtiming_cases cfg m with ⟨_, _, _, _, _, _, _, _, h3⟩ | ⟨g, hg, h3⟩ <;> simp only [h3] at h
      · by_cases hd : supportedDepth m.bitsPerPixel.toNat
        · obtain ⟨w, hw⟩ := encControl_of_supported (l := cfg.layout) hd
          rw [hw] at h
          cases h
        · simp only [encControl, bppCode_unsupported hd] at h
          cases h
          exact .inr ⟨hd, rfl, _, _, _, h1, h2, h3⟩
      · cases h
        exact .inl hg
    · cases h
      exact .inl hg
  · cases h
    exact .inl hg

/-- Under `overflow_policy = fault`, words that are built at all have every field fitting (R100). -/
theorem fieldsFit_of_ok {cfg : Config} {m : DisplayMode} {k : Word} {cp ht vt : Word} (hp : cfg.overflowPolicy = .fault)
    (h1 : encClockPolarity cfg (divCalc k.toNat m.pixclock.toNat) m.syncFlags = .ok cp) (h2 : encHtiming cfg m = .ok ht)
    (h3 : encVtiming cfg m = .ok vt) : FieldsFit cfg m k := by
  rcases encClockPolarity_cases cfg (divCalc k.toNat m.pixclock.toNat) m.syncFlags with ⟨_, c1, _⟩ | ⟨_, _, c⟩
  · rcases encHtiming_cases cfg m with ⟨_, _, _, _, a1, a2, a3, a4, _⟩ | ⟨_, _, c⟩
    · rcases encVtiming_cases cfg m with ⟨_, _, _, _, b1, b2, b3, b4, _⟩ | ⟨_, _, c⟩
      · exact ⟨fits_of_checked_ok c1 hp, fits_of_checked_ok a1 hp, fits_of_checked_ok a2 hp, fits_of_checked_ok a3 hp,
          fits_of_checked_ok a4 hp, fits_of_checked_ok b1 hp, fits_of_checked_ok b2 hp, fits_of_checked_ok b3 hp,
          fits_of_checked_ok b4 hp⟩
      · rw [c] at h3
        cases h3
    · rw [c] at h2
      cases h2
  · rw [c] at h1
    cases h1

/-- Everything phase 0 can answer (R169): the two guards in order, then the words. -/
theorem planCommit_cases (cfg : Config) (m : DisplayMode) (k : Word) :
    (m.pixclock = 0#32 ∧ planCommit cfg m k = .fault (.contractViolation .pixclockZero)) ∨
    (m.pixclock ≠ 0#32 ∧ k = 0#32 ∧ planCommit cfg m k = .error .clockExceedsBus) ∨
    (∃ f, m.pixclock ≠ 0#32 ∧ k ≠ 0#32 ∧
      commitWords cfg m (divCalc k.toNat m.pixclock.toNat) = .error f ∧ planCommit cfg m k = .fault f) ∨
    (∃ t, m.pixclock ≠ 0#32 ∧ k ≠ 0#32 ∧ TimingOf cfg m k t ∧ planCommit cfg m k = .ready t) := by
  by_cases hp : m.pixclock = 0#32
  · exact .inl ⟨hp, by simp [planCommit, hp]⟩
  have hz := divCalc_eq_zero_iff (k := k.toNat) (toNat_pos_of_ne hp)
  by_cases hk : k = 0#32
  · refine .inr (.inl ⟨hp, hk, ?_⟩)
    have : divCalc k.toNat m.pixclock.toNat = 0 := hz.mpr (by simp [hk])
    simp [planCommit, hp, this]
  have hd : ¬ divCalc k.toNat m.pixclock.toNat = 0 := fun h => by
    have := toNat_pos_of_ne hk
    have := hz.mp h
    omega
  cases hw : commitWords cfg m (divCalc k.toNat m.pixclock.toNat) with
  | error f => exact .inr (.inr (.inl ⟨f, hp, hk, rfl, by simp [planCommit, hp, hd, hw]⟩))
  | ok q =>
    obtain ⟨cp, ht, vt, ct⟩ := q
    obtain ⟨h1, h2, h3, h4⟩ := commitWords_ok_iff.mp hw
    refine .inr (.inr (.inr ⟨_, hp, hk, ?_, by simp [planCommit, hp, hd, hw]; rfl⟩))
    exact ⟨rfl, rfl, toNat_trunc32_khz _, h1, h2, h3, h4⟩

/-- Under `overflow_policy = fault` phase 0 faults with the first field that does not fit, once the two guards are passed
(R169, R291). -/
theorem planCommit_of_misfit {cfg : Config} {m : DisplayMode} {k : Word} (hp : m.pixclock ≠ 0#32) (hk : k ≠ 0#32)
    (ho : cfg.overflowPolicy = .fault) (hf : ¬ FieldsFit cfg m k) :
    ∃ n e, firstMisfit cfg m k = some (n, e) ∧ fits (n.field cfg.layout) e = false ∧
      planCommit cfg m k = .fault (.encodeRange n e) := by
  cases hm : firstMisfit cfg m k with
  | none => exact absurd (firstMisfit_eq_none_iff.mp hm) hf
  | some x =>
    obtain ⟨n, e⟩ := x
    obtain ⟨h1, h2⟩ := commitWords_of_firstMisfit ho hm
    refine ⟨n, e, rfl, h1, ?_⟩
    rcases planCommit_cases cfg m k with ⟨h, _⟩ | ⟨_, h, _⟩ | ⟨f, _, _, he, h⟩ | ⟨t, _, _, ht, _⟩
    · exact absurd h hp
    · exact absurd h hk
    · rw [h2] at he
      cases he
      exact h
    · rw [commitWords_ok_iff.mpr ⟨ht.divider ▸ ht.cp, ht.ht, ht.vt, ht.ct⟩] at h2
      cases h2

/-- Committable operands pass phase 0 with the committed timing of the mode (R169). -/
theorem planCommit_of_committable {cfg : Config} {m : DisplayMode} {k : Word} (h : Committable cfg m k) :
    ∃ t, TimingOf cfg m k t ∧ planCommit cfg m k = .ready t := by
  obtain ⟨w, hw⟩ := encControl_of_supported (l := cfg.layout) h.depth
  rcases planCommit_cases cfg m k with ⟨hp, _⟩ | ⟨_, hk, _⟩ | ⟨f, _, _, he, _⟩ | ⟨t, _, _, ht, hr⟩
  · exact absurd hp h.pixclock
  · exact absurd hk h.clock
  · rcases commitWords_error he with ⟨hp, _⟩ | ⟨hd, _⟩
    · rcases h.fields with htr | hf
      · rw [hp] at htr
        cases htr
      · have hc := commitWords_ok_iff.mpr ⟨encClockPolarity_of_fits (f := m.syncFlags) hf.divno,
          encHtiming_of_fits hf.ppl hf.hw hf.hfp hf.hbp, encVtiming_of_fits hf.lpp hf.vw hf.vfp hf.vbp, hw⟩
        rw [hc] at he
        cases he
    · exact absurd h.depth hd
  · exact ⟨t, ht, hr⟩

/-! ### The steps of a commit -/

/-- Everything the first step of a commit can do (R169). -/
theorem startCommit_cases (v : Option DisplayMode) (m : DisplayMode) (k : Word) (s : State) :
    (s.seq ≠ .idle ∧ startCommit v m k s = refuse .commitInProgress s) ∨
    (∃ f, s.seq = .idle ∧ planCommit s.cfg m k = .fault f ∧ startCommit v m k s = raiseFault f s) ∨
    (∃ e, s.seq = .idle ∧ planCommit s.cfg m k = .error e ∧ startCommit v m k s = finish (.error (.timing e)) s) ∨
    (∃ t, s.seq = .idle ∧ planCommit s.cfg m k = .ready t ∧
      startCommit v m k s = { storeReg .clockPolarity t.cp s with seq := .c1, pend := some ⟨t, v⟩ }) := by
  unfold startCommit
  by_cases h : s.seq = .idle
  · cases hp : planCommit s.cfg m k with
    | fault f => exact .inr (.inl ⟨f, h, rfl, by simp [h]⟩)
    | error e => exact .inr (.inr (.inl ⟨e, h, rfl, by simp [h]⟩))
    | ready t => exact .inr (.inr (.inr ⟨t, h, rfl, by simp [h]⟩))
  · simp [h]

/-- Everything the last step of a commit can do (R136, R169, R247). -/
theorem endCommit_cases (p : Pend) (s : State) :
    (enableTooEarly p.timing.ct s = true ∧ endCommit p s = raiseFault .enableBeforeTiming s) ∨
    (enableTooEarly p.timing.ct s = false ∧ p.setMode = none ∧ endCommit p s =
      { storeReg .control p.timing.ct s with seq := .idle, pend := none, out := some (.ok (.timing p.timing)) }) ∨
    (∃ v, enableTooEarly p.timing.ct s = false ∧ p.setMode = some v ∧ endCommit p s =
      { storeReg .control p.timing.ct s with
        seq := .idle, pend := none, curMode := { v with pixclock := p.timing.pixclock },
        out := some (.ok (.mode { v with pixclock := p.timing.pixclock })) }) := by
  unfold endCommit
  cases h : enableTooEarly p.timing.ct s
  · cases hv : p.setMode <;> simp [finish]
  · simp

/-- Everything the continuation of a commit can do (R169). -/
theorem continueCommit_cases (s : State) :
    (continueCommit s = s) ∨
    (∃ p, s.seq = .c1 ∧ s.pend = some p ∧ continueCommit s = { storeReg .htiming p.timing.ht s with seq := .c2 }) ∨
    (∃ p, s.seq = .c2 ∧ s.pend = some p ∧ continueCommit s = { storeReg .vtiming p.timing.vt s with seq := .c3 }) ∨
    (∃ p, s.seq = .c3 ∧ s.pend = some p ∧ continueCommit s = endCommit p s) := by
  unfold continueCommit
  cases hq : s.seq <;> cases hp : s.pend <;> simp

end Sys2Proof.Machine
end

