-- ==== Sys2Proof/Laws/Events.lean ====
section
/-! SUPPORT. The bits of the interrupt word (10_state.md R26, R30; 60_exceptions.md R287), and the aligned address (10_state.md
R25). -/

namespace Sys2Proof.Machine

/-! ### The four event bits -/

/-- The four event bits of a well-formed layout lie in the word and differ (R90). -/
theorem event_bits {l : Layout} (h : l.wf = true) :
    (l.underrun < 32 ∧ l.nextBase < 32 ∧ l.vstatus < 32 ∧ l.busError < 32) ∧ l.underrun ≠ l.nextBase ∧
      l.underrun ≠ l.vstatus ∧ l.underrun ≠ l.busError ∧ l.nextBase ≠ l.vstatus ∧ l.nextBase ≠ l.busError ∧
      l.vstatus ≠ l.busError := by
  obtain ⟨_, _, _, _, w, _⟩ := layout_wf_parts h
  simp only [Layout.interruptFields, formatWf, List.all_cons, List.all_nil, Bool.and_true, Bool.and_eq_true, apart_iff,
    Field.ofBit] at w
  rw [inWord_iff, inWord_iff, inWord_iff, inWord_iff] at w
  simp only at w
  omega

theorem StatusEvent.bit_lt {l : Layout} (h : l.wf = true) (e : StatusEvent) : e.bit l < 32 := by
  obtain ⟨⟨h1, h2, h3, h4⟩, _⟩ := event_bits h
  cases e <;> assumption

theorem StatusEvent.bit_inj {l : Layout} (h : l.wf = true) {e f : StatusEvent} : e.bit l = f.bit l ↔ e = f := by
  obtain ⟨_, n1, n2, n3, n4, n5, n6⟩ := event_bits h
  cases e <;> cases f <;> simp [StatusEvent.bit, *, Ne.symm]

/-- The bits of a set of classes. -/
theorem getLsbD_eventWord (l : Layout) (S : EventSet) {n : Nat} (hn : n < 32) :
    (S.word l).getLsbD n = ((S.underrun && decide (n = l.underrun)) || (S.bufferBaseUpdated && decide (n = l.nextBase))
      || (S.verticalSync && decide (n = l.vstatus)) || (S.busError && decide (n = l.busError))) := by
  simp only [EventSet.word, BitVec.getLsbD_or, getLsbD_flag, hn, decide_true, Bool.and_true]

/-- A class shows in the word of a set exactly when it is in the set. -/
theorem getLsbD_eventWord_bit {l : Layout} (h : l.wf = true) (S : EventSet) (e : StatusEvent) :
    (S.word l).getLsbD (e.bit l) = S.has e := by
  rw [getLsbD_eventWord _ _ (e.bit_lt h)]
  obtain ⟨_, n1, n2, n3, n4, n5, n6⟩ := event_bits h
  cases e <;> simp [StatusEvent.bit, EventSet.has, *, Ne.symm]

/-- A set shows in no bit but its classes'. -/
theorem getLsbD_eventWord_other {l : Layout} {S : EventSet} {n : Nat} (hn : n < 32)
    (h : ∀ e : StatusEvent, n ≠ e.bit l) : (S.word l).getLsbD n = false := by
  have h1 := h .underrun
  have h2 := h .bufferBaseUpdated
  have h3 := h .verticalSync
  have h4 := h .busError
  simp only [StatusEvent.bit] at h1 h2 h3 h4
  simp [getLsbD_eventWord _ _ hn, h1, h2, h3, h4]

theorem getLsbD_eventMask_iff (l : Layout) {n : Nat} (hn : n < 32) :
    (eventMask l).getLsbD n = true ↔ ∃ e : StatusEvent, n = e.bit l := by
  rw [eventMask, getLsbD_eventWord _ _ hn]
  simp only [Bool.true_and, Bool.or_eq_true, decide_eq_true_eq]
  constructor
  · rintro (((h | h) | h) | h)
    · exact ⟨.underrun, h⟩
    · exact ⟨.bufferBaseUpdated, h⟩
    · exact ⟨.verticalSync, h⟩
    · exact ⟨.busError, h⟩
  · rintro ⟨e, h⟩
    cases e <;> simp only [StatusEvent.bit] at h <;> simp [h]

theorem word_ne_zero_iff {w : Word} : w ≠ 0#32 ↔ ∃ n, n < 32 ∧ w.getLsbD n = true := by
  constructor
  · intro h
    by_contra hc
    refine h (BitVec.eq_of_getLsbD_eq fun i hi => ?_)
    cases hb : w.getLsbD i
    · simp
    · exact absurd ⟨i, hi, hb⟩ hc
  · rintro ⟨n, _, h⟩ rfl
    simp at h

/-- An event decoded from a status word is one whose bit is set (R221). -/
@[simp] theorem decodeStatus_has (l : Layout) (w : Word) (e : StatusEvent) :
    (decodeStatus l w).has e = w.getLsbD (e.bit l) := by
  cases e <;> rfl

/-! ### Steps that raise events -/

theorem shownMask_of_not_masked {s : State} (h : s.cfg.statusMasked = false) : shownMask s = BitVec.allOnes 32 := by
  simp [shownMask, h]

theorem shownMask_of_masked {s : State} {m : Word} (h : s.cfg.statusMasked = true) (hm : s.regs.intEnable = .holds m) :
    shownMask s = m := by
  simp [shownMask, h, hm]

/-- Raising events sets bits and clears none (R287). -/
theorem getLsbD_raiseStatus (S : EventSet) (s : State) (n : Nat) :
    (raiseStatus S s).intStatus.getLsbD n =
      (s.intStatus.getLsbD n || ((S.word s.cfg.layout).getLsbD n && (shownMask s).getLsbD n)) := by
  simp only [raiseStatus, BitVec.getLsbD_or, BitVec.getLsbD_and]

/-- The draw of the reserved bits leaves the four classes' bits alone (log 10). -/
theorem getLsbD_deDrawReserved (w : Word) (s : State) (e : StatusEvent) (h : e.bit s.cfg.layout < 32) :
    (deDrawReserved w s).intStatus.getLsbD (e.bit s.cfg.layout) = s.intStatus.getLsbD (e.bit s.cfg.layout) := by
  have hm := (getLsbD_eventMask_iff s.cfg.layout h).mpr ⟨e, rfl⟩
  simp only [deDrawReserved, BitVec.getLsbD_or, BitVec.getLsbD_and, BitVec.getLsbD_not, hm, Bool.and_true, Bool.not_true,
    Bool.and_false, Bool.or_false]

/-- Everything a latch can do (R36): nothing, or a new scan base and NextBase raised. -/
theorem deLatch_cases (s : State) :
    (engineBase s = some s.scanBase ∧ deLatch s = s) ∨
    (∃ a, engineBase s ≠ some s.scanBase ∧ (engineBase s = some a ∨ engineBase s = none ∧ a = Config.freeLatch s.regs.frameBase.word s.steps) ∧
      deLatch s = raiseStatus EventSet.baseUpdated { s with scanBase := a }) := by
  unfold deLatch
  cases h : engineBase s with
  | none => simp
  | some a =>
    by_cases ha : s.scanBase = a
    · exact .inl ⟨by rw [ha], by simp [ha]⟩
    · exact .inr ⟨a, fun hc => ha (by simpa using hc.symm), .inl rfl, by simp [ha]⟩

/-! ### Aligned addresses -/

/-- Clearing the low `g` bits takes off the remainder by `2^g` (R66). -/
theorem toNat_alignDown (g : Nat) (a : Word) : (alignDown g a).toNat = a.toNat - a.toNat % 2 ^ g := by
  have key : (alignDown g a).toNat = a.toNat / 2 ^ g * 2 ^ g := by
    apply Nat.eq_of_testBit_eq
    intro i
    rw [← Nat.shiftLeft_eq, ← Nat.shiftRight_eq_div_pow, Nat.testBit_shiftLeft, Nat.testBit_shiftRight,
      BitVec.testBit_toNat, BitVec.testBit_toNat, alignDown, BitVec.getLsbD_and, BitVec.getLsbD_not,
      BitVec.getLsbD_ofNat, Nat.testBit_two_pow_sub_one]
    by_cases h2 : i < g
    · simp [h2]
    · rw [show g + (i - g) = i by omega]
      by_cases h1 : i < 32
      · simp [h1, h2, show g ≤ i by omega]
      · simp [BitVec.getLsbD_of_ge a i (by omega)]
  have := Nat.div_add_mod a.toNat (2 ^ g)
  rw [key, Nat.mul_comm]
  omega

/-- A line length reduced modulo `2^32` gives the same address (R200, log 28). -/
theorem panAddr_line_mod (g base line y : Nat) : panAddr g base (line % 2 ^ 32) y = panAddr g base line y := by
  unfold panAddr trunc32
  congr 1
  apply BitVec.eq_of_toNat_eq
  simp only [BitVec.toNat_ofNat]
  rw [Nat.add_mod, Nat.mul_mod, Nat.mod_mod, ← Nat.mul_mod, ← Nat.add_mod]

end Sys2Proof.Machine
end

