-- ==== Sys2Proof/Laws/Exec.lean ====
section
/-! SUPPORT. Everything an operation can do, said once: the effects of `exec`, and of the other steps. -/

namespace Sys2Proof.Machine

/-! ### The sizer and the validator -/

/-- `t` is `s` with a new active buffer, from a fresh region; `l` is what is retired (R245, R246, R250). -/
def Activated (l : List Buffer) (s t : State) : Prop :=
  ∃ h pa n, s.seq = .idle ∧ regionFresh pa n s = true ∧ n < 2 ^ 32 ∧ t = activate h pa n l s

theorem allocate_some {n : Nat} {s : State} {h : Nat} {pa : Word} (ha : allocate n s = some (h, pa)) :
    n < 2 ^ 32 ∧ s.allocReply = .grants h pa ∧ regionFresh pa n s = true := by
  unfold allocate at ha
  split at ha
  · cases ha
  · split at ha
    · cases ha
    · split at ha
      · cases ha
        exact ⟨by omega, ‹_›, ‹_›⟩
      · cases ha

/-- No memory: the allocator fails, or the size does not fit its operand, or the answer breaks the allocator's contract
(R243, R250). -/
theorem allocate_eq_none {n : Nat} {s : State} (h : NoMemory n s) : allocate n s = none := by
  unfold allocate
  rcases h with h | h | ⟨k, pa, h, hf⟩
  · simp only [h, ite_self]
  · rw [if_pos h]
  · simp [h, hf]

/-- A grant that keeps the allocator's contract (R250). -/
theorem allocate_eq_some {n : Nat} {s : State} {h : Nat} {pa : Word} (hn : n < 2 ^ 32)
    (hr : s.allocReply = .grants h pa) (hf : regionFresh pa n s = true) : allocate n s = some (h, pa) := by
  unfold allocate
  rw [if_neg (by omega)]
  simp only [hr, hf, if_true]

/-- Every supported depth has a colour layout, and no other depth (R242). -/
theorem supportedDepth_iff_colorLayout {bpp : Nat} {o : ColorOrder} : supportedDepth bpp ↔ colorLayout bpp o ≠ none := by
  constructor
  · intro h
    simp only [supportedDepth, List.mem_cons, List.not_mem_nil, or_false] at h
    rcases h with rfl | rfl | rfl | rfl | rfl | rfl | rfl <;> cases o <;> simp [colorLayout]
  · intro h
    by_contra hc
    simp only [supportedDepth, List.mem_cons, List.not_mem_nil, or_false, not_or] at hc
    apply h
    unfold colorLayout
    split <;> first | rfl | omega

/-- Everything `SIZER.ENSURE` can do (R245). -/
theorem ensureBuffer_cases (m : DisplayMode) (s : State) :
    ((s.cfg.policy = .fixed ∨ requiredBytes m ≤ bufferCapacity s) ∧ ensureBuffer m s = .ok s) ∨
    (∃ t, ensureBuffer m s = .ok t ∧ Activated s.buf.toList s t) ∨
    (∃ o, ensureBuffer m s = .error o ∧ (o = .error (.sizer .outOfMemory) ∨ o = .refuse .commitInProgress)) := by
  by_cases hc : s.cfg.policy = .fixed ∨ requiredBytes m ≤ bufferCapacity s
  · exact .inl ⟨hc, by simp [ensureBuffer, hc]⟩
  · cases ha : allocate (requiredBytes m) s with
    | none => exact .inr (.inr ⟨_, by simp [ensureBuffer, hc, ha], .inl rfl⟩)
    | some q =>
      obtain ⟨h, pa⟩ := q
      obtain ⟨h1, -, h3⟩ := allocate_some ha
      by_cases hs : s.seq = .idle
      · exact .inr (.inl ⟨_, by simp [ensureBuffer, hc, ha, hs], h, pa, _, hs, h3, h1, rfl⟩)
      · exact .inr (.inr ⟨_, by simp [ensureBuffer, hc, ha, hs], .inr rfl⟩)

/-- A validated mode is the request with a colour layout, and keeps the current resolution (R240, R251). -/
theorem validateMode_ok {cfg : Config} {r c v : DisplayMode} {k : Nat} {cap : Option Nat}
    (h : validateMode cfg r c k cap = .ok v) :
    r.pixclock ≠ 0#32 ∧ pixRate r.pixclock.toNat * bytesPerPixel r.bitsPerPixel.toNat ≤ k ∧ SameResolution v c ∧
      r.yres.toNat ≤ r.yresVirtual.toNat ∧
      ∃ l, colorLayout r.bitsPerPixel.toNat cfg.colorOrder = some l ∧ v = { r with layout := some l } := by
  unfold validateMode at h
  split at h
  · cases h
  rename_i h1
  split at h
  · cases h
  rename_i h2
  split at h
  · cases h
  rename_i h3
  split at h
  · cases h
  rename_i h4
  split at h
  · cases h
  split at h
  · cases h
  · rename_i l hl
    cases h
    simp only [not_or, not_not] at h3 h4
    exact ⟨h1, by omega, ⟨h3.1, h3.2.1, h3.2.2⟩, by omega, l, hl, rfl⟩

/-- A validated mode has a supported depth, and its clock is not 0 (R240, R247). -/
theorem validateMode_ok_depth {cfg : Config} {r c v : DisplayMode} {k : Nat} {cap : Option Nat}
    (h : validateMode cfg r c k cap = .ok v) : supportedDepth v.bitsPerPixel.toNat ∧ v.pixclock ≠ 0#32 ∧ 0 < k := by
  obtain ⟨h1, h2, -, -, l, hl, rfl⟩ := validateMode_ok h
  have hd := (supportedDepth_iff_colorLayout (bpp := r.bitsPerPixel.toNat) (o := cfg.colorOrder)).mpr (by simp [hl])
  refine ⟨hd, h1, ?_⟩
  have hb : 0 < bytesPerPixel r.bitsPerPixel.toNat := by
    refine (ceilDiv_pos_iff (by omega)).mpr (Nat.pos_of_ne_zero fun h0 => ?_)
    rw [h0] at hd
    simp [supportedDepth] at hd
  have := Nat.mul_pos (pixRate_pos (toNat_pos_of_ne h1)) hb
  omega

/-! ### The effects of an operation -/

/-- What an operation can do to the state, one constructor per kind of effect. -/
inductive Effect (i : Instr) (s : State) : State → Prop where
  /-- It ends without a transaction: a result, an error, a fault or a refusal. -/
  | ends (o : OpOutcome) : Effect i s (endWith o s)
  /-- The configuration context stores a word in one register. -/
  | stores (r : StoringReg) (v : Word) (o : Value) (h : owner i = .cfg) : Effect i s (finish (.ok o) (storeReg r v s))
  /-- `IRQ.INIT`. -/
  | masks (h : owner i = .cfg) :
      Effect i s (finish (.ok .unit) { storeReg .intEnable (intEnableInit s.cfg.layout) s with irqInited := true })
  /-- `WR.INT_CLEAR`. -/
  | clears (v : Word) (h : owner i = .evt) : Effect i s (finish (.ok .unit) (clearStatus v s))
  /-- `RD.INT_STATUS`. -/
  | readsStatus (h : owner i = .evt) : Effect i s (finish (.ok (.word s.intStatus)) (readStatus s))
  /-- A read of a storing register that returns its word. -/
  | readsStored (r : StoringReg) (w : Word) (h : getReg s.regs r = .holds w) :
      Effect i s { s with bus := some (.read r.reg w), out := some (.ok (.word w)) }
  /-- The read step of a poll. -/
  | polls (h : owner i = .evt) : Effect i s (startPoll s)
  /-- The pure phase and first write of a commit. -/
  | commits (m : DisplayMode) (k : Word) (h : owner i = .cfg) : Effect i s (startCommit none m k s)
  /-- The sizer makes a new buffer active. -/
  | sizes (l : List Buffer) (t : State) (h : owner i = .cfg) (ha : Activated l s t) (hl : l = [] ∨ l = s.buf.toList) :
      Effect i s (finish (.ok .unit) t)
  /-- `SET_MODE` up to its commit: validated, and a buffer large enough held. -/
  | setsMode (v : DisplayMode) (t : State) (h : owner i = .cfg) (hv : SameResolution v s.curMode)
      (ht : t = s ∨ Activated s.buf.toList s t) : Effect i s { t with setModeGap := some v }

theorem effect_readStoring (i : Instr) (r : StoringReg) (s : State) : Effect i s (readStoring r s) := by
  rcases readStoring_cases r s with ⟨_, h⟩ | ⟨_, _, h⟩ | ⟨w, _, hw, h⟩ <;> rw [h]
  · exact .ends (.refuse _)
  · exact .ends (.fault _)
  · exact .readsStored r w hw

theorem effect_moveBase {i : Instr} (hi : owner i = .cfg) (a : Word) (o : Value) (s : State) :
    Effect i s (moveBase a o s) := by
  unfold moveBase
  split
  · exact .stores .frameBase a o hi
  · exact .ends (.refuse _)

/-- Every operation answers a next state, and it is one of these effects. -/
theorem exec_effect (i : Instr) (s : State) : ∃ t, exec i s = .next t ∧ Effect i s t := by
  cases i with
  | wrHtiming v => exact ⟨_, rfl, .stores _ _ _ rfl⟩
  | wrVtiming v => exact ⟨_, rfl, .stores _ _ _ rfl⟩
  | wrClockPolarity v => exact ⟨_, rfl, .stores _ _ _ rfl⟩
  | wrFrameBase v => exact ⟨_, rfl, .stores _ _ _ rfl⟩
  | wrIntEnable v => exact ⟨_, rfl, .stores _ _ _ rfl⟩
  | wrControl v =>
    by_cases h : enableTooEarly v s = true
    · exact ⟨_, by simp [exec, execWrControl, h]; rfl, .ends (.fault .enableBeforeTiming)⟩
    · exact ⟨_, by simp [exec, execWrControl, h], .stores .control v .unit rfl⟩
  | wrIntClear v => exact ⟨_, rfl, .clears v rfl⟩
  | rdIntStatus => exact ⟨_, rfl, .readsStatus rfl⟩
  | rdHtiming => exact ⟨_, rfl, effect_readStoring _ _ _⟩
  | rdVtiming => exact ⟨_, rfl, effect_readStoring _ _ _⟩
  | rdClockPolarity => exact ⟨_, rfl, effect_readStoring _ _ _⟩
  | rdFrameBase => exact ⟨_, rfl, effect_readStoring _ _ _⟩
  | rdIntEnable => exact ⟨_, rfl, effect_readStoring _ _ _⟩
  | rdControl => exact ⟨_, rfl, effect_readStoring _ _ _⟩
  | wrIntStatus v => exact ⟨_, rfl, .ends (.refuse _)⟩
  | rdIntClear => exact ⟨_, rfl, .ends (.refuse _)⟩
  | irqInit =>
    by_cases h : s.seq = .idle
    · exact ⟨_, by simp [exec, execIrqInit, h], .masks rfl⟩
    · exact ⟨_, by simp [exec, execIrqInit, h]; rfl, .ends (.refuse .commitInProgress)⟩
  | commit m k => exact ⟨_, rfl, .commits m k rfl⟩
  | pan b l y => exact ⟨_, rfl, effect_moveBase rfl _ _ _⟩
  | setbase b => exact ⟨_, rfl, effect_moveBase rfl _ _ _⟩
  | pollAck => exact ⟨_, rfl, .polls rfl⟩
  | pollEvents => exact ⟨_, rfl, .polls rfl⟩
  | validate r c k cap =>
    cases h : validateMode s.cfg r c k.toNat (cap.map BitVec.toNat) with
    | error e => exact ⟨_, by simp only [exec, execValidate, h]; rfl, .ends (.error (.mode e))⟩
    | ok v => exact ⟨_, by simp only [exec, execValidate, h]; rfl, .ends (.ok (.mode v))⟩
  | sizerEnsure m =>
    rcases ensureBuffer_cases m s with ⟨_, h⟩ | ⟨t, h, ha⟩ | ⟨o, h, _⟩
    · exact ⟨_, by simp only [exec, execSizerEnsure, h]; rfl, .ends (.ok .unit)⟩
    · exact ⟨_, by simp only [exec, execSizerEnsure, h], .sizes _ t rfl ha (.inr rfl)⟩
    · exact ⟨_, by simp only [exec, execSizerEnsure, h], .ends o⟩
  | sizerFixedInit =>
    cases ha : allocate (fixedBytes s.cfg) s with
    | none => exact ⟨_, by simp only [exec, execSizerFixedInit, ha]; rfl, .ends (.error (.sizer .outOfMemory))⟩
    | some q =>
      obtain ⟨h, pa⟩ := q
      obtain ⟨h1, -, h3⟩ := allocate_some ha
      by_cases hs : s.seq = .idle
      · exact ⟨_, by simp [exec, execSizerFixedInit, ha, hs], .sizes [] _ rfl ⟨h, pa, _, hs, h3, h1, rfl⟩ (.inl rfl)⟩
      · exact ⟨_, by simp [exec, execSizerFixedInit, ha, hs]; rfl, .ends (.refuse .commitInProgress)⟩
  | setMode r =>
    cases h : validateMode s.cfg r s.curMode s.cfg.clockKhz.toNat (offeredCapacity s) with
    | error e => exact ⟨_, by simp only [exec, execSetMode, h]; rfl, .ends (.error (.mode e))⟩
    | ok v =>
      have hv := (validateMode_ok h).2.2.1
      rcases ensureBuffer_cases v s with ⟨_, he⟩ | ⟨t, he, ha⟩ | ⟨o, he, _⟩
      · exact ⟨_, by simp only [exec, execSetMode, h, he], .setsMode v s rfl hv (.inl rfl)⟩
      · exact ⟨_, by simp only [exec, execSetMode, h, he], .setsMode v t rfl hv (.inr ha)⟩
      · exact ⟨_, by simp only [exec, execSetMode, h, he], .ends o⟩
  | panY y =>
    cases hb : s.buf with
    | none => exact ⟨_, by simp only [exec, execPanY, hb]; rfl, .ends (.error (.pan .noBuffer))⟩
    | some b =>
      by_cases hy : s.curMode.yresVirtual.toNat < y.toNat + s.curMode.yres.toNat
      · exact ⟨_, by simp only [exec, execPanY, hb, hy, if_true]; rfl, .ends (.error (.pan .outOfRange))⟩
      · exact ⟨_, by simp only [exec, execPanY, hb, hy, if_false]; rfl, effect_moveBase rfl _ _ _⟩
  | getMode => exact ⟨_, rfl, .ends (.ok (.mode s.curMode))⟩

/-- Everything `exec` can do when it answers a next state. -/
theorem exec_next {i : Instr} {s t : State} (h : exec i s = .next t) : Effect i s t := by
  obtain ⟨u, hu, he⟩ := exec_effect i s
  rw [hu] at h
  cases h
  exact he

/-! ### The other steps -/

/-- Everything the read step of a poll can do (R222). -/
theorem startPoll_cases (s : State) :
    (s.ack = .none ∧ startPoll s = { readStatus s with ack := .pending s.intStatus }) ∨
    (∃ w, s.ack = .pending w ∧ startPoll s = refuse .pollInProgress s) := by
  unfold startPoll
  cases s.ack <;> simp

/-- Everything the acknowledge step of a poll can do (R222). -/
theorem continuePoll_cases (s : State) :
    (s.ack = .none ∧ continuePoll s = s) ∨
    (∃ w, s.ack = .pending w ∧ continuePoll s =
      finish (.ok (.events (decodeStatus s.cfg.layout w))) { clearStatus w s with ack := .none }) := by
  unfold continuePoll
  cases s.ack <;> simp

/-- A step of the display engine changes `INT_STATUS` and `scan_base` alone (R295). -/
theorem perform_engine {a : Action} (ha : a.ofEngine = true) (s : State) :
    ∃ t, perform a s = .next t ∧ t = { s with intStatus := t.intStatus, scanBase := t.scanBase } := by
  cases a with
  | raise e => exact ⟨_, rfl, rfl⟩
  | scan => exact ⟨_, rfl, rfl⟩
  | drawReserved w => exact ⟨_, rfl, rfl⟩
  | latch =>
    refine ⟨_, rfl, ?_⟩
    unfold deLatch
    split
    · split <;> rfl
    · rfl
  | issue _ _ _ => cases ha
  | resume _ => cases ha
  | free _ => cases ha

/-- Everything the issue of a request can do: a refusal by the decoder or the gate, or the operation itself. -/
theorem issue_cases (a : Agent) (c : Code) (reply : AllocReply) (s : State) :
    (∃ r, decode c = .error r ∧ issue a c reply s = rejected r s) ∨
    (∃ i r, decode c = .ok i ∧ gate a i s = some r ∧ issue a c reply s = .next (refuse r s)) ∨
    (∃ i, decode c = .ok i ∧ gate a i s = none ∧ issue a c reply s = exec i { s with allocReply := reply }) := by
  unfold issue
  cases hd : decode c with
  | error r => exact .inl ⟨r, rfl, rfl⟩
  | ok i =>
    cases hg : gate a i s with
    | some r => exact .inr (.inl ⟨i, r, rfl, hg, by simp [hg]⟩)
    | none => exact .inr (.inr ⟨i, rfl, hg, by simp [hg]⟩)

theorem gate_none_iff {a : Agent} {i : Instr} {s : State} :
    gate a i s = none ↔ a = (owner i).agent ∧ ¬ (owner i = .cfg ∧ cfgBusy s = true) := by
  unfold gate
  split
  · simp_all
  · split <;> simp_all

theorem cfgBusy_eq_false_iff {s : State} : cfgBusy s = false ↔ s.seq = .idle ∧ s.setModeGap = none := by
  simp [cfgBusy]

/-- Everything a step can do: the latch stops it, nothing is scheduled, or the head of the schedule is performed. -/
theorem step_cases (s : State) :
    (∃ f, s.fault = some f ∧ step s = .fault f) ∨
    (s.fault = none ∧ s.schedule = [] ∧ step s = .next (beginStep [] s)) ∨
    (∃ a rest, s.fault = none ∧ s.schedule = a :: rest ∧ step s = perform a (beginStep rest s)) := by
  unfold step
  cases hf : s.fault with
  | some f => exact .inl ⟨f, rfl, rfl⟩
  | none =>
    cases hs : s.schedule with
    | nil => exact .inr (.inl ⟨rfl, rfl, rfl⟩)
    | cons a rest => exact .inr (.inr ⟨a, rest, rfl, rfl, rfl⟩)

/-- Everything a step that goes on can do. -/
theorem step_next {s t : State} (h : step s = .next t) :
    s.fault = none ∧ ((s.schedule = [] ∧ t = beginStep [] s) ∨
      ∃ a rest, s.schedule = a :: rest ∧ perform a (beginStep rest s) = .next t) := by
  rcases step_cases s with ⟨f, _, h'⟩ | ⟨hf, hs, h'⟩ | ⟨a, rest, hf, hs, h'⟩ <;> rw [h'] at h
  · cases h
  · cases h
    exact ⟨hf, .inl ⟨hs, rfl⟩⟩
  · exact ⟨hf, .inr ⟨a, rest, hs, h⟩⟩

/-- Everything the next step of the configuration context's call can do (R169, R247). -/
theorem continueCfg_cases (s : State) :
    (∃ v, s.setModeGap = some v ∧
      continueCfg s = startCommit (some v) v s.cfg.clockKhz { s with setModeGap := none }) ∨
    (s.setModeGap = none ∧ continueCfg s = continueCommit s) := by
  unfold continueCfg
  cases h : s.setModeGap <;> simp

/-- Everything the release of a retired buffer can do (R325). -/
theorem hostFree_cases (k : Nat) (s : State) :
    (s.retired[k]? = none ∧ hostFree k s = .next s) ∨
    (∃ b, s.retired[k]? = some b ∧ b.contains s.scanBase = false ∧
      hostFree k s = .next { s with retired := s.retired.eraseIdx k }) ∨
    (∃ b, s.retired[k]? = some b ∧ b.contains s.scanBase = true ∧ hostFree k s = .refused .graceNotOver) := by
  unfold hostFree
  cases h : s.retired[k]? with
  | none => simp
  | some b => cases hb : b.contains s.scanBase <;> simp [graceOver, hb]

/-! ### Runs -/

theorem stepN_add (m n : Nat) (s : State) :
    stepN (m + n) s = match stepN m s with
      | .next t => stepN n t
      | .fault f => .fault f
      | .refused r => .refused r := by
  induction m generalizing s with
  | zero => simp [stepN]
  | succ m ih =>
    rw [Nat.succ_add]
    simp only [stepN]
    cases step s with
    | next t => exact ih t
    | fault f => rfl
    | refused r => rfl

/-- Two runs that both go on join into one. -/
theorem stepN_trans {m n : Nat} {s t u : State} (h1 : stepN m s = .next t) (h2 : stepN n t = .next u) :
    stepN (m + n) s = .next u := by
  rw [stepN_add, h1]
  exact h2

end Sys2Proof.Machine
end

