-- ==== Sys2Proof/Laws/PerInstr.lean ====
section
/-! SUPPORT. Statements made once per operation. Family `RoundTrip`: the decoder reads back what the encoder wrote. -/

namespace Sys2Proof.Laws.RoundTrip

/-- A well-formed operation decodes from its own encoding. -/
def Statement (i : Instr) : Prop := i.wf = true → decode (encode i) = .ok i

theorem wrHtiming (v : Word) : Statement (.wrHtiming v) := fun _ => rfl
theorem wrVtiming (v : Word) : Statement (.wrVtiming v) := fun _ => rfl
theorem wrClockPolarity (v : Word) : Statement (.wrClockPolarity v) := fun _ => rfl
theorem wrFrameBase (v : Word) : Statement (.wrFrameBase v) := fun _ => rfl
theorem wrIntEnable (v : Word) : Statement (.wrIntEnable v) := fun _ => rfl
theorem wrControl (v : Word) : Statement (.wrControl v) := fun _ => rfl
theorem wrIntClear (v : Word) : Statement (.wrIntClear v) := fun _ => rfl
theorem rdIntStatus : Statement .rdIntStatus := fun _ => rfl
theorem rdHtiming : Statement .rdHtiming := fun _ => rfl
theorem rdVtiming : Statement .rdVtiming := fun _ => rfl
theorem rdClockPolarity : Statement .rdClockPolarity := fun _ => rfl
theorem rdFrameBase : Statement .rdFrameBase := fun _ => rfl
theorem rdIntEnable : Statement .rdIntEnable := fun _ => rfl
theorem rdControl : Statement .rdControl := fun _ => rfl
theorem wrIntStatus (v : Word) : Statement (.wrIntStatus v) := fun _ => rfl
theorem rdIntClear : Statement .rdIntClear := fun _ => rfl
theorem irqInit : Statement .irqInit := fun _ => rfl

theorem commit (mode : DisplayMode) (clockKhz : Word) : Statement (.commit mode clockKhz) := fun h => by
  simp only [Instr.wf] at h
  simp [encode, decode, decodeCmd, takeMode_words h]

theorem pan (b l y : Word) : Statement (.pan b l y) := fun _ => rfl
theorem setbase (b : Word) : Statement (.setbase b) := fun _ => rfl
theorem pollAck : Statement .pollAck := fun _ => rfl

theorem validate (requested current : DisplayMode) (clockKhz : Word) (capacity : Option Word) :
    Statement (.validate requested current clockKhz capacity) := fun h => by
  simp only [Instr.wf, Bool.and_eq_true] at h
  simp [encode, decode, decodeCmd, takeMode_words h.1, takeMode_words h.2, takeOptionWord_words]

theorem sizerEnsure (mode : DisplayMode) : Statement (.sizerEnsure mode) := fun h => by
  simp only [Instr.wf] at h
  have := takeMode_words h []
  simp only [List.append_nil] at this
  simp [encode, decode, decodeCmd, this]

theorem sizerFixedInit : Statement .sizerFixedInit := fun _ => rfl

theorem setMode (requested : DisplayMode) : Statement (.setMode requested) := fun h => by
  simp only [Instr.wf] at h
  have := takeMode_words h []
  simp only [List.append_nil] at this
  simp [encode, decode, decodeCmd, this]

theorem panY (y : Word) : Statement (.panY y) := fun _ => rfl
theorem pollEvents : Statement .pollEvents := fun _ => rfl
theorem getMode : Statement .getMode := fun _ => rfl

end Sys2Proof.Laws.RoundTrip
end

