-- ==== Sys2Proof/Tests/Slice0.lean ====
section
/-! SUPPORT. Tests. Expected values are the spec's own vectors (95_test_vectors.md, and the examples inside the rules), under
`L_ref`; the witnesses show that the statements' hypotheses can be met. -/

namespace Sys2Proof.Tests

open Sys2Proof Sys2Proof.Machine

/-! ### Helpers: small states, and one field of a step's answer -/

/-- A field of the next state, if there is one. -/
def field {α : Type} (f : State → α) : Out → Option α
  | .next t => some (f t)
  | .fault _ => none
  | .refused _ => none

/-- A state after reset with the given status word, nothing written. -/
def blank (status : Word) : State := .resetOf .reference (fun _ => 0xA5A5A5A5#32) status 0x10000000#32

/-- The registers at the end of program P1. -/
def p1Regs : Regs where
  htiming := .holds 0x43131D4C#32
  vtiming := .holds 0x120408EF#32
  clockPolarity := .holds 0x0000980A#32
  frameBase := .holds 0x10000000#32
  intEnable := .holds 0x00000012#32
  control := .holds 0x00000129#32

/-- The end of program P1: everything written, one buffer active. -/
def booted : State := { blank 0#32 with regs := p1Regs, buf := some ⟨1, 0x10000000#32, 307200⟩, irqInited := true }

def m1 : DisplayMode := .m1

/-- `m3` of the vectors: field maxima and minima. -/
def m3 : DisplayMode :=
  ⟨800#32, 480#32, 800#32, 480#32, 24#32, 30000#32, 256#32, 1#32, 255#32, 0#32, 256#32, 64#32, 1#32, 0#32, none⟩

/-- `m6` of the vectors: every field at its minimum. -/
def m6 : DisplayMode :=
  ⟨16#32, 1#32, 16#32, 1#32, 2#32, 1000#32, 1#32, 1#32, 0#32, 0#32, 1#32, 1#32, 3#32, 0#32, none⟩

/-- A configuration with another policy, read-back and alignment. -/
def cfgFixed : Config := { Config.reference with policy := .fixed, readback := .stored, fbAlignLog2 := 3 }

/-! ### WellFormed: an ill-formed term for each check -/

theorem test_wf_layout_offset_too_big :
    (Instr.setMode { m1 with layout := some ⟨⟨2 ^ 32, 5⟩, ⟨5, 6⟩, ⟨11, 5⟩, ⟨0, 0⟩⟩ }).wf = false := by decide
theorem test_wf_layout_length_too_big :
    (Instr.sizerEnsure { m1 with layout := some ⟨⟨0, 5⟩, ⟨5, 6⟩, ⟨11, 2 ^ 32⟩, ⟨0, 0⟩⟩ }).wf = false := by decide
theorem test_wf_validate_checks_both_modes :
    (Instr.validate m1 { m1 with layout := some ⟨⟨0, 5⟩, ⟨5, 6⟩, ⟨11, 5⟩, ⟨2 ^ 32, 0⟩⟩ } 0#32 none).wf = false ∧
    (Instr.validate { m1 with layout := some ⟨⟨0, 5⟩, ⟨5, 2 ^ 32⟩, ⟨11, 5⟩, ⟨0, 0⟩⟩ } m1 0#32 none).wf = false := by decide
theorem test_wf_mode_invariant_refuses :
    DisplayMode.invariant { m1 with pixclock := 0#32 } = false ∧
    DisplayMode.invariant { m1 with xresVirtual := 319#32 } = false ∧
    DisplayMode.invariant { m1 with yresVirtual := 239#32 } = false ∧ m1.invariant = true := by decide
theorem test_wf_field_outside_word : Layout.wf { Layout.reference with hbp := ⟨25, 8⟩ } = false := by decide
theorem test_wf_fields_overlap : Layout.wf { Layout.reference with vfp := ⟨16, 9⟩ } = false := by decide
theorem test_wf_flag_inside_field : Layout.wf { Layout.reference with ihs := 5 } = false := by decide
theorem test_wf_divno_not_at_zero : Layout.wf { Layout.reference with divno := ⟨1, 6⟩ } = false := by decide
theorem test_wf_bpp_not_three_bits : Layout.wf { Layout.reference with bpp := ⟨1, 4⟩ } = false := by decide
theorem test_wf_event_bits_shared : Layout.wf { Layout.reference with busError := 1 } = false := by decide
theorem test_wf_endian_code_too_big : Layout.wf { Layout.reference with endianLeLe := 4 } = false := by decide
theorem test_wf_depth_codes_shared : Layout.wf { Layout.reference with bppCode := ⟨0, 1, 2, 3, 4, 4⟩ } = false := by decide
theorem test_wf_depth_code_too_big : Layout.wf { Layout.reference with bppCode := ⟨0, 1, 2, 3, 4, 8⟩ } = false := by decide
theorem test_wf_config : Config.reference.wf = true ∧ Config.wf { Config.reference with fbAlignLog2 := 32 } = false ∧
    Config.wf { Config.reference with multiplier := 0 } = false ∧
    cfgFixed.wf = true ∧ Config.wf { cfgFixed with multiplier := 3 } = false ∧ -- R246
    Config.wf { Config.reference with multiplier := 3 } = true ∧
    Config.wf { Config.reference with layout := { Layout.reference with ipc := 40 } } = false := by decide

/-! ### Decode: selects and operand records written out from R101, R102, R103 -/

theorem test_decode_writes : -- we = 1, off = 0x00, 0x04, 0x08, 0x10, 0x18, 0x1C, 0x20, 0x24
    decode (.reg 0b100000000#9 4 7#32) = .ok (.wrHtiming 7#32) ∧ decode (.reg 0b100000100#9 4 7#32) = .ok (.wrVtiming 7#32) ∧
    decode (.reg 0b100001000#9 4 7#32) = .ok (.wrClockPolarity 7#32) ∧
    decode (.reg 0b100010000#9 4 7#32) = .ok (.wrFrameBase 7#32) ∧
    decode (.reg 0b100011000#9 4 7#32) = .ok (.wrIntEnable 7#32) ∧
    decode (.reg 0b100011100#9 4 7#32) = .ok (.wrControl 7#32) ∧
    decode (.reg 0b100100000#9 4 7#32) = .ok (.wrIntClear 7#32) ∧
    decode (.reg 0b100100100#9 4 7#32) = .ok (.wrIntStatus 7#32) := ⟨rfl, rfl, rfl, rfl, rfl, rfl, rfl, rfl⟩
theorem test_decode_reads :
    decode (.reg 0b000000000#9 4 0#32) = .ok .rdHtiming ∧ decode (.reg 0b000000100#9 4 0#32) = .ok .rdVtiming ∧
    decode (.reg 0b000001000#9 4 0#32) = .ok .rdClockPolarity ∧ decode (.reg 0b000010000#9 4 0#32) = .ok .rdFrameBase ∧
    decode (.reg 0b000011000#9 4 0#32) = .ok .rdIntEnable ∧ decode (.reg 0b000011100#9 4 0#32) = .ok .rdControl ∧
    decode (.reg 0b000100000#9 4 0#32) = .ok .rdIntClear ∧ decode (.reg 0b000100100#9 4 0#32) = .ok .rdIntStatus :=
  ⟨rfl, rfl, rfl, rfl, rfl, rfl, rfl, rfl⟩
/-- The words of `M1`, in the order of R103, without a colour layout. -/
def m1Words : List Word :=
  [320#32, 240#32, 320#32, 480#32, 16#32, 166667#32, 68#32, 20#32, 18#32, 4#32, 30#32, 3#32, 0#32, 0#32,
    0#32, 0#32, 0#32, 0#32, 0#32, 0#32, 0#32, 0#32, 0#32]
theorem test_decode_commands_block :
    decode (.cmd 0b0000#4 []) = .ok .irqInit ∧ decode (.cmd 0b0001#4 (m1Words ++ [66000#32])) = .ok (.commit m1 66000#32) ∧
    decode (.cmd 0b0010#4 [0x10000000#32, 640#32, 240#32]) = .ok (.pan 0x10000000#32 640#32 240#32) ∧
    decode (.cmd 0b0011#4 [0x10100000#32]) = .ok (.setbase 0x10100000#32) ∧
    decode (.cmd 0b0100#4 []) = .ok .pollAck := ⟨rfl, rfl, rfl, rfl, rfl⟩
theorem test_decode_commands_host :
    decode (.cmd 0b1000#4 (m1Words ++ (m1Words ++ [66000#32, 1#32, 307200#32]))) =
      .ok (.validate m1 m1 66000#32 (some 307200#32)) ∧
    decode (.cmd 0b1001#4 m1Words) = .ok (.sizerEnsure m1) ∧ decode (.cmd 0b1010#4 []) = .ok .sizerFixedInit ∧
    decode (.cmd 0b1011#4 m1Words) = .ok (.setMode m1) ∧ decode (.cmd 0b1100#4 [240#32]) = .ok (.panY 240#32) ∧
    decode (.cmd 0b1101#4 []) = .ok .pollEvents ∧ decode (.cmd 0b1110#4 []) = .ok .getMode :=
  ⟨rfl, rfl, rfl, rfl, rfl, rfl, rfl⟩
theorem test_decode_rejects : -- R107, R141, vector A9; a record that is too short
    decode (.reg 0x10C#9 4 0#32) = .error (.unmapped 0x0C#8) ∧ decode (.reg 0x114#9 4 0#32) = .error (.unmapped 0x14#8) ∧
    decode (.reg 0x128#9 4 0#32) = .error (.unmapped 0x28#8) ∧ decode (.reg 0x100#9 2 0#32) = .error (.unmapped 0x00#8) ∧
    decode (.cmd 0x7#4 []) = .error (.reservedCommand 0x7#4) ∧ decode (.cmd 0xF#4 []) = .error (.reservedCommand 0xF#4) ∧
    decode (.cmd 0x1#4 m1Words) = .error (.illTyped 0x1#4) := ⟨rfl, rfl, rfl, rfl, rfl, rfl, rfl⟩

/-- The rows of the opcode table: size in bits, select, mnemonic. -/
def tableRows : List (Nat × Nat × String) :=
  [(16, 0x100, "WR.HTIMING"), (16, 0x104, "WR.VTIMING"), (16, 0x108, "WR.CLOCK_POLARITY"), (16, 0x110, "WR.FRAME_BASE"),
    (16, 0x118, "WR.INT_ENABLE"), (16, 0x11C, "WR.CONTROL"), (16, 0x120, "WR.INT_CLEAR"), (16, 0x024, "RD.INT_STATUS")]
  ++ [(16, 0x000, "RD.HTIMING"), (16, 0x004, "RD.VTIMING"), (16, 0x008, "RD.CLOCK_POLARITY"), (16, 0x010, "RD.FRAME_BASE"),
    (16, 0x018, "RD.INT_ENABLE"), (16, 0x01C, "RD.CONTROL"), (16, 0x124, "WR.INT_STATUS"), (16, 0x020, "RD.INT_CLEAR")]
  ++ [(8, 0x0, "IRQ.INIT"), (8, 0x1, "COMMIT"), (8, 0x2, "PAN"), (8, 0x3, "SETBASE"), (8, 0x4, "POLL_ACK"),
    (8, 0x8, "VALIDATE"), (8, 0x9, "SIZER.ENSURE"), (8, 0xA, "SIZER.FIXED_INIT"), (8, 0xB, "SET_MODE"), (8, 0xC, "PAN_Y"),
    (8, 0xD, "POLL_EVENTS"), (8, 0xE, "GET_MODE")]
theorem test_table_rows_decode :
    tableRows.all (fun r => (decodeTableWord r.1 r.2.1).map Instr.mnemonic == some r.2.2) = true := by decide
theorem test_table_rows_run_after_reset :
    tableRows.all (fun r => (field (·.steps) (step (State.reset.withFetchWord r.1 r.2.1))) == some 1) = true := by decide
theorem test_table_reserved : decodeTableWord 8 0x5 = none ∧ decodeTableWord 8 0xF = none ∧ decodeTableWord 16 0x10C = none := by
  decide

/-! ### Register access (vectors A1 to A13) -/

theorem test_wr_htiming : field (·.regs.htiming) (exec (.wrHtiming 0x43131D4C#32) (blank 0#32)) = some (.holds 0x43131D4C#32) := by
  decide
theorem test_wr_vtiming : field (·.regs.vtiming) (exec (.wrVtiming 0x120408EF#32) (blank 0#32)) = some (.holds 0x120408EF#32) := by
  decide
theorem test_wr_clock_polarity :
    field (·.regs.clockPolarity) (exec (.wrClockPolarity 0x980A#32) (blank 0#32)) = some (.holds 0x980A#32) := by decide
theorem test_wr_int_enable :
    field (·.regs.intEnable) (exec (.wrIntEnable 0x12#32) (blank 0#32)) = some (.holds 0x12#32) := by decide
theorem test_wr_frame_base_keeps_low_bits : -- A11, g = 3
    field (fun t => (t.regs.frameBase, engineBase t)) (exec (.wrFrameBase 0x10000007#32) { booted with cfg := cfgFixed }) =
      some (.holds 0x10000007#32, some 0x10000000#32) := by decide
theorem test_wr_control_needs_timing : -- A10
    field (fun t => (t.fault, t.regs.control)) (exec (.wrControl 0x129#32) (blank 0#32)) =
      some (some .enableBeforeTiming, .unwritten 0xA5A5A5A5#32) := by decide
theorem test_wr_control_stores :
    field (fun t => (t.fault, t.regs.control)) (exec (.wrControl 0x127#32) booted) = some (none, .holds 0x127#32) := by decide
theorem test_wr_int_clear : field (·.intStatus) (exec (.wrIntClear 0x12#32) (blank 0x16#32)) = some 0x04#32 := by decide -- A2
theorem test_wr_int_clear_zero_and_all : -- A3, A4
    field (·.intStatus) (exec (.wrIntClear 0#32) (blank 0x16#32)) = some 0x16#32 ∧
    field (·.intStatus) (exec (.wrIntClear 0xFFFFFFFF#32) (blank 0x02#32)) = some 0#32 := by decide
theorem test_rd_int_status : -- A5
    field (fun t => (t.out, t.intStatus)) (exec .rdIntStatus (blank 0x1E#32)) =
      some (some (.ok (.word 0x1E#32)), 0x1E#32) := by decide
theorem test_rd_refused : -- A6
    field (fun t => (t.out, t.refused)) (exec .rdControl booted) =
      some (some (.refuse (.readNotShown .control)), true) := by decide
theorem test_rd_stored : -- A7; the examples of R142 to R147
    [Instr.rdHtiming, .rdVtiming, .rdClockPolarity, .rdFrameBase, .rdIntEnable, .rdControl].map
      (fun i => field (·.out) (exec i { booted with cfg := cfgFixed })) =
    [0x43131D4C#32, 0x120408EF#32, 0x980A#32, 0x10000000#32, 0x12#32, 0x129#32].map
      (fun w => some (some (.ok (.word w)))) := by decide
theorem test_rd_unwritten_faults :
    field (·.fault) (exec .rdVtiming { blank 0#32 with cfg := cfgFixed }) = some (some (.readUnwritten .vtiming)) := by decide
theorem test_wr_int_status_refused : -- A8
    field (fun t => (t.out, t.intStatus)) (exec (.wrIntStatus 0x2#32) (blank 0x12#32)) =
      some (some (.refuse (.directionNotShown .intStatus)), 0x12#32) := by decide
theorem test_rd_int_clear_refused :
    field (fun t => (t.out, t.refused)) (exec .rdIntClear (blank 0#32)) =
      some (some (.refuse (.directionNotShown .intClear)), true) := by decide
theorem test_irq_line : irq { booted with intStatus := 0x0C#32 } = false ∧ irq { booted with intStatus := 0x14#32 } = true := by
  decide -- A12, A13

/-! ### Timing encoder (section 2.2 of the vectors) -/

theorem test_pixrate : [1, 3, 166667, 166666, 999999999, 1000000000, 1000000001, 4294967295].map pixRate =
    [1000000000, 333333334, 6000, 6001, 2, 1, 1, 1] := by decide
theorem test_bytespp : [1, 2, 4, 8, 16, 24, 32, 0, 15].map bytesPerPixel = [1, 1, 1, 1, 2, 3, 4, 0, 2] := by decide
theorem test_divcalc_effclk :
    [(66000, 166667), (66000, 166666), (100000, 39721), (133000, 30000), (66000, 10000), (64, 1000000000)].map
      (fun x => (divCalc x.1 x.2, effectiveClock x.1 (divCalc x.1 x.2), khzToPicos (effectiveClock x.1 (divCalc x.1 x.2)))) =
    [(11, 6000, 166666), (11, 6000, 166666), (4, 25000, 40000), (4, 33250, 30075), (1, 66000, 15151), (64, 1, 1000000000)] := by
  decide
/-- The four words of a commit under the reference layout. -/
def words (m : DisplayMode) (k : Nat) : Option (Word × Word × Word × Word) :=
  match commitWords .reference m (divCalc k m.pixclock.toNat) with
  | .ok w => some w
  | .error _ => none
theorem test_words_m1 : words m1 66000 = some (0x980A#32, 0x43131D4C#32, 0x120408EF#32, 0x129#32) := by decide
theorem test_words_m3 : words m3 133000 = some (0x8803#32, 0xFF00FFC4#32, 0xFF00FDDF#32, 0x12B#32) := by decide
theorem test_words_m6 : words m6 1000000 = some (0x8000#32, 0#32, 0#32, 0x123#32) := by decide
theorem test_words_sync_and_lossy_width :
    (words { m1 with syncFlags := 1#32 } 66000).map (·.1) = some 0x880A#32 ∧
    (words { m1 with syncFlags := 2#32 } 66000).map (·.1) = some 0x900A#32 ∧
    (words { m1 with syncFlags := 0xFFFFFFFC#32 } 66000).map (·.1) = some 0x980A#32 ∧
    (words { m1 with xres := 330#32 } 66000).map (·.2.1) = some 0x43131D4C#32 := by decide
/-- How the horizontal and vertical encoders fail. -/
def rangeFault (m : DisplayMode) : Option Fault :=
  match encHtiming .reference m with
  | .error f => some f
  | .ok _ =>
    match encVtiming .reference m with
    | .error f => some f
    | .ok _ => none
theorem test_range_faults :
    [{ m1 with leftMargin := 257#32 }, { m1 with leftMargin := 0#32 }, { m1 with hsyncLen := 0#32 }, { m1 with xres := 15#32 },
      { m1 with xres := 1040#32 }, { m1 with yres := 1025#32 }, { m1 with yres := 0#32 }, { m1 with vsyncLen := 65#32 },
      { m1 with upperMargin := 256#32 }, { m1 with lowerMargin := 256#32 }].map rangeFault =
    [.encodeRange .hbp 256, .encodeRange .hbp (-1), .encodeRange .hw (-1), .encodeRange .ppl (-1), .encodeRange .ppl 64,
      .encodeRange .lpp 1024, .encodeRange .lpp (-1), .encodeRange .vw 64, .encodeRange .vbp 256,
      .encodeRange .vfp 256].map some := by decide
theorem test_truncate :
    (encHtiming { Config.reference with overflowPolicy := .truncate } { m1 with leftMargin := 257#32 }).toOption =
      some 0x00131D4C#32 ∧
    (encHtiming { Config.reference with overflowPolicy := .truncate } { m1 with leftMargin := 0#32 }).toOption =
      some 0xFF131D4C#32 := by decide
theorem test_control_by_depth : [1, 2, 4, 8, 16, 24, 32, 15, 0].map (fun b => (encControl .reference b).toOption) =
    [some 0x121#32, some 0x123#32, some 0x125#32, some 0x127#32, some 0x129#32, some 0x12B#32, some 0x12B#32, none, none] := by
  decide
theorem test_decoders :
    decHtiming .reference 0xFF00FFC4#32 = (800, 256, 1, 256) ∧ decVtiming .reference 0xFF00FDDF#32 = (480, 64, 0, 255) ∧
    decClockPolarity .reference 0xB80A#32 = ⟨11, false, false, true, true⟩ ∧
    decControl .reference 0x12B#32 = ⟨true, true, true, 0, some .bpp24or32⟩ ∧
    decControl .reference 0x12D#32 = ⟨true, true, true, 0, none⟩ := by decide
theorem test_commit_first_write : -- P1: the first of the four writes
    field (fun t => (t.bus, t.seq)) (exec (.commit m1 66000#32) booted) =
      some (some (.write .clockPolarity 0x980A#32), .c1) := by decide
theorem test_commit_failures : -- P5, and the table of section 2.2
    field (·.out) (exec (.commit { m1 with bitsPerPixel := 15#32 } 66000#32) booted) =
      some (some (.fault (.contractViolation .unsupportedBpp))) ∧
    field (·.out) (exec (.commit m1 0#32) booted) = some (some (.error (.timing .clockExceedsBus))) ∧
    field (·.out) (exec (.commit { m1 with leftMargin := 300#32 } 66000#32) booted) =
      some (some (.fault (.encodeRange .hbp 299))) ∧
    field (·.out) (exec (.commit { m1 with pixclock := 1000000#32 } 65000#32) booted) =
      some (some (.fault (.encodeRange .divno 64))) := by decide

theorem test_error_codes : -- R281 to R284
    [OpError.mode .missingClock, .mode .unsupportedDepth, .timing .clockExceedsBus, .sizer .outOfMemory, .pan .outOfRange,
      .pan .noBuffer].map OpError.code = [1, 6, 7, 8, 9, 10] := by decide

/-! ### Pan controller (section 2.3) -/

theorem test_panaddr : [0, 2, 3, 6].map (fun g => panAddr g 0x10000000 642 3) =
      [0x10000786#32, 0x10000784#32, 0x10000780#32, 0x10000780#32] ∧
    [0, 2, 3, 6].map (fun g => panAddr g 0x1000003C 640 1) = [0x100002BC#32, 0x100002BC#32, 0x100002B8#32, 0x10000280#32] ∧
    panAddr 2 0xFFFFF000 4096 1 = 0#32 := by decide
theorem test_pan : field (fun t => (t.bus, t.out)) (exec (.pan 0x10000000#32 640#32 240#32) booted) =
    some (some (.write .frameBase 0x10025800#32), some (.ok (.address 0x10025800#32))) := by decide
theorem test_pan_during_commit :
    field (fun t => (t.out, t.regs)) (exec (.pan 0x10000000#32 640#32 240#32) { booted with seq := .c2 }) =
      some (some (.refuse .commitInProgress), p1Regs) := by decide
theorem test_setbase : field (·.bus) (exec (.setbase 0x10100000#32) booted) = some (some (.write .frameBase 0x10100000#32)) := by
  decide

/-! ### Status decoder (section 2.4) -/

theorem test_decode_status :
    [0x12, 0, 0x1E, 0xFFFFFFE1, 0x80000003, 0x0C].map (fun w => decodeStatus .reference (BitVec.ofNat 32 w)) =
    [⟨true, false, false, true⟩, ⟨false, false, false, false⟩, ⟨true, true, true, true⟩, ⟨false, false, false, false⟩,
      ⟨true, false, false, false⟩, ⟨false, true, true, false⟩] := by decide
theorem test_irq_init : field (fun t => (t.bus, t.irqInited)) (exec .irqInit (blank 0#32)) =
    some (some (.write .intEnable 0x12#32), true) := by decide
theorem test_poll_ack_reads : field (fun t => (t.bus, t.ack)) (exec .pollAck (blank 0x80000013#32)) =
    some (some (.read .intStatus 0x80000013#32), .pending 0x80000013#32) := by decide
theorem test_poll_ack_acknowledges : -- an event came between: status 0x12, word read 0x02
    (continuePoll { blank 0x12#32 with ack := .pending 0x02#32 }).intStatus = 0x10#32 ∧
    (continuePoll { blank 0x12#32 with ack := .pending 0x02#32 }).out =
      some (.ok (.events ⟨true, false, false, false⟩)) := by decide
theorem test_poll_events : field (·.ack) (exec .pollEvents (blank 0x12#32)) = some (.pending 0x12#32) := by decide
theorem test_latch : -- P3's flip, and R36: nothing when the base is the one scanned
    (deLatch { booted with scanBase := 0x10025800#32 }).scanBase = 0x10000000#32 ∧
    (deLatch { booted with scanBase := 0x10025800#32 }).intStatus = 0x04#32 ∧ deLatch booted = booted := by decide

theorem test_pipeline : pipelineStarted booted = true := by -- R136: EN is set at the end of P1
  rfl
theorem test_decoding_comes_first : -- log 27: any agent, during a commit
    field (·.out) (issue .other (.reg 0x10C#9 4 0#32) .fails { booted with seq := .c2 }) =
      some (some (.refuse (.unmapped 0x0C#8))) := by decide

/-! ### Host-side mode logic (section 2.5) -/

/-- `VALIDATE requested, M1, clock, capacity`. -/
def check (cfg : Config) (r : DisplayMode) (k : Nat) (cap : Option Nat) : Option ModeError :=
  match validateMode cfg r m1 k cap with
  | .ok _ => none
  | .error e => some e
theorem test_validate_errors :
    [(m1, 66000), (m1, 12000), (m1, 11999), ({ m1 with pixclock := 0#32, xres := 640#32 }, 66000),
      ({ m1 with pixclock := 30000#32 }, 66000), ({ m1 with pixclock := 30304#32 }, 66000), ({ m1 with xres := 640#32 }, 66000),
      ({ m1 with yres := 241#32 }, 66000), ({ m1 with xresVirtual := 640#32 }, 66000), ({ m1 with yresVirtual := 239#32 }, 66000),
      ({ m1 with yresVirtual := 5000#32 }, 66000), ({ m1 with bitsPerPixel := 15#32 }, 66000),
      ({ m1 with bitsPerPixel := 0#32 }, 66000), ({ m1 with leftMargin := 300#32 }, 66000)].map
      (fun x => check .reference x.1 x.2 none) =
    [none, none, some .clockTooFast, some .missingClock, some .clockTooFast, none, some .resolutionFixed, some .resolutionFixed,
      some .resolutionFixed, some .virtualHeightOutOfRange, none, some .unsupportedDepth, some .unsupportedDepth, none] := by
  decide
theorem test_validate_fixed :
    check cfgFixed { m1 with yresVirtual := 241#32 } 66000 (some 307200) = none ∧
    check cfgFixed { m1 with yresVirtual := 481#32 } 66000 (some 307200) = some .virtualHeightOutOfRange ∧
    check cfgFixed { m1 with bitsPerPixel := 32#32 } 66000 (some 307200) = some .bufferTooSmall := by decide
theorem test_validate_layout :
    field (·.out) (exec (.validate m1 m1 66000#32 none) (blank 0#32)) =
      some (some (.ok (.mode { m1 with layout := some ⟨⟨0, 5⟩, ⟨5, 6⟩, ⟨11, 5⟩, ⟨0, 0⟩⟩ }))) ∧
    colorLayout 24 .redHigh = some ⟨⟨16, 8⟩, ⟨8, 8⟩, ⟨0, 8⟩, ⟨0, 0⟩⟩ ∧
    colorLayout 32 .redLow = some ⟨⟨0, 8⟩, ⟨8, 8⟩, ⟨16, 8⟩, ⟨24, 8⟩⟩ := by decide
theorem test_required_bytes_and_linelen :
    [m1, { m1 with yresVirtual := 240#32 }, { m1 with yresVirtual := 241#32 }, m3,
      { m1 with xresVirtual := 65536#32, yresVirtual := 65536#32, bitsPerPixel := 8#32 }].map requiredBytes =
      [307200, 153600, 154240, 1152000, 4294967296] ∧
    [m1, m3, { m1 with bitsPerPixel := 1#32 }].map lineLength = [640, 2400, 320] := by decide
theorem test_sizer_grows : -- P4 (c): the old buffer is retired, the new one active
    field (fun t => (t.bus, t.buf, t.retired))
      (exec (.sizerEnsure { m1 with yresVirtual := 960#32 }) { booted with allocReply := .grants 2 0x10100000#32 }) =
      some (some (.write .frameBase 0x10100000#32), some ⟨2, 0x10100000#32, 614400⟩, [⟨1, 0x10000000#32, 307200⟩]) := by decide
theorem test_sizer_from_null : -- S6
    field (fun t => (t.buf, t.retired))
      (exec (.sizerEnsure { m1 with yresVirtual := 240#32 }) { blank 0#32 with allocReply := .grants 1 0x10000000#32 }) =
      some (some ⟨1, 0x10000000#32, 153600⟩, []) := by decide
theorem test_fixed_init :
    field (·.buf) (exec .sizerFixedInit { blank 0#32 with allocReply := .grants 1 0x10000000#32 }) =
      some (some ⟨1, 0x10000000#32, 307200⟩) := by decide
theorem test_set_mode_allocation_fails : -- P4 (b), S10
    field (fun t => (t.out, t.curMode, t.buf, t.regs)) (exec (.setMode { m1 with yresVirtual := 960#32 }) booted) =
      some (some (.error (.sizer .outOfMemory)), m1, some ⟨1, 0x10000000#32, 307200⟩, p1Regs) := by decide
theorem test_set_mode_fixed_too_high : -- P4 (a), S7
    field (fun t => (t.out, t.bus)) (exec (.setMode { m1 with yresVirtual := 500#32 }) { booted with cfg := cfgFixed }) =
      some (some (.error (.mode .virtualHeightOutOfRange)), none) := by decide
theorem test_pan_y :
    [0, 240, 241, 4294967295].map (fun y => field (fun t => (t.bus, t.out)) (exec (.panY (BitVec.ofNat 32 y)) booted)) =
    [some (some (.write .frameBase 0x10000000#32), some (.ok .unit)),
      some (some (.write .frameBase 0x10025800#32), some (.ok .unit)),
      some (none, some (.error (.pan .outOfRange))), some (none, some (.error (.pan .outOfRange)))] := by decide
theorem test_pan_y_no_buffer :
    field (·.out) (exec (.panY 0#32) (blank 0#32)) = some (some (.error (.pan .noBuffer))) := by decide
theorem test_get_mode : field (·.out) (exec .getMode booted) = some (some (.ok (.mode m1))) := by decide

/-! ### Witnesses: a state and operands that meet the hypotheses of each statement, clause by clause -/

/-- `booted` with given entries scheduled. -/
def scheduled (as : List Action) : State := { booted with schedule := as }

/-- A request of the configuration context, and of the event context. -/
def cfgReq (i : Instr) : Action := .issue .cfg (encode i) .fails
def evtReq (i : Instr) : Action := .issue .evt (encode i) .fails

/-- The validated `M1`. -/
def m1v : DisplayMode := { m1 with layout := some ⟨⟨0, 5⟩, ⟨5, 6⟩, ⟨11, 5⟩, ⟨0, 0⟩⟩ }

/-- The committed timing of `M1`. -/
def t1 : CommittedTiming := ⟨11, 6000, 166666#32, 0x980A#32, 0x43131D4C#32, 0x120408EF#32, 0x129#32⟩

/-- `booted` in a commit of `M1`, at a position of the sequencer. -/
def committing (q : Seq) : State := { booted with seq := q, pend := some ⟨t1, none⟩ }

theorem test_reset_image_is_read : -- R42, R139: right after reset, nothing written, under an image that gives a value
    field (fun t => (t.out, t.fault)) (exec .rdVtiming
      (.resetOf { cfgFixed with resetImage := { ResetImage.unwritten with vtiming := some 0x120408EF#32 } } (fun _ => 7#32) 0#32 0#32)) =
      some (some (.ok (.word 0x120408EF#32)), none) := by decide

theorem test_refusal_before_fault : -- log 27: a foreign write that would fault latches nothing
    field (fun t => (t.fault, t.out)) (issue .evt (encode (.wrControl 0x129#32)) .fails (blank 0#32)) =
      some (none, some (.refuse .foreignWriter)) := by decide

theorem witness_DecodeInvertsEncode :
    (Instr.commit m1 66000#32).wf = true ∧
    (Instr.validate { m1 with layout := some ⟨⟨0, 0⟩, ⟨2 ^ 32 - 1, 2 ^ 32 - 1⟩, ⟨0, 1⟩, ⟨24, 8⟩⟩ } m1 0#32 none).wf = true := by
  decide
theorem witness_RegSelectsDecodeByTable :
    0x10C#9 ∉ [0x100#9, 0x104#9, 0x108#9, 0x110#9, 0x118#9, 0x11C#9, 0x120#9, 0x024#9, 0x000#9, 0x004#9, 0x008#9, 0x010#9,
      0x018#9, 0x01C#9, 0x124#9, 0x020#9] ∧ (2 : Nat) ≠ 4 := by decide
theorem witness_CommandSelectsDecodeByTable : m1.wf = true ∧ m1v.wf = true ∧ 0x7#4 ∈ [0x5#4, 0x6#4, 0x7#4, 0xF#4] := by decide
theorem witness_StepRunsDecodedOperation_cfg :
    (scheduled [cfgReq .getMode]).fault = none ∧ (scheduled [cfgReq .getMode]).schedule = .issue .cfg (encode .getMode) .fails :: [] ∧
    decode (encode .getMode) = .ok .getMode ∧ Agent.cfg = (owner .getMode).agent ∧
    (owner .getMode = .cfg → (scheduled [cfgReq .getMode]).seq = .idle ∧ (scheduled [cfgReq .getMode]).setModeGap = none) :=
  ⟨rfl, rfl, rfl, rfl, fun _ => ⟨rfl, rfl⟩⟩
theorem witness_StepRunsDecodedOperation_evt_inside_commit :
    ({ committing .c2 with schedule := [evtReq .pollAck] } : State).fault = none ∧
    decode (encode .pollAck) = .ok .pollAck ∧ Agent.evt = (owner .pollAck).agent ∧ owner .pollAck ≠ .cfg :=
  ⟨rfl, rfl, rfl, by decide⟩
theorem witness_EveryOperationRuns : ∃ t u, booted.out = none ∧ -- a fault, and a refusal
    exec (.commit { m1 with leftMargin := 257#32 } 66000#32) booted = .next t ∧
    t.out = some (.fault (.encodeRange .hbp 256)) ∧ exec .rdControl booted = .next u ∧
    u.out = some (.refuse (.readNotShown .control)) := ⟨_, _, rfl, rfl, rfl, rfl, rfl⟩
theorem witness_StepStopsOnlyWithCause :
    step (scheduled [.issue .cfg (.cmd 0x3#4 []) .fails]) = .refused .illTyped ∧
    step { scheduled [.free 0] with retired := [⟨2, 0x10000000#32, 1⟩] } = .refused .graceNotOver ∧
    step { booted with fault := some .enableBeforeTiming } = .fault .enableBeforeTiming := ⟨rfl, rfl, rfl⟩
theorem witness_LatchMarkAndConfigurationPersist : ∃ t,
    perform .latch { booted with fault := some .enableBeforeTiming, refused := true } = .next t := ⟨_, rfl⟩
theorem witness_ForeignRequestsAreRefused :
    (scheduled [.issue .evt (encode (.setbase 0#32)) .fails]).fault = none ∧
    decode (encode (.setbase 0#32)) = .ok (.setbase 0#32) ∧ Agent.evt ≠ (owner (.setbase 0#32)).agent ∧
    Agent.cfg ≠ (owner .rdIntStatus).agent ∧ Agent.other ≠ (owner .getMode).agent := ⟨rfl, rfl, by decide, by decide, by decide⟩
theorem witness_NoConfigurationStepInsideCommit :
    ({ committing .c1 with schedule := [cfgReq (.panY 0#32)] } : State).fault = none ∧
    decode (encode (.panY 0#32)) = .ok (.panY 0#32) ∧ owner (.panY 0#32) = .cfg ∧
    (committing .c1).seq ≠ .idle ∧ (committing .c3).seq ≠ .idle := ⟨rfl, rfl, rfl, by decide, by decide⟩
theorem witness_NoConfigurationStepInsideCommit_gap :
    ({ scheduled [cfgReq .getMode] with setModeGap := some m1v } : State).fault = none ∧
    decode (encode .getMode) = .ok .getMode ∧ owner .getMode = .cfg ∧
    ({ scheduled [cfgReq .getMode] with setModeGap := some m1v } : State).setModeGap ≠ none := ⟨rfl, rfl, rfl, by decide⟩
theorem witness_UnmappedAccessChangesNothing :
    (scheduled [.issue .cfg (.reg 0x00C#9 4 0#32) .fails]).fault = none ∧
    (scheduled [.issue .cfg (.reg 0x00C#9 4 0#32) .fails]).schedule = .issue .cfg (.reg 0x00C#9 4 0#32) .fails :: [] ∧
    ((4 : Nat) ≠ 4 ∨ 0x00C#9 ∉ [0x100#9, 0x104#9, 0x108#9, 0x110#9, 0x118#9, 0x11C#9, 0x120#9, 0x024#9, 0x000#9, 0x004#9,
      0x008#9, 0x010#9, 0x018#9, 0x01C#9, 0x124#9, 0x020#9]) ∧
    (scheduled [.issue .evt (.cmd 0xF#4 []) .fails]).schedule = .issue .evt (.cmd 0xF#4 []) .fails :: [] ∧
    0xF#4 ∈ [0x5#4, 0x6#4, 0x7#4, 0xF#4] := ⟨rfl, rfl, by decide, rfl, by decide⟩
theorem witness_ResetStateIsAsStated : State.reset.fault = none ∧ State.reset.schedule = [] := ⟨rfl, rfl⟩
theorem witness_StoringWritesStoreWholeWord :
    (StoringReg.control = .control → enableTooEarly 0x128#32 (blank 0#32) = false) ∧
    (StoringReg.control = .control → enableTooEarly 0x129#32 booted = false) ∧
    (StoringReg.htiming ≠ .control) ∧ StoringReg.vtiming ≠ .htiming ∧ getReg p1Regs .intEnable = .holds 0x12#32 := by decide
theorem witness_ControlEnableNeedsTiming :
    (0x129#32).getLsbD booted.cfg.layout.en = true ∧
    isWritten ({ booted with regs := { p1Regs with frameBase := .unwritten 7#32 } } : State).regs.frameBase = false ∧
    (0x128#32).getLsbD booted.cfg.layout.en = false ∧ isWritten booted.regs.htiming = true ∧ isWritten booted.regs.vtiming = true ∧
    isWritten booted.regs.clockPolarity = true ∧ isWritten booted.regs.frameBase = true := by decide
theorem witness_ControlEnableNeedsTiming_commit :
    ({ booted with seq := .c3, pend := some ⟨⟨11, 6000, 166666#32, 0x980A#32, 0x43131D4C#32, 0x120408EF#32, 0x129#32⟩, none⟩,
                   regs := { p1Regs with frameBase := .unwritten 7#32 }, schedule := [.resume .cfg] } : State).fault = none ∧
    booted.setModeGap = none ∧ (0x129#32).getLsbD booted.cfg.layout.en = true := by decide
theorem witness_StoringReadsFollowReadback :
    cfgFixed.readback = .stored ∧ getReg p1Regs .frameBase = .holds 0x10000000#32 ∧
    isWritten (getReg (State.resetOf cfgFixed (fun _ => 7#32) 0#32 0#32).regs .control) = false ∧ booted.cfg.readback = .refuse := by decide
theorem witness_StatusPairCommutesWithWrites : ∃ t t' u u',
    exec (.wrIntClear 2#32) booted = .next t ∧ exec (writeOf .htiming 0#32) t = .next t' ∧
    exec (writeOf .htiming 0#32) booted = .next u ∧ exec (.wrIntClear 2#32) u = .next u' := ⟨_, _, _, _, rfl, rfl, rfl, rfl⟩
theorem witness_PixelRateAndSizeAreCeilings : 1 ≤ 1 ∧ 1 ≤ 4294967295 ∧ 10 ^ 9 ≤ 4294967295 ∧
    ({ m1 with pixclock := 0#32 } : DisplayMode).pixclock = 0#32 := by decide
theorem witness_DividerIsZeroOnlyForZeroClock :
    1 ≤ 166667 ∧ 1 ≤ 6000 ∧ 6000 ≤ pixRate 166667 ∧ pixRate 166667 * bytesPerPixel 16 ≤ 12000 := by decide
theorem witness_AchievedClockNeverExceedsRequest : 1 ≤ 1 ∧ 1 ≤ 1000000000 ∧ 1 ≤ 66000 := by decide
theorem test_effective_clock : -- R163: an exact quotient, and one rounded up
    (effectiveClock 66000 11, khzToPicos 6000) = (6000, 166666) ∧ effectiveClock 66000 7 = 9429 := by decide
theorem witness_RangeCheckFollowsPolicy :
    ((0 : Int) ≤ 0 ∧ (0 : Int) < 2 ^ (FieldName.hbp.field Config.reference.layout).width) ∧
    ((255 : Int) < 2 ^ (FieldName.hbp.field Config.reference.layout).width) ∧
    ¬ ((0 : Int) ≤ -1 ∧ (-1 : Int) < 2 ^ (FieldName.hbp.field Config.reference.layout).width) ∧
    ¬ ((0 : Int) ≤ 256 ∧ (256 : Int) < 2 ^ (FieldName.hbp.field Config.reference.layout).width) ∧
    Config.reference.overflowPolicy = .fault ∧
    ({ Config.reference with overflowPolicy := .truncate } : Config).overflowPolicy = .truncate ∧ 15 < 16 := by decide
theorem fieldsFit_m1 : FieldsFit .reference m1 66000#32 :=
  ⟨by decide, by decide, by decide, by decide, by decide, by decide, by decide, by decide, by decide⟩
theorem fieldsFit_m3 : FieldsFit .reference m3 133000#32 :=
  ⟨by decide, by decide, by decide, by decide, by decide, by decide, by decide, by decide, by decide⟩
theorem fieldsFit_m6 : FieldsFit .reference m6 1000000#32 :=
  ⟨by decide, by decide, by decide, by decide, by decide, by decide, by decide, by decide, by decide⟩
theorem witness_TimingWordsRoundTrip :
    Config.reference.layout.wf = true ∧ FieldsFit .reference m3 133000#32 ∧ m3.xres.toNat % 16 = 0 ∧
    FieldsFit .reference m6 1000000#32 ∧ m6.xres.toNat % 16 = 0 := ⟨by decide, fieldsFit_m3, by decide, fieldsFit_m6, by decide⟩
theorem witness_TimingWordsRoundTrip_width : -- no multiple of 16
    FieldsFit .reference { m1 with xres := 330#32 } 66000#32 ∧ 330 / 16 * 16 = 320 :=
  ⟨⟨fieldsFit_m1.divno, by decide, fieldsFit_m1.hw, fieldsFit_m1.hfp, fieldsFit_m1.hbp, fieldsFit_m1.lpp, fieldsFit_m1.vw,
    fieldsFit_m1.vfp, fieldsFit_m1.vbp⟩, rfl⟩
theorem witness_TimingWordsRoundTrip_truncate : -- a margin of 0 encodes as all ones (R100)
    (encHtiming { Config.reference with overflowPolicy := .truncate } { m1 with leftMargin := 0#32 }).toOption.map
      (ext Layout.reference.hbp) = some 255 ∧ (minusOne 0 % 2 ^ Layout.reference.hbp.width).toNat = 255 := by decide
theorem witness_ControlWordDecodesToDepth :
    Layout.reference.wf = true ∧ (32, DepthClass.bpp24or32) ∈ [(1, DepthClass.bpp1), (2, .bpp2), (4, .bpp4), (8, .bpp8),
      (16, .bpp16), (24, .bpp24or32), (32, .bpp24or32)] ∧ 15 ∉ [1, 2, 4, 8, 16, 24, 32] := by decide
/-- `L_ref` with a narrower line count, so that bit 9 of `VTIMING` is reserved. -/
def cfgNarrow : Config := { Config.reference with layout := { Layout.reference with lpp := ⟨0, 9⟩ } }
theorem witness_ReservedBitsAreWrittenZero_timing :
    cfgNarrow.layout.wf = true ∧ (encHtiming cfgNarrow m1).toOption = some 0x43131D4C#32 ∧
    (∀ f ∈ cfgNarrow.layout.htimingFields, 1 < f.lsb ∨ f.lsb + f.width ≤ 1) ∧
    (encVtiming cfgNarrow m1).toOption = some 0x120408EF#32 ∧
    (∀ f ∈ cfgNarrow.layout.vtimingFields, 9 < f.lsb ∨ f.lsb + f.width ≤ 9) := by decide
theorem witness_ReservedBitsAreWrittenZero_control :
    (encClockPolarity cfgNarrow 11 m1.syncFlags).toOption = some 0x980A#32 ∧
    (∀ f ∈ cfgNarrow.layout.clockPolarityFields, 31 < f.lsb ∨ f.lsb + f.width ≤ 31) ∧
    (encControl cfgNarrow.layout m1.bitsPerPixel.toNat).toOption = some 0x129#32 ∧
    (∀ f ∈ cfgNarrow.layout.controlFields, 4 < f.lsb ∨ f.lsb + f.width ≤ 4) := by decide
theorem committable_m1 : Committable .reference m1 66000#32 :=
  ⟨by decide, by decide, .inr fieldsFit_m1, by unfold supportedDepth; decide⟩
theorem committable_truncated :
    Committable { Config.reference with overflowPolicy := .truncate } { m1 with leftMargin := 257#32 } 66000#32 :=
  ⟨by decide, by decide, .inl rfl, by unfold supportedDepth; decide⟩
theorem witness_CommitStartsWithClockPolarity : booted.seq = .idle ∧ Committable booted.cfg m1 66000#32 :=
  ⟨rfl, committable_m1⟩
theorem witness_CommitFailuresTouchNoRegister_zero_operands :
    booted.seq = .idle ∧ ({ m1 with pixclock := 0#32 } : DisplayMode).pixclock = 0#32 ∧ m1.pixclock ≠ 0#32 := by decide
theorem witness_CommitFailuresTouchNoRegister_range :
    m1.pixclock ≠ 0#32 ∧ 66000#32 ≠ 0#32 ∧ booted.cfg.overflowPolicy = .fault ∧
    ¬ FieldsFit booted.cfg { m1 with leftMargin := 257#32 } 66000#32 :=
  ⟨by decide, by decide, rfl, fun h => absurd h.hbp (by decide)⟩
theorem test_first_misfit : -- R169: DIVNO before HBP before LPP, each with its encoded value
    firstMisfit .reference { m1 with leftMargin := 0#32, yres := 0#32 } 66000#32 = some (.hbp, -1) ∧
    firstMisfit .reference { m1 with pixclock := 1000000#32, leftMargin := 0#32 } 65000#32 = some (.divno, 64) ∧
    firstMisfit .reference { m1 with upperMargin := 256#32 } 66000#32 = some (.vbp, 256) ∧
    firstMisfit .reference m1 66000#32 = none := by decide
theorem witness_CommitFailuresTouchNoRegister_depth :
    FieldsFit booted.cfg { m1 with bitsPerPixel := 15#32 } 66000#32 ∧
    ¬ supportedDepth ({ m1 with bitsPerPixel := 15#32 } : DisplayMode).bitsPerPixel.toNat ∧ (committing .c1).seq ≠ .idle :=
  ⟨⟨fieldsFit_m1.divno, fieldsFit_m1.ppl, fieldsFit_m1.hw, fieldsFit_m1.hfp, fieldsFit_m1.hbp, fieldsFit_m1.lpp, fieldsFit_m1.vw,
    fieldsFit_m1.vfp, fieldsFit_m1.vbp⟩, by unfold supportedDepth; decide, by decide⟩
theorem witness_CommitCompletesUnderInterleaving :
    booted.fault = none ∧ booted.seq = .idle ∧ booted.setModeGap = none ∧ m1.wf = true ∧
    Committable booted.cfg m1 66000#32 ∧ booted.regs.frameBase = .holds 0x10000000#32 ∧
    (∀ x ∈ [evtReq .pollAck] ++ [.raise ⟨true, false, false, false⟩, .scan] ++ [.resume .evt, .latch], x.sparesCfg = true) ∧
    (scheduled (cfgReq (.commit m1 66000#32) :: [evtReq .pollAck] ++ .resume .cfg :: [.raise ⟨true, false, false, false⟩, .scan] ++
      .resume .cfg :: [.resume .evt, .latch] ++ [.resume .cfg])).fault = none :=
  ⟨rfl, rfl, rfl, by decide, committable_m1, rfl, by decide, rfl⟩
theorem witness_CommitTwiceLeavesSameRegisters :
    booted.fault = none ∧ booted.seq = .idle ∧ booted.setModeGap = none ∧ m1.wf = true ∧
    Committable booted.cfg m1 66000#32 ∧ booted.regs.frameBase = .holds 0x10000000#32 :=
  ⟨rfl, rfl, rfl, by decide, committable_m1, rfl⟩
theorem commitOrder_committing : CommitOrder (committing .c1) ∧ CommitOrder (committing .c3) :=
  ⟨⟨fun h => absurd rfl h, _, rfl, rfl⟩, ⟨fun h => absurd rfl h, _, rfl, rfl, rfl, rfl⟩⟩
theorem witness_CommitOrderIsInvariant : ∃ t,
    CommitOrder { committing .c1 with schedule := [.resume .cfg] } ∧
    step { committing .c1 with schedule := [.resume .cfg] } = .next t ∧ t.seq = .c2 :=
  ⟨_, ⟨fun h => absurd rfl h, _, rfl, rfl⟩, rfl, rfl⟩
theorem witness_NewControlComesWithNewTiming : ∃ t,
    CommitOrder { committing .c3 with schedule := [.resume .cfg] } ∧ (committing .c3).pend = some ⟨t1, none⟩ ∧
    step { committing .c3 with schedule := [.resume .cfg] } = .next t ∧ t.seq = .idle :=
  ⟨_, ⟨fun h => absurd rfl h, _, rfl, rfl, rfl, rfl⟩, rfl, rfl, rfl⟩
theorem witness_SequencerAdvancesByOne : ∃ t,
    step (scheduled [cfgReq (.commit m1 66000#32)]) = .next t ∧ t.seq ≠ (scheduled [cfgReq (.commit m1 66000#32)]).seq :=
  ⟨_, rfl, by decide⟩
theorem witness_SequencerAdvancesByOne_resume :
    ({ committing .c1 with schedule := [.resume .cfg] } : State).fault = none ∧
    ({ committing .c1 with schedule := [.resume .cfg] } : State).setModeGap = none ∧
    ({ committing .c1 with schedule := [.resume .cfg] } : State).pend = some ⟨t1, none⟩ ∧
    (committing .c2).seq = .c2 ∧ (committing .c3).seq = .c3 ∧ isWritten (committing .c3).regs.htiming = true ∧
    isWritten (committing .c3).regs.vtiming = true ∧ isWritten (committing .c3).regs.clockPolarity = true ∧
    isWritten (committing .c3).regs.frameBase = true ∧
    ({ committing .c3 with pend := some ⟨t1, some m1v⟩ } : State).pend = some ⟨t1, some m1v⟩ := by decide
theorem witness_PanAndSetbaseWriteFrameBase : booted.seq = .idle ∧ (committing .c2).seq ≠ .idle := by decide
theorem witness_PanInRangeStaysInsideBuffer : -- the last line a mode allows
    (⟨1, 0x10000000#32, 307200⟩ : Buffer).length = requiredBytes m1 ∧ (0x10000000#32).toNat + 307200 ≤ 2 ^ 32 ∧
    (0x10000000#32).toNat % 2 ^ 6 = 0 ∧ 1 ≤ m1.yres.toNat ∧ 1 ≤ lineLength m1 ∧ 240 + m1.yres.toNat ≤ m1.yresVirtual.toNat := by
  decide
theorem witness_PanInRangeStaysInsideBuffer_larger : -- a buffer kept from a taller mode (R245)
    requiredBytes m1 < (⟨1, 0x10000000#32, 614400⟩ : Buffer).length ∧ (0x10000000#32).toNat + 614400 ≤ 2 ^ 32 := by decide
theorem witness_PanInRangeStaysInsideBuffer_unaligned :
    (⟨1, 0x10000004#32, 307200⟩ : Buffer).length = requiredBytes m1 ∧ (0x10000004#32).toNat + 307200 ≤ 2 ^ 32 ∧
    0 + m1.yres.toNat ≤ m1.yresVirtual.toNat ∧ panAddr 3 (0x10000004#32).toNat (lineLength m1) 0 = 0x10000000#32 := by decide
theorem witness_PanYChecksRangeThenPans :
    (blank 0#32).buf = none ∧ booted.buf = some ⟨1, 0x10000000#32, 307200⟩ ∧
    booted.curMode.yresVirtual.toNat < (241#32).toNat + booted.curMode.yres.toNat ∧
    (240#32).toNat + booted.curMode.yres.toNat ≤ booted.curMode.yresVirtual.toNat ∧ booted.seq = .idle := by decide
theorem witness_IrqInitUnmasksUnderrunAndBusError : (blank 0x10#32).seq = .idle ∧ (blank 0x10#32).cfg.layout.wf = true := by
  decide
theorem witness_PollReadsStatusAndHoldsIt :
    (blank 0x12#32).ack = .none ∧ ({ blank 0x12#32 with ack := .pending 2#32 } : State).ack = .pending 2#32 := by decide
theorem witness_PollAcknowledgesWhatItRead :
    ({ scheduled [.resume .evt] with ack := .pending 0x12#32 } : State).fault = none ∧
    ({ scheduled [.resume .evt] with ack := .pending 0x12#32 } : State).ack = .pending 0x12#32 ∧
    ({ scheduled [.resume .evt] with ack := .pending 0x12#32 } : State).schedule = .resume .evt :: [] := by decide
theorem witness_EventBetweenReadAndAckSurvives :
    booted.fault = none ∧ booted.ack = .none ∧ booted.cfg.statusMasked = false ∧ booted.cfg.layout.wf = true ∧
    booted.intStatus.getLsbD (StatusEvent.bit booted.cfg.layout .busError) = false ∧
    EventSet.has ⟨false, false, false, true⟩ .busError = true := by decide
theorem witness_EventBetweenReadAndAckSurvives_masked :
    ({ booted with cfg := { Config.reference with statusMasked := true } } : State).cfg.statusMasked = true ∧
    booted.regs.intEnable = .holds 0x12#32 ∧ (0x12#32).getLsbD (StatusEvent.bit booted.cfg.layout .busError) = true := by
  decide
theorem witness_OnlyAcknowledgeClearsEvents : ∃ t,
    step { scheduled [.resume .evt] with intStatus := 0x12#32, ack := .pending 0x02#32 } = .next t ∧
    (0x12#32).getLsbD (StatusEvent.bit booted.cfg.layout .underrun) = true ∧
    t.intStatus.getLsbD (StatusEvent.bit booted.cfg.layout .underrun) = false := ⟨_, rfl, by decide, by decide⟩
theorem witness_OnlyAcknowledgeClearsEvents_write : ∃ t,
    exec (.wrIntClear 0x02#32) booted = .next t ∧ (0x02#32).getLsbD (StatusEvent.bit booted.cfg.layout .underrun) = true :=
  ⟨_, rfl, by decide⟩
theorem witness_InterruptLineFollowsMask : booted.regs.intEnable = .holds 0x12#32 ∧ booted.cfg.layout.wf = true := by decide
/-- A configuration that shows only unmasked classes in the status word. -/
def cfgMasked : Config := { Config.reference with statusMasked := true }
theorem witness_RaiseSetsShownClasses :
    booted.cfg.layout.wf = true ∧ booted.cfg.statusMasked = false ∧
    ({ booted with cfg := cfgMasked } : State).cfg.statusMasked = true ∧
    ({ booted with cfg := cfgMasked } : State).regs.intEnable = .holds 0x12#32 ∧
    (∀ e : StatusEvent, 31 ≠ e.bit booted.cfg.layout) := ⟨by decide, rfl, rfl, rfl, fun e => by cases e <;> decide⟩
theorem witness_LatchAdoptsMaskedFrameBase :
    booted.regs.frameBase = .holds 0x10000000#32 ∧ booted.cfg.layout.wf = true ∧ booted.scanBase = 0x10000000#32 ∧
    ({ booted with scanBase := 0#32 } : State).scanBase ≠ 0x10000000#32 ∧ booted.cfg.statusMasked = false := by decide
theorem witness_LatchAdoptsMaskedFrameBase_masked : -- NextBase disabled, and enabled
    ({ booted with cfg := cfgMasked, scanBase := 0#32 } : State).cfg.statusMasked = true ∧
    ({ booted with cfg := cfgMasked, scanBase := 0#32 } : State).regs.intEnable = .holds 0x12#32 ∧
    (0x12#32).getLsbD cfgMasked.layout.nextBase = false ∧ (0x16#32).getLsbD cfgMasked.layout.nextBase = true := by decide
theorem witness_EngineStepsChangeStatusAndScanOnly :
    Action.ofEngine .latch = true ∧ Action.ofEngine (.raise ⟨true, true, true, true⟩) = true ∧
    ({ booted with ack := .pending 0x12#32 } : State).ack = .pending 0x12#32 := by decide
theorem witness_EventStepsSpareConfiguration : ∃ t,
    (evtReq (.wrIntClear 2#32)).sparesCfg = true ∧ perform (evtReq (.wrIntClear 2#32)) (committing .c2) = .next t :=
  ⟨_, by decide, rfl⟩
theorem witness_EventStepsSpareConfiguration_converse : ∃ t u,
    perform (.resume .cfg) (committing .c2) = .next t ∧ t.seq = .c3 ∧
    perform (cfgReq .irqInit) (blank 0#32) = .next u ∧ u.regs ≠ (blank 0#32).regs :=
  ⟨_, _, rfl, rfl, rfl, by decide⟩
theorem witness_ReleaseWaitsForGrace :
    ({ booted with retired := [⟨2, 0x10100000#32, 64⟩] } : State).retired[0]? = some ⟨2, 0x10100000#32, 64⟩ ∧
    Buffer.contains ⟨2, 0x10100000#32, 64⟩ booted.scanBase = false ∧
    Buffer.contains ⟨2, 0x10100000#32, 64⟩ 0x1010003F#32 = true ∧
    Buffer.contains ⟨2, 0x10100000#32, 64⟩ 0x10100040#32 = false := by decide
theorem witness_ValidateReportsFirstFailure : -- boundary of rules 2, 4 and 5: exactly met, and missed by one
    ¬ (12000#32).toNat < pixRate m1.pixclock.toNat * bytesPerPixel m1.bitsPerPixel.toNat ∧
    (11999#32).toNat < pixRate m1.pixclock.toNat * bytesPerPixel m1.bitsPerPixel.toNat ∧
    ¬ (240#32).toNat < m1.yres.toNat ∧ (239#32).toNat < m1.yres.toNat ∧
    (cfgFixed.policy = .fixed ∧ m1.yresVirtual.toNat < (481#32).toNat) ∧
    ¬ (307200#32).toNat < requiredBytes m1 ∧ (307199#32).toNat < requiredBytes m1 := by decide
theorem witness_ColourLayoutFollowsDepthAndOrder :
    colorLayout 8 .redHigh = some ⟨⟨0, 8⟩, ⟨0, 8⟩, ⟨0, 8⟩, ⟨0, 0⟩⟩ ∧ supportedDepth 16 ∧ ¬ supportedDepth 15 ∧ colorLayout 16 .redLow = some ⟨⟨0, 5⟩, ⟨5, 6⟩, ⟨11, 5⟩, ⟨0, 0⟩⟩ := by
  unfold supportedDepth; decide
theorem witness_SizerGrowsOrLeavesUntouched : -- capacity exactly enough, and short by one line
    requiredBytes m1 ≤ bufferCapacity booted ∧ booted.cfg.policy = .grow ∧
    bufferCapacity booted < requiredBytes { m1 with yresVirtual := 481#32 } ∧ booted.allocReply = .fails ∧
    requiredBytes { m1 with yresVirtual := 481#32 } < 2 ^ 32 ∧
    regionFresh 0x10100000#32 (requiredBytes { m1 with yresVirtual := 481#32 }) booted = true ∧ booted.seq = .idle ∧
    2 ^ 32 ≤ requiredBytes { m1 with xresVirtual := 65536#32, yresVirtual := 65536#32, bitsPerPixel := 8#32 } := by decide
theorem noMemory_each_cause :
    NoMemory 1 booted ∧ NoMemory (2 ^ 32) { booted with allocReply := .grants 2 0x10100000#32 } ∧
    NoMemory 1 { booted with allocReply := .grants 2 0x10000000#32 } :=
  ⟨.inl rfl, .inr (.inl (by decide)), .inr (.inr ⟨2, 0x10000000#32, rfl, by decide⟩)⟩
theorem witness_FixedInitAllocatesDoubleCapacity :
    307200 = booted.cfg.probeMode.xresVirtual.toNat * (booted.cfg.multiplier * booted.cfg.probeMode.yres.toNat)
      * bytesPerPixel booted.cfg.probeMode.bitsPerPixel.toNat ∧ booted.allocReply = .fails ∧ 307200 < 2 ^ 32 ∧
    regionFresh 0x10100000#32 307200 booted = true ∧ booted.seq = .idle := by decide
theorem witness_FixedInitAllocatesDoubleCapacity_wf :
    cfgFixed.wf = true ∧ cfgFixed.policy = .fixed ∧ requiredBytes cfgFixed.probeMode = 307200 := by decide
theorem validated_m1 :
    validateMode .reference m1 m1 66000 none = .ok m1v ∧ validateMode cfgFixed m1 m1 66000 (some 307200) = .ok m1v := ⟨rfl, rfl⟩
theorem witness_SetModeKeepsValidatedMode :
    validateMode booted.cfg m1 booted.curMode booted.cfg.clockKhz.toNat
      (match booted.cfg.policy with | .fixed => some (bufferCapacity booted) | .grow => none) = .ok m1v ∧
    requiredBytes m1v ≤ bufferCapacity booted ∧
    validateMode cfgFixed m1 booted.curMode cfgFixed.clockKhz.toNat (some (bufferCapacity booted)) = .ok m1v ∧
    cfgFixed.policy = .fixed := ⟨rfl, by decide, rfl, rfl⟩
theorem witness_SetModeKeepsValidatedMode_grow :
    validateMode booted.cfg { m1 with yresVirtual := 960#32 } booted.curMode booted.cfg.clockKhz.toNat none =
      .ok { m1v with yresVirtual := 960#32 } ∧ booted.cfg.policy = .grow ∧
    bufferCapacity booted < requiredBytes { m1v with yresVirtual := 960#32 } ∧
    requiredBytes { m1v with yresVirtual := 960#32 } < 2 ^ 32 ∧
    regionFresh 0x10100000#32 (requiredBytes { m1v with yresVirtual := 960#32 }) booted = true ∧ booted.seq = .idle :=
  ⟨rfl, rfl, by decide, by decide, by decide, rfl⟩
theorem witness_FailedSetModeChangesNothing : ∃ t,
    booted.out = none ∧ exec (.setMode { m1 with yresVirtual := 960#32 }) booted = .next t ∧
    t.out = some (.error (.sizer .outOfMemory)) := ⟨_, rfl, rfl, rfl⟩
theorem witness_FailedSetModeChangesNothing_validation :
    validateMode booted.cfg { m1 with xres := 640#32 } booted.curMode booted.cfg.clockKhz.toNat
      (match booted.cfg.policy with | .fixed => some (bufferCapacity booted) | .grow => none) = .error .resolutionFixed := rfl
theorem witness_FailedSetModeChangesNothing_allocation :
    validateMode booted.cfg { m1 with yresVirtual := 960#32 } booted.curMode booted.cfg.clockKhz.toNat none =
      .ok { m1v with yresVirtual := 960#32 } ∧ booted.cfg.policy = .grow ∧
    bufferCapacity booted < requiredBytes { m1v with yresVirtual := 960#32 } ∧
    NoMemory (requiredBytes { m1v with yresVirtual := 960#32 }) booted := ⟨rfl, rfl, by decide, .inl rfl⟩
theorem witness_SetModeRunsToCompletion_grow : -- program P1: the first mode set, from the null buffer
    (blank 0#32).fault = none ∧ (blank 0#32).seq = .idle ∧ (blank 0#32).setModeGap = none ∧
    validateMode (blank 0#32).cfg m1 (blank 0#32).curMode (blank 0#32).cfg.clockKhz.toNat none = .ok m1v ∧
    (blank 0#32).cfg.policy = .grow ∧ bufferCapacity (blank 0#32) < requiredBytes m1v ∧ requiredBytes m1v < 2 ^ 32 ∧
    regionFresh 0x10000000#32 (requiredBytes m1v) (blank 0#32) = true ∧
    (∀ a ∈ [evtReq .pollAck] ++ [.raise ⟨true, false, false, false⟩] ++ [.resume .evt] ++ [.latch], a.sparesCfg = true) :=
  ⟨rfl, rfl, rfl, rfl, rfl, by decide, by decide, by decide, by decide⟩
theorem witness_SetModeRunsToCompletion :
    booted.fault = none ∧ booted.seq = .idle ∧ booted.setModeGap = none ∧ m1.wf = true ∧
    validateMode booted.cfg m1 booted.curMode booted.cfg.clockKhz.toNat
      (match booted.cfg.policy with | .fixed => some (bufferCapacity booted) | .grow => none) = .ok m1v ∧
    requiredBytes m1v ≤ bufferCapacity booted ∧ FieldsFit booted.cfg m1v booted.cfg.clockKhz ∧
    booted.regs.frameBase = .holds 0x10000000#32 :=
  ⟨rfl, rfl, rfl, by decide, rfl, by decide, ⟨fieldsFit_m1.divno, fieldsFit_m1.ppl, fieldsFit_m1.hw, fieldsFit_m1.hfp,
    fieldsFit_m1.hbp, fieldsFit_m1.lpp, fieldsFit_m1.vw, fieldsFit_m1.vfp, fieldsFit_m1.vbp⟩, rfl⟩
theorem witness_ValidatedModeNeverExceedsBus : validateMode .reference m1 m1 (66000#32).toNat none = .ok m1v := rfl
/-- A `SET_MODE` between its first step and its commit, of a validated mode whose left margin is too wide. -/
def wideGap : State :=
  { scheduled [.resume .cfg] with setModeGap := some { m1v with leftMargin := 300#32 } }
theorem witness_ValidatedModeNeverExceedsBus_range :
    validateMode wideGap.cfg { m1 with leftMargin := 300#32 } wideGap.curMode wideGap.cfg.clockKhz.toNat none =
      .ok { m1v with leftMargin := 300#32 } ∧ wideGap.fault = none ∧ wideGap.seq = .idle ∧
    wideGap.schedule = [.resume .cfg] ∧ wideGap.cfg.overflowPolicy = .fault ∧
    ¬ FieldsFit wideGap.cfg { m1v with leftMargin := 300#32 } wideGap.cfg.clockKhz :=
  ⟨rfl, rfl, rfl, rfl, rfl, fun h => absurd h.hbp (by decide)⟩
theorem test_set_mode_commit_faults : -- 299 does not fit eight bits; the buffer and the registers stay (R285)
    field (fun t => (t.fault, t.regs, t.buf, t.setModeGap)) (step wideGap) =
      some (some (.encodeRange .hbp 299), wideGap.regs, wideGap.buf, none) := by decide
theorem witness_ResolutionIsInvariant : ∃ t,
    ResolutionFixed { scheduled [.resume .cfg] with setModeGap := some m1v } ∧
    step { scheduled [.resume .cfg] with setModeGap := some m1v } = .next t ∧ t.pend = some ⟨t1, some m1v⟩ :=
  ⟨_, ⟨⟨rfl, rfl, rfl⟩, fun v h => by cases h; exact ⟨rfl, rfl, rfl⟩, fun p v h => by cases h⟩, rfl, rfl⟩
theorem witness_BuffersStayDisjoint : ∃ t,
    BuffersDisjoint (scheduled [.issue .cfg (encode (.sizerEnsure { m1 with yresVirtual := 960#32 })) (.grants 2 0x10100000#32)]) ∧
    step (scheduled [.issue .cfg (encode (.sizerEnsure { m1 with yresVirtual := 960#32 })) (.grants 2 0x10100000#32)]) = .next t ∧
    (heldBuffers t).length = 2 := by
  refine ⟨_, ⟨fun b hb => ?_, ?_⟩, rfl, rfl⟩
  · have hb : b ∈ [(⟨1, 0x10000000#32, 307200⟩ : Buffer)] := hb
    cases List.mem_singleton.mp hb
    decide
  · exact List.pairwise_singleton _ _

end Sys2Proof.Tests
end

/-! The family of the scope: the panel resolution as an invariant (00_scope.md R4), how every operation ends (R10), and the
step that runs a decoded request (R11, R12). -/

namespace Sys2Proof.Machine

/-! ### The panel resolution -/

theorem SameResolution.trans {a b c : DisplayMode} (h : SameResolution a b) (h' : SameResolution b c) :
    SameResolution a c := by
  obtain ⟨hx, hy, hv⟩ := h
  obtain ⟨hx', hy', hv'⟩ := h'
  exact ⟨hx.trans hx', hy.trans hy', hv.trans hv'⟩

/-- `t` has the configuration of `s`, its current mode, and its modes on their way to become current. -/
def ModesKept (s t : State) : Prop :=
  t.cfg = s.cfg ∧ t.curMode = s.curMode ∧ t.setModeGap = s.setModeGap ∧ t.pend = s.pend

theorem ResolutionFixed.of_modesKept {s t : State} (h : ResolutionFixed s) (hk : ModesKept s t) : ResolutionFixed t := by
  obtain ⟨hcfg, hcur, hgap, hpend⟩ := hk
  simpa only [ResolutionFixed, hcfg, hcur, hgap, hpend] using h

theorem modesKept_endWith (o : OpOutcome) (s : State) : ModesKept s (endWith o s) := by
  cases o <;> exact ⟨rfl, rfl, rfl, rfl⟩

theorem modesKept_startPoll (s : State) : ModesKept s (startPoll s) := by
  rcases startPoll_cases s with ⟨-, h⟩ | ⟨w, -, h⟩ <;> rw [h] <;> exact ⟨rfl, rfl, rfl, rfl⟩

theorem modesKept_continuePoll (s : State) : ModesKept s (continuePoll s) := by
  rcases continuePoll_cases s with ⟨-, h⟩ | ⟨w, -, h⟩ <;> rw [h] <;> exact ⟨rfl, rfl, rfl, rfl⟩

theorem Activated.modesKept {l : List Buffer} {s t : State} (h : Activated l s t) : ModesKept s t := by
  obtain ⟨_, _, _, -, -, -, rfl⟩ := h
  exact ⟨rfl, rfl, rfl, rfl⟩

theorem modesKept_perform_engine {a : Action} (ha : a.ofEngine = true) {s t : State} (h : perform a s = .next t) :
    ModesKept s t := by
  obtain ⟨u, hu, he⟩ := perform_engine ha s
  rw [h] at hu
  cases hu
  rw [he]
  exact ⟨rfl, rfl, rfl, rfl⟩

/-- A commit that starts latches its own mode, so that mode has to have the panel resolution too. -/
theorem ResolutionFixed.after_startCommit {s : State} (h : ResolutionFixed s) {v : Option DisplayMode}
    (hv : ∀ x, v = some x → SameResolution x s.cfg.probeMode) (m : DisplayMode) (k : Word) :
    ResolutionFixed (startCommit v m k s) := by
  rcases startCommit_cases v m k s with ⟨-, hs⟩ | ⟨f, -, -, hs⟩ | ⟨e, -, -, hs⟩ | ⟨t, -, -, hs⟩ <;> rw [hs]
  · exact h.of_modesKept (modesKept_endWith (.refuse _) s)
  · exact h.of_modesKept (modesKept_endWith (.fault f) s)
  · exact h.of_modesKept (modesKept_endWith (.error _) s)
  · obtain ⟨hcur, hgap, -⟩ := h
    exact ⟨hcur, hgap, fun p x hp hx => by cases hp; exact hv x hx⟩

/-- The last write of a commit makes the latched mode current, with another `pixclock` at most (R247). -/
theorem ResolutionFixed.after_endCommit {s : State} (h : ResolutionFixed s) {p : Pend} (hp : s.pend = some p) :
    ResolutionFixed (endCommit p s) := by
  obtain ⟨hcur, hgap, hpend⟩ := h
  rcases endCommit_cases p s with ⟨-, hs⟩ | ⟨-, -, hs⟩ | ⟨v, -, hv, hs⟩ <;> rw [hs]
  · exact ⟨hcur, hgap, hpend⟩
  · exact ⟨hcur, hgap, nofun⟩
  · exact ⟨hpend p v hp hv, hgap, nofun⟩

theorem ResolutionFixed.after_continueCommit {s : State} (h : ResolutionFixed s) : ResolutionFixed (continueCommit s) := by
  rcases continueCommit_cases s with hs | ⟨p, -, -, hs⟩ | ⟨p, -, -, hs⟩ | ⟨p, -, hp, hs⟩ <;> rw [hs]
  · exact h
  · exact h.of_modesKept ⟨rfl, rfl, rfl, rfl⟩
  · exact h.of_modesKept ⟨rfl, rfl, rfl, rfl⟩
  · exact h.after_endCommit hp

/-- The mode of a `SET_MODE` passes from the gap to the commit that starts. -/
theorem ResolutionFixed.after_continueCfg {s : State} (h : ResolutionFixed s) : ResolutionFixed (continueCfg s) := by
  rcases continueCfg_cases s with ⟨v, hg, hs⟩ | ⟨-, hs⟩ <;> rw [hs]
  · obtain ⟨hcur, hgap, hpend⟩ := h
    have h0 : ResolutionFixed { s with setModeGap := none } := ⟨hcur, nofun, hpend⟩
    exact h0.after_startCommit (fun x hx => hgap x (hg.trans hx)) v s.cfg.clockKhz
  · exact h.after_continueCommit

theorem Effect.resolutionFixed {i : Instr} {s t : State} (he : Effect i s t) (h : ResolutionFixed s) :
    ResolutionFixed t := by
  cases he with
  | ends o => exact h.of_modesKept (modesKept_endWith o s)
  | stores r v o _ => exact h.of_modesKept ⟨rfl, rfl, rfl, rfl⟩
  | masks _ => exact h.of_modesKept ⟨rfl, rfl, rfl, rfl⟩
  | clears v _ => exact h.of_modesKept ⟨rfl, rfl, rfl, rfl⟩
  | readsStatus _ => exact h.of_modesKept ⟨rfl, rfl, rfl, rfl⟩
  | readsStored r w _ => exact h.of_modesKept ⟨rfl, rfl, rfl, rfl⟩
  | polls _ => exact h.of_modesKept (modesKept_startPoll s)
  | commits m k _ => exact h.after_startCommit (v := none) nofun m k
  | sizes l u _ ha _ => exact (h.of_modesKept ha.modesKept).of_modesKept ⟨rfl, rfl, rfl, rfl⟩
  | setsMode v u _ hv hu =>
    have hk : ModesKept s u := by
      rcases hu with rfl | ha
      · exact ⟨rfl, rfl, rfl, rfl⟩
      · exact ha.modesKept
    have ⟨_, hcurMode, _⟩ := hk
    obtain ⟨hcur, -, hpend⟩ := h.of_modesKept hk
    have hprobe : SameResolution v u.cfg.probeMode := (hcurMode ▸ hv).trans hcur
    exact ⟨hcur, fun x hx => by cases hx; exact hprobe, hpend⟩

theorem ResolutionFixed.after_rejected {r : Reject} {s t : State} (h : ResolutionFixed s) (ht : rejected r s = .next t) :
    ResolutionFixed t := by
  cases r <;> cases ht <;> exact h.of_modesKept (modesKept_endWith (.refuse _) s)

theorem ResolutionFixed.after_issue {a : Agent} {c : Code} {reply : AllocReply} {s t : State} (h : ResolutionFixed s)
    (ht : issue a c reply s = .next t) : ResolutionFixed t := by
  rcases issue_cases a c reply s with ⟨r, -, hi⟩ | ⟨i, r, -, -, hi⟩ | ⟨i, -, -, hi⟩ <;> rw [hi] at ht
  · exact h.after_rejected ht
  · cases ht
    exact h.of_modesKept (modesKept_endWith (.refuse r) s)
  · exact (exec_next ht).resolutionFixed (h.of_modesKept ⟨rfl, rfl, rfl, rfl⟩)

theorem ResolutionFixed.after_hostFree {k : Nat} {s t : State} (h : ResolutionFixed s) (ht : hostFree k s = .next t) :
    ResolutionFixed t := by
  rcases hostFree_cases k s with ⟨-, hf⟩ | ⟨b, -, -, hf⟩ | ⟨b, -, -, hf⟩ <;> rw [hf] at ht <;> cases ht
  · exact h
  · exact h.of_modesKept ⟨rfl, rfl, rfl, rfl⟩

/-- Whichever agent steps, the panel resolution stays the probe mode's (R4). -/
theorem ResolutionFixed.after_perform {a : Action} {s t : State} (h : ResolutionFixed s) (ht : perform a s = .next t) :
    ResolutionFixed t := by
  cases a with
  | issue agent c reply => exact h.after_issue ht
  | resume ctx =>
    cases ctx with
    | cfg =>
      cases ht
      exact h.after_continueCfg
    | evt =>
      cases ht
      exact h.of_modesKept (modesKept_continuePoll s)
  | raise e => exact h.of_modesKept (modesKept_perform_engine rfl ht)
  | latch => exact h.of_modesKept (modesKept_perform_engine rfl ht)
  | scan => exact h.of_modesKept (modesKept_perform_engine rfl ht)
  | drawReserved w => exact h.of_modesKept (modesKept_perform_engine rfl ht)
  | free k => exact h.after_hostFree ht

/-- Settles O59: a mode becomes current only out of a commit, enters a commit only out of the gap of a `SET_MODE`, and enters
the gap only when the validator has compared it with the current mode. -/
theorem resolutionIsInvariant : Obligations.ResolutionIsInvariant := by
  intro s t h ht
  have hbegin (rest : List Action) : ResolutionFixed (beginStep rest s) := h.of_modesKept ⟨rfl, rfl, rfl, rfl⟩
  obtain ⟨-, ⟨-, rfl⟩ | ⟨a, rest, -, hp⟩⟩ := step_next ht
  · exact hbegin []
  · exact (hbegin rest).after_perform hp

/-! ### How an operation ends -/

/-- What the output of `t` tells of the latch and the mark, for an operation run on `s` (R34, R285, R286). -/
def OutputTellsLatchAndMark (s t : State) : Prop :=
  (∀ f, t.out = some (.fault f) → t = { s with fault := some (s.fault.getD f), out := some (.fault f) }) ∧
  (∀ r, t.out = some (.refuse r) → t = { s with refused := true, out := some (.refuse r) }) ∧
  ((∀ f, t.out ≠ some (.fault f)) → t.fault = s.fault) ∧
  ((∀ r, t.out ≠ some (.refuse r)) → t.refused = s.refused)

/-- The latch and the mark of `t` are those of `s`, and what it returns, if anything, is a value. -/
def EndsQuietly (s t : State) : Prop :=
  t.fault = s.fault ∧ t.refused = s.refused ∧ (t.out = s.out ∨ ∃ v, t.out = some (.ok v))

theorem Activated.endsQuietly {l : List Buffer} {s t : State} (h : Activated l s t) : EndsQuietly s t := by
  obtain ⟨_, _, _, -, -, -, rfl⟩ := h
  exact ⟨rfl, rfl, .inl rfl⟩

/-- An operation that does more than end (R10) leaves latch and mark alone. -/
theorem Effect.ends_or_quiet {i : Instr} {s t : State} (he : Effect i s t) :
    (∃ o, t = endWith o s) ∨ EndsQuietly s t := by
  cases he with
  | ends o => exact .inl ⟨o, rfl⟩
  | stores r v o _ => exact .inr ⟨rfl, rfl, .inr ⟨o, rfl⟩⟩
  | masks _ => exact .inr ⟨rfl, rfl, .inr ⟨.unit, rfl⟩⟩
  | clears v _ => exact .inr ⟨rfl, rfl, .inr ⟨.unit, rfl⟩⟩
  | readsStatus _ => exact .inr ⟨rfl, rfl, .inr ⟨.word _, rfl⟩⟩
  | readsStored r w _ => exact .inr ⟨rfl, rfl, .inr ⟨.word w, rfl⟩⟩
  | polls _ =>
    rcases startPoll_cases s with ⟨-, h⟩ | ⟨w, -, h⟩ <;> rw [h]
    · exact .inr ⟨rfl, rfl, .inl rfl⟩
    · exact .inl ⟨.refuse _, rfl⟩
  | commits m k _ =>
    rcases startCommit_cases none m k s with ⟨-, h⟩ | ⟨f, -, -, h⟩ | ⟨e, -, -, h⟩ | ⟨c, -, -, h⟩ <;> rw [h]
    · exact .inl ⟨.refuse _, rfl⟩
    · exact .inl ⟨.fault f, rfl⟩
    · exact .inl ⟨.error _, rfl⟩
    · exact .inr ⟨rfl, rfl, .inl rfl⟩
  | sizes l u _ ha _ =>
    obtain ⟨hf, hr, -⟩ := ha.endsQuietly
    exact .inr ⟨hf, hr, .inr ⟨.unit, rfl⟩⟩
  | setsMode v u _ _ hu =>
    rcases hu with rfl | ha
    · exact .inr ⟨rfl, rfl, .inl rfl⟩
    · exact .inr ha.endsQuietly

theorem outputTellsLatchAndMark_endWith (o : OpOutcome) (s : State) : OutputTellsLatchAndMark s (endWith o s) := by
  cases o with
  | ok v => exact ⟨nofun, nofun, fun _ => rfl, fun _ => rfl⟩
  | error e => exact ⟨nofun, nofun, fun _ => rfl, fun _ => rfl⟩
  | fault f => exact ⟨fun g hg => by cases hg; rfl, nofun, fun hn => absurd rfl (hn f), fun _ => rfl⟩
  | refuse r => exact ⟨nofun, fun q hq => by cases hq; rfl, fun _ => rfl, fun hn => absurd rfl (hn r)⟩

/-- Where the outputs were clear, a quiet end reports no fault and no refusal. -/
theorem EndsQuietly.outputTellsLatchAndMark {s t : State} (h : EndsQuietly s t) (hs : s.out = none) :
    OutputTellsLatchAndMark s t := by
  obtain ⟨hf, hr, hout⟩ := h
  have hok : t.out = none ∨ ∃ v, t.out = some (.ok v) := hs ▸ hout
  exact ⟨fun f h => by simp [h] at hok, fun r h => by simp [h] at hok, fun _ => hf, fun _ => hr⟩

/-- Settles O5: an operation ends in one of the four ways and does nothing else, or ends quietly. -/
theorem everyOperationRuns : Obligations.EveryOperationRuns := by
  intro i s
  obtain ⟨t, ht, he⟩ := exec_effect i s
  refine ⟨t, ht, fun hs => ?_⟩
  rcases he.ends_or_quiet with ⟨o, rfl⟩ | hq
  · exact outputTellsLatchAndMark_endWith o s
  · exact hq.outputTellsLatchAndMark hs

/-! ### The step that runs a request -/

theorem step_of_schedule_cons {s : State} {a : Action} {rest : List Action} (hf : s.fault = none)
    (hs : s.schedule = a :: rest) : step s = perform a (beginStep rest s) := by
  simp only [step, hf, hs]

theorem issue_of_gate_none {a : Agent} {c : Code} {i : Instr} {s : State} (hd : decode c = .ok i)
    (hg : gate a i s = none) (reply : AllocReply) : issue a c reply s = exec i { s with allocReply := reply } := by
  simp only [issue, hd, hg]

/-- Settles O4: the gate lets such a request through, so the step is the operation itself. -/
theorem stepRunsDecodedOperation : Obligations.StepRunsDecodedOperation := by
  intro s a c reply rest i hf hs hd ha hfree
  have hgate : gate a i (beginStep rest s) = none := by
    refine gate_none_iff.mpr ⟨ha, fun ⟨hi, hbusy⟩ => ?_⟩
    have hidle : cfgBusy (beginStep rest s) = false := cfgBusy_eq_false_iff.mpr (hfree hi)
    simp [hidle] at hbusy
  calc step s = issue a c reply (beginStep rest s) := step_of_schedule_cons hf hs
    _ = exec i { beginStep rest s with allocReply := reply } := issue_of_gate_none hd hgate reply

end Sys2Proof.Machine

/-! The family of the state (10_state.md): what a step can do to the configuration context's state, said once, and the two
invariants drawn from it (R32, R35, R71); what a step keeps (R31, R34, R73); the interrupt line and the latch of the frame
base (R36, R37); reset (R42). -/

namespace Sys2Proof.Machine

/-! ### The configuration context's part of the state -/

/-- `t` has everything of the configuration context as `s` has it (R31): the storing registers, the commit in progress, the
host state and the configuration. Each field is proved by `rfl` where no proof is given. -/
structure ConfigKept (s t : State) : Prop where
  regs : t.regs = s.regs := by rfl
  seq : t.seq = s.seq := by rfl
  pend : t.pend = s.pend := by rfl
  curMode : t.curMode = s.curMode := by rfl
  buf : t.buf = s.buf := by rfl
  retired : t.retired = s.retired := by rfl
  irqInited : t.irqInited = s.irqInited := by rfl
  setModeGap : t.setModeGap = s.setModeGap := by rfl
  cfg : t.cfg = s.cfg := by rfl

theorem ConfigKept.trans {s t u : State} (h : ConfigKept s t) (h' : ConfigKept t u) : ConfigKept s u where
  regs := h'.regs.trans h.regs
  seq := h'.seq.trans h.seq
  pend := h'.pend.trans h.pend
  curMode := h'.curMode.trans h.curMode
  buf := h'.buf.trans h.buf
  retired := h'.retired.trans h.retired
  irqInited := h'.irqInited.trans h.irqInited
  setModeGap := h'.setModeGap.trans h.setModeGap
  cfg := h'.cfg.trans h.cfg

theorem configKept_endWith (o : OpOutcome) (s : State) : ConfigKept s (endWith o s) := by
  cases o <;> exact {}

theorem configKept_startPoll (s : State) : ConfigKept s (startPoll s) := by
  rcases startPoll_cases s with ⟨-, h⟩ | ⟨w, -, h⟩ <;> rw [h] <;> exact {}

theorem configKept_continuePoll (s : State) : ConfigKept s (continuePoll s) := by
  rcases continuePoll_cases s with ⟨-, h⟩ | ⟨w, -, h⟩ <;> rw [h] <;> exact {}

/-- A step of the display engine changes `INT_STATUS` and `scan_base` alone (R295). -/
theorem perform_engine_next {a : Action} (ha : a.ofEngine = true) {s t : State} (h : perform a s = .next t) :
    t = { s with intStatus := t.intStatus, scanBase := t.scanBase } := by
  obtain ⟨u, hu, he⟩ := perform_engine ha s
  rw [h] at hu
  cases hu
  exact he

theorem configKept_perform_engine {a : Action} (ha : a.ofEngine = true) {s t : State} (h : perform a s = .next t) :
    ConfigKept s t := by
  rw [perform_engine_next ha h]
  exact {}

/-! ### What a request and a release leave -/

/-- A request that leaves a next state is refused, or runs past the gate. -/
theorem issue_next {a : Agent} {c : Code} {reply : AllocReply} {s t : State} (h : issue a c reply s = .next t) :
    (∃ r, t = refuse r s) ∨
    ∃ i, decode c = .ok i ∧ gate a i s = none ∧ exec i { s with allocReply := reply } = .next t := by
  rcases issue_cases a c reply s with ⟨r, -, hi⟩ | ⟨i, r, -, -, hi⟩ | ⟨i, hd, hg, hi⟩ <;> rw [hi] at h
  · cases r <;> cases h <;> exact .inl ⟨_, rfl⟩
  · cases h
    exact .inl ⟨r, rfl⟩
  · exact .inr ⟨i, hd, hg, h⟩

theorem hostFree_next {k : Nat} {s t : State} (h : hostFree k s = .next t) :
    t = s ∨ t = { s with retired := s.retired.eraseIdx k } := by
  rcases hostFree_cases k s with ⟨-, hf⟩ | ⟨b, -, -, hf⟩ | ⟨b, -, -, hf⟩ <;> rw [hf] at h <;> cases h
  · exact .inl rfl
  · exact .inr rfl

/-- The gate lets an operation of the configuration context through only while no call of it is in progress (R170). -/
theorem idle_of_gate_none {a : Agent} {i : Instr} {s : State} (h : gate a i s = none) (hi : owner i = .cfg) :
    s.seq = .idle ∧ s.setModeGap = none := by
  obtain ⟨-, hfree⟩ := gate_none_iff.mp h
  exact cfgBusy_eq_false_iff.mp (by simpa [hi] using hfree)

/-! ### The moves of the configuration context's state -/

/-- Everything one step of an agent can do to the configuration context's state, one constructor per kind of move. -/
inductive ConfigMove (s t : State) : Prop where
  /-- It leaves that state alone. -/
  | keeps (h : ConfigKept s t)
  /-- Registers are written while no commit is in progress. -/
  | stores (hidle : s.seq = .idle) (x : Regs) (b : Bool) (h : ConfigKept { s with regs := x, irqInited := b } t)
  /-- A `SET_MODE` waits for its commit, or waits no longer (log 11). -/
  | gap (g : Option DisplayMode) (hg : g ≠ none → s.seq = .idle) (h : ConfigKept { s with setModeGap := g } t)
  /-- A commit starts (R32). -/
  | starts (hidle : s.seq = .idle) (p : Pend) (hbus : t.bus = some (.write .clockPolarity p.timing.cp))
      (h : ConfigKept { storeReg .clockPolarity p.timing.cp s with seq := .c1, pend := some p, setModeGap := none } t)
  /-- The second write of a commit. -/
  | writesHtiming (hseq : s.seq = .c1) (p : Pend) (hp : s.pend = some p)
      (hbus : t.bus = some (.write .htiming p.timing.ht))
      (h : ConfigKept { storeReg .htiming p.timing.ht s with seq := .c2 } t)
  /-- The third write of a commit. -/
  | writesVtiming (hseq : s.seq = .c2) (p : Pend) (hp : s.pend = some p)
      (hbus : t.bus = some (.write .vtiming p.timing.vt))
      (h : ConfigKept { storeReg .vtiming p.timing.vt s with seq := .c3 } t)
  /-- The fourth write of a commit, which ends it. -/
  | completes (hseq : s.seq = .c3) (p : Pend) (hp : s.pend = some p) (m : DisplayMode)
      (hbus : t.bus = some (.write .control p.timing.ct))
      (h : ConfigKept { storeReg .control p.timing.ct s with seq := .idle, pend := none, curMode := m } t)
  /-- The sizer makes a fresh region the active buffer, within a `SET_MODE` or not (R245, R246). -/
  | grows (hidle : s.seq = .idle) (hd : Nat) (pa : Word) (n : Nat) (hfresh : regionFresh pa n s = true) (l : List Buffer)
      (hl : l = [] ∨ l = s.buf.toList) (g : Option DisplayMode)
      (h : ConfigKept { activate hd pa n l s with setModeGap := g } t)
  /-- The host releases a retired buffer (R325). -/
  | releases (k : Nat) (h : ConfigKept { s with retired := s.retired.eraseIdx k } t)

/-- A commit that starts takes the mode of the gap, if there is one, and then writes or ends at once. -/
theorem configMove_startCommit {s u : State} (hu : ConfigKept { s with setModeGap := none } u) (v : Option DisplayMode)
    (m : DisplayMode) (k : Word) : ConfigMove s (startCommit v m k u) := by
  have hends (o : OpOutcome) : ConfigMove s (endWith o u) := .gap none nofun (hu.trans (configKept_endWith o u))
  rcases startCommit_cases v m k u with ⟨-, h⟩ | ⟨f, -, -, h⟩ | ⟨e, -, -, h⟩ | ⟨c, hidle, -, h⟩ <;> rw [h]
  · exact hends (.refuse _)
  · exact hends (.fault f)
  · exact hends (.error _)
  · exact .starts (hu.seq ▸ hidle) ⟨c, v⟩ rfl { hu with
      regs := congrArg (setReg · .clockPolarity c.cp) hu.regs, seq := rfl, pend := rfl }

theorem configMove_continueCommit (s : State) : ConfigMove s (continueCommit s) := by
  rcases continueCommit_cases s with h | ⟨p, hseq, hp, h⟩ | ⟨p, hseq, hp, h⟩ | ⟨p, hseq, hp, h⟩ <;> rw [h]
  · exact .keeps {}
  · exact .writesHtiming hseq p hp rfl {}
  · exact .writesVtiming hseq p hp rfl {}
  · rcases endCommit_cases p s with ⟨-, he⟩ | ⟨-, -, he⟩ | ⟨v, -, -, he⟩ <;> rw [he]
    · exact .keeps {}
    · exact .completes hseq p hp s.curMode rfl {}
    · exact .completes hseq p hp _ rfl {}

theorem configMove_continueCfg (s : State) : ConfigMove s (continueCfg s) := by
  rcases continueCfg_cases s with ⟨v, -, h⟩ | ⟨-, h⟩ <;> rw [h]
  · exact configMove_startCommit {} (some v) v s.cfg.clockKhz
  · exact configMove_continueCommit s

/-- An operation past the gate moves the configuration context's state so; the allocator's answer is no part of it. -/
theorem Effect.configMove {i : Instr} {s t : State} {reply : AllocReply} (he : Effect i { s with allocReply := reply } t)
    (hfree : owner i = .cfg → s.seq = .idle ∧ s.setModeGap = none) : ConfigMove s t := by
  have hs : ConfigKept s { s with allocReply := reply } := {}
  cases he with
  | ends o => exact .keeps (hs.trans (configKept_endWith o _))
  | stores r v o hi => exact .stores (hfree hi).1 (setReg s.regs r v) s.irqInited {}
  | masks hi => exact .stores (hfree hi).1 (setReg s.regs .intEnable _) true {}
  | clears v _ => exact .keeps {}
  | readsStatus _ => exact .keeps {}
  | readsStored r w _ => exact .keeps {}
  | polls _ => exact .keeps (hs.trans (configKept_startPoll _))
  | commits m k hi => exact configMove_startCommit (u := { s with allocReply := reply }) { setModeGap := (hfree hi).2 } none m k
  | sizes l u _ ha hl =>
    obtain ⟨hd, pa, n, hidle, hfresh, -, rfl⟩ := ha
    exact .grows hidle hd pa n hfresh l hl s.setModeGap {}
  | setsMode v u hi _ hu =>
    rcases hu with rfl | ⟨hd, pa, n, hidle, hfresh, -, rfl⟩
    · exact .gap (some v) (fun _ => (hfree hi).1) {}
    · exact .grows hidle hd pa n hfresh s.buf.toList (.inr rfl) (some v) {}

/-- Whichever agent steps, the configuration context's state moves in one of these ways. -/
theorem perform_configMove {a : Action} {s t : State} (h : perform a s = .next t) : ConfigMove s t := by
  cases a with
  | issue agent c reply =>
    rcases issue_next h with ⟨r, rfl⟩ | ⟨i, -, hg, hx⟩
    · exact .keeps {}
    · exact (exec_next hx).configMove (idle_of_gate_none hg)
  | resume ctx =>
    cases ctx with
    | cfg =>
      cases h
      exact configMove_continueCfg s
    | evt =>
      cases h
      exact .keeps (configKept_continuePoll s)
  | raise e => exact .keeps (configKept_perform_engine rfl h)
  | latch => exact .keeps (configKept_perform_engine rfl h)
  | scan => exact .keeps (configKept_perform_engine rfl h)
  | drawReserved w => exact .keeps (configKept_perform_engine rfl h)
  | free k =>
    rcases hostFree_next h with rfl | rfl
    · exact .keeps {}
    · exact .releases k {}

/-- A step moves the configuration context's state in one of these ways; that it was counted and its entry taken off the
schedule is no part of that state. -/
theorem step_configMove {s t : State} (h : step s = .next t) : ∃ rest, ConfigMove (beginStep rest s) t := by
  obtain ⟨-, ⟨-, rfl⟩ | ⟨a, rest, -, hp⟩⟩ := step_next h
  · exact ⟨[], .keeps {}⟩
  · exact ⟨rest, perform_configMove hp⟩

/-! ### The registers and the commit in progress -/

theorem commitOrder_of_idle {s : State} (hseq : s.seq = .idle) (hp : s.pend = none) : CommitOrder s := by
  simp [CommitOrder, hseq, hp]

theorem CommitOrder.pend_of_idle {s : State} (h : CommitOrder s) (hseq : s.seq = .idle) : s.pend = none := by
  simpa [CommitOrder, hseq] using h

/-- The invariant speaks of the sequencer, its latch, the registers, and whether a `SET_MODE` waits. -/
theorem CommitOrder.congr {s t : State} (h : CommitOrder s) (hseq : t.seq = s.seq) (hp : t.pend = s.pend)
    (hr : t.regs = s.regs) (hg : t.setModeGap ≠ none → s.seq = .idle) : CommitOrder t := by
  obtain ⟨-, hpos⟩ := h
  refine ⟨fun hne => hseq.trans (hg hne), ?_⟩
  simpa only [hseq, hp, hr] using hpos

theorem CommitOrder.after_move {s t : State} (h : CommitOrder s) (hm : ConfigMove s t) : CommitOrder t := by
  have hgap := h.1
  cases hm with
  | keeps k => exact h.congr k.seq k.pend k.regs (k.setModeGap ▸ hgap)
  | stores hidle x b k => exact commitOrder_of_idle (k.seq.trans hidle) (k.pend.trans (h.pend_of_idle hidle))
  | gap g hg k => exact h.congr k.seq k.pend k.regs (k.setModeGap ▸ hg)
  | starts hidle p _ k => simp [CommitOrder, k.seq, k.pend, k.regs, k.setModeGap, setReg]
  | writesHtiming hseq p hp _ k =>
    have ⟨hnone, hcp⟩ : s.setModeGap = none ∧ s.regs.clockPolarity = .holds p.timing.cp := by
      simpa [CommitOrder, hseq, hp] using h
    simp [CommitOrder, k.seq, k.pend, k.regs, k.setModeGap, setReg, hp, hnone, hcp]
  | writesVtiming hseq p hp _ k =>
    have ⟨hnone, hcp, hht⟩ : s.setModeGap = none ∧ s.regs.clockPolarity = .holds p.timing.cp ∧
        s.regs.htiming = .holds p.timing.ht := by
      simpa [CommitOrder, hseq, hp] using h
    simp [CommitOrder, k.seq, k.pend, k.regs, k.setModeGap, setReg, hp, hnone, hcp, hht]
  | completes hseq p hp m _ k => exact commitOrder_of_idle k.seq k.pend
  | grows hidle _ _ _ _ _ _ g k => exact commitOrder_of_idle (k.seq.trans hidle) (k.pend.trans (h.pend_of_idle hidle))
  | releases i k => exact h.congr k.seq k.pend k.regs (k.setModeGap ▸ hgap)

/-- Settles O31: outside a commit nothing is latched, and inside one the registers change by the commit's own writes alone,
each of which puts the latched word where the next position asks for it. -/
theorem commitOrderIsInvariant : Obligations.CommitOrderIsInvariant := by
  intro s t h ht
  obtain ⟨rest, hm⟩ := step_configMove ht
  exact (h.congr (t := beginStep rest s) rfl rfl rfl h.1).after_move hm

/-! ### The buffers -/

theorem Buffer.apart_comm {a b : Buffer} (h : a.apart b) : b.apart a := Or.symm h

theorem regionFresh_iff {pa : Word} {n : Nat} {s : State} (hd : Nat) : regionFresh pa n s = true ↔
    pa.toNat + n ≤ 2 ^ 32 ∧ ∀ b ∈ heldBuffers s, Buffer.apart ⟨hd, pa, n⟩ b := by
  simp [regionFresh, regionsApart, Buffer.apart]

/-- Some buffers of those held are inside the space and apart too, in whatever order. -/
theorem BuffersDisjoint.of_subperm {s : State} (h : BuffersDisjoint s) {l : List Buffer} (hl : l.Subperm (heldBuffers s)) :
    (∀ b ∈ l, b.physicalBase.toNat + b.length ≤ 2 ^ 32) ∧ l.Pairwise Buffer.apart := by
  obtain ⟨hin, hap⟩ := h
  obtain ⟨l', hperm, hsub⟩ := hl
  exact ⟨fun b hb => hin b (hsub.subset (hperm.symm.subset hb)), hperm.pairwise (hap.sublist hsub) Buffer.apart_comm⟩

theorem BuffersDisjoint.of_held {s t : State} (h : BuffersDisjoint s) (hb : t.buf = s.buf) (hr : t.retired = s.retired) :
    BuffersDisjoint t := by
  simpa only [BuffersDisjoint, heldBuffers, hb, hr] using h

theorem BuffersDisjoint.after_release {s t : State} (h : BuffersDisjoint s) {k : Nat} (hb : t.buf = s.buf)
    (hr : t.retired = s.retired.eraseIdx k) : BuffersDisjoint t := by
  have hheld : heldBuffers t = s.buf.toList ++ s.retired.eraseIdx k := by rw [heldBuffers, hb, hr]
  have hsub : (heldBuffers t).Sublist (heldBuffers s) := hheld ▸ (List.eraseIdx_sublist ..).append_left _
  exact h.of_subperm hsub.subperm

/-- A fresh region is apart from every buffer held, whether the previous buffer is retired or dropped (R250). -/
theorem BuffersDisjoint.after_growth {s t : State} (h : BuffersDisjoint s) {hd : Nat} {pa : Word} {n : Nat}
    (hfresh : regionFresh pa n s = true) {l : List Buffer} (hl : l = [] ∨ l = s.buf.toList)
    (hb : t.buf = some ⟨hd, pa, n⟩) (hr : t.retired = s.retired ++ l) : BuffersDisjoint t := by
  have hkept : (s.retired ++ l).Subperm (heldBuffers s) := by
    rcases hl with rfl | rfl
    · rw [List.append_nil]
      exact (List.sublist_append_right s.buf.toList s.retired).subperm
    · exact List.perm_append_comm.subperm
  have hheld : heldBuffers t = ⟨hd, pa, n⟩ :: (s.retired ++ l) := by simp [heldBuffers, hb, hr]
  obtain ⟨hin, hap⟩ := (regionFresh_iff hd).mp hfresh
  obtain ⟨hins, haps⟩ := h.of_subperm hkept
  rw [BuffersDisjoint, hheld]
  exact ⟨List.forall_mem_cons.mpr ⟨hin, hins⟩, List.pairwise_cons.mpr ⟨fun b hm => hap b (hkept.subset hm), haps⟩⟩

theorem BuffersDisjoint.after_move {s t : State} (h : BuffersDisjoint s) (hm : ConfigMove s t) : BuffersDisjoint t := by
  cases hm with
  | keeps k => exact h.of_held k.buf k.retired
  | stores _ x b k => exact h.of_held k.buf k.retired
  | gap g _ k => exact h.of_held k.buf k.retired
  | starts _ p _ k => exact h.of_held k.buf k.retired
  | writesHtiming _ p _ _ k => exact h.of_held k.buf k.retired
  | writesVtiming _ p _ _ k => exact h.of_held k.buf k.retired
  | completes _ p _ m _ k => exact h.of_held k.buf k.retired
  | grows _ hd pa n hfresh l hl g k => exact h.after_growth hfresh hl k.buf k.retired
  | releases i k => exact h.after_release k.buf k.retired

/-- Settles O60: the buffers held change only by a release, which drops one, and by the sizer, whose new region the
allocator's contract keeps apart from all of them. -/
theorem buffersStayDisjoint : Obligations.BuffersStayDisjoint := by
  intro s t h ht
  obtain ⟨rest, hm⟩ := step_configMove ht
  exact (h.of_held (t := beginStep rest s) rfl rfl).after_move hm


/-! ### The positions of the sequencer -/

/-- A move that changes the sequencer takes it to its next position, by the write that stands there (R32). -/
theorem ConfigMove.seq_advances {s t : State} (hm : ConfigMove s t) (hne : t.seq ≠ s.seq) :
    (s.seq = .idle ∧ t.seq = .c1 ∧ ∃ w, t.bus = some (.write .clockPolarity w)) ∨
    (s.seq = .c1 ∧ t.seq = .c2 ∧ ∃ w, t.bus = some (.write .htiming w)) ∨
    (s.seq = .c2 ∧ t.seq = .c3 ∧ ∃ w, t.bus = some (.write .vtiming w)) ∨
    (s.seq = .c3 ∧ t.seq = .idle ∧ ∃ w, t.bus = some (.write .control w)) := by
  cases hm with
  | keeps k => exact absurd k.seq hne
  | stores _ x b k => exact absurd k.seq hne
  | gap g _ k => exact absurd k.seq hne
  | starts hidle p hbus k => exact .inl ⟨hidle, k.seq, _, hbus⟩
  | writesHtiming hseq p _ hbus k => exact .inr (.inl ⟨hseq, k.seq, _, hbus⟩)
  | writesVtiming hseq p _ hbus k => exact .inr (.inr (.inl ⟨hseq, k.seq, _, hbus⟩))
  | completes hseq p _ m hbus k => exact .inr (.inr (.inr ⟨hseq, k.seq, _, hbus⟩))
  | grows _ _ _ _ _ _ _ g k => exact absurd k.seq hne
  | releases i k => exact absurd k.seq hne

/-- When a write of `CONTROL` does not fault (R136). -/
theorem enableTooEarly_eq_false_iff {v : Word} {s : State} : enableTooEarly v s = false ↔
    v.getLsbD s.cfg.layout.en = false ∨
      (isWritten s.regs.htiming = true ∧ isWritten s.regs.vtiming = true ∧ isWritten s.regs.clockPolarity = true ∧
        isWritten s.regs.frameBase = true) := by
  simp only [enableTooEarly, enableSet, Bool.and_eq_false_iff, Bool.not_eq_false', timingWritten_iff]

section
variable {s : State} {p : Pend}

/-! The write at each position (R32, R169). -/

theorem continueCommit_of_c1 (hseq : s.seq = .c1) (hp : s.pend = some p) :
    continueCommit s = { storeReg .htiming p.timing.ht s with seq := .c2 } := by
  simp only [continueCommit, hseq, hp]

theorem continueCommit_of_c2 (hseq : s.seq = .c2) (hp : s.pend = some p) :
    continueCommit s = { storeReg .vtiming p.timing.vt s with seq := .c3 } := by
  simp only [continueCommit, hseq, hp]

theorem continueCommit_of_c3 (hseq : s.seq = .c3) (hp : s.pend = some p) : continueCommit s = endCommit p s := by
  simp only [continueCommit, hseq, hp]

theorem endCommit_of_setMode_none (he : enableTooEarly p.timing.ct s = false) (hn : p.setMode = none) :
    endCommit p s =
      { storeReg .control p.timing.ct s with seq := .idle, pend := none, out := some (.ok (.timing p.timing)) } := by
  simp [endCommit, he, hn, finish]

theorem endCommit_of_setMode_some (he : enableTooEarly p.timing.ct s = false) {v : DisplayMode}
    (hv : p.setMode = some v) : endCommit p s =
      { storeReg .control p.timing.ct s with
        seq := .idle, pend := none, curMode := { v with pixclock := p.timing.pixclock },
        out := some (.ok (.mode { v with pixclock := p.timing.pixclock })) } := by
  simp [endCommit, he, hv, finish]

end

/-- Without a `SET_MODE` waiting, the context's next step is the next write of the commit in progress (R169). -/
theorem step_resume_cfg {s : State} {rest : List Action} (hf : s.fault = none) (hg : s.setModeGap = none)
    (hs : s.schedule = .resume .cfg :: rest) : step s = .next (continueCommit (beginStep rest s)) := by
  rw [step_of_schedule_cons hf hs]
  simp [perform, continueCfg, hg]

/-- Settles O33: the next step of a commit is the write that stands at its position, and a step that moves the sequencer is
one of the four moves of a commit. -/
theorem sequencerAdvancesByOne : Obligations.SequencerAdvancesByOne := by
  refine ⟨fun s p rest hf hg hp hs => ?_, fun s t ht hne => ?_⟩
  · have hstep := step_resume_cfg hf hg hs
    refine ⟨fun hseq => ?_, fun hseq => ?_, fun hseq hen => ?_⟩
    · rw [hstep, continueCommit_of_c1 (s := beginStep rest s) hseq hp]
      rfl
    · rw [hstep, continueCommit_of_c2 (s := beginStep rest s) hseq hp]
      rfl
    · have hearly : enableTooEarly p.timing.ct (beginStep rest s) = false := enableTooEarly_eq_false_iff.mpr hen
      rw [hstep, continueCommit_of_c3 (s := beginStep rest s) hseq hp]
      refine ⟨fun hn => ?_, fun v hv => ?_⟩
      · rw [endCommit_of_setMode_none hearly hn]
        rfl
      · rw [endCommit_of_setMode_some hearly hv]
        rfl
  · obtain ⟨rest, hm⟩ := step_configMove ht
    exact hm.seq_advances hne

/-- Settles O27: committable operands pass the pure phase with the timing of their mode, and the first write follows. -/
theorem commitStartsWithClockPolarity : Obligations.CommitStartsWithClockPolarity := by
  intro m k s hidle hc
  obtain ⟨t, ht, hplan⟩ := planCommit_of_committable hc
  have hstart : startCommit none m k s =
      { storeReg .clockPolarity t.cp s with seq := .c1, pend := some ⟨t, none⟩ } := by
    simp [startCommit, hidle, hplan]
  exact ⟨t, ht, congrArg Host.Outcome.next hstart⟩

/-! ### What stops a step -/

/-- Everything the step of an agent can answer: a next state, or one of the two refusals that stop the machine. -/
theorem perform_cases (a : Action) (s : State) :
    (∃ t, perform a s = .next t) ∨
    (∃ g c reply op, a = .issue g c reply ∧ decode c = .error (.illTyped op) ∧ perform a s = .refused .illTyped) ∨
    (∃ k b, a = .free k ∧ s.retired[k]? = some b ∧ b.contains s.scanBase = true ∧
      perform a s = .refused .graceNotOver) := by
  cases a with
  | issue g c reply =>
    rcases issue_cases g c reply s with ⟨r, hd, h⟩ | ⟨i, r, -, -, h⟩ | ⟨i, -, -, h⟩
    · cases r with
      | unmapped off => exact .inl ⟨_, h⟩
      | reservedCommand op => exact .inl ⟨_, h⟩
      | illTyped op => exact .inr (.inl ⟨g, c, reply, op, rfl, hd, h⟩)
    · exact .inl ⟨_, h⟩
    · obtain ⟨t, ht, -⟩ := exec_effect i { s with allocReply := reply }
      exact .inl ⟨t, h.trans ht⟩
  | resume ctx => cases ctx <;> exact .inl ⟨_, rfl⟩
  | raise e => exact .inl ⟨_, rfl⟩
  | latch => exact .inl ⟨_, rfl⟩
  | scan => exact .inl ⟨_, rfl⟩
  | drawReserved w => exact .inl ⟨_, rfl⟩
  | free k =>
    rcases hostFree_cases k s with ⟨-, h⟩ | ⟨b, -, -, h⟩ | ⟨b, hb, hc, h⟩
    · exact .inl ⟨_, h⟩
    · exact .inl ⟨_, h⟩
    · exact .inr (.inr ⟨k, b, rfl, hb, hc, h⟩)

theorem perform_ne_fault (a : Action) (s : State) (f : Fault) : perform a s ≠ .fault f := by
  rcases perform_cases a s with ⟨t, h⟩ | ⟨_, _, _, _, -, -, h⟩ | ⟨_, _, -, -, -, h⟩ <;> simp [h]

/-- Settles O6: only the latch makes a step stop with a fault, and only two entries of the schedule can stop it with a
refusal. -/
theorem stepStopsOnlyWithCause : Obligations.StepStopsOnlyWithCause := by
  refine ⟨fun s f => ?_, fun s r h => ?_⟩
  · rcases step_cases s with ⟨g, hf, h⟩ | ⟨hf, -, h⟩ | ⟨a, rest, hf, -, h⟩ <;> rw [h, hf]
    · simp
    · simp
    · simp [perform_ne_fault]
  · rcases step_cases s with ⟨g, -, hs⟩ | ⟨-, -, hs⟩ | ⟨a, rest, hf, hsch, hs⟩ <;> rw [hs] at h
    · cases h
    · cases h
    · refine ⟨hf, ?_⟩
      rcases perform_cases a (beginStep rest s) with ⟨t, ht⟩ | ⟨g, c, reply, op, rfl, hd, ht⟩ | ⟨k, b, rfl, hb, hc, ht⟩ <;>
        rw [ht] at h <;> cases h
      · exact .inl ⟨rfl, g, c, reply, rest, op, hsch, hd⟩
      · exact .inr ⟨rfl, k, rest, b, hsch, hb, hc⟩

/-! ### The latch and the mark -/

/-- A fault latched in `s`, and the mark of a refusal, are still there in `t` (R34, R286). -/
def LatchKept (s t : State) : Prop :=
  (∀ f, s.fault = some f → t.fault = some f) ∧ (s.refused = true → t.refused = true)

theorem latchKept_of_eq {s t : State} (hf : t.fault = s.fault) (hr : t.refused = s.refused) : LatchKept s t :=
  ⟨fun _ h => hf.trans h, fun h => hr.trans h⟩

theorem latchKept_endWith (o : OpOutcome) (s : State) : LatchKept s (endWith o s) := by
  refine ⟨fun _ h => endWith_fault_sticky h, fun h => ?_⟩
  cases o <;> simp [endWith, h]

theorem Effect.latchKept {i : Instr} {s t : State} (he : Effect i s t) : LatchKept s t := by
  rcases he.ends_or_quiet with ⟨o, rfl⟩ | ⟨hf, hr, -⟩
  · exact latchKept_endWith o s
  · exact latchKept_of_eq hf hr

theorem latchKept_startCommit (v : Option DisplayMode) (m : DisplayMode) (k : Word) (s : State) :
    LatchKept s (startCommit v m k s) := by
  rcases startCommit_cases v m k s with ⟨-, h⟩ | ⟨f, -, -, h⟩ | ⟨e, -, -, h⟩ | ⟨c, -, -, h⟩ <;> rw [h]
  · exact latchKept_endWith (.refuse _) s
  · exact latchKept_endWith (.fault f) s
  · exact latchKept_endWith (.error _) s
  · exact latchKept_of_eq rfl rfl

theorem latchKept_endCommit (p : Pend) (s : State) : LatchKept s (endCommit p s) := by
  rcases endCommit_cases p s with ⟨-, h⟩ | ⟨-, -, h⟩ | ⟨v, -, -, h⟩ <;> rw [h]
  · exact latchKept_endWith (.fault _) s
  · exact latchKept_of_eq rfl rfl
  · exact latchKept_of_eq rfl rfl

theorem latchKept_continueCommit (s : State) : LatchKept s (continueCommit s) := by
  rcases continueCommit_cases s with h | ⟨p, -, -, h⟩ | ⟨p, -, -, h⟩ | ⟨p, -, -, h⟩ <;> rw [h]
  · exact latchKept_of_eq rfl rfl
  · exact latchKept_of_eq rfl rfl
  · exact latchKept_of_eq rfl rfl
  · exact latchKept_endCommit p s

theorem latchKept_continueCfg (s : State) : LatchKept s (continueCfg s) := by
  rcases continueCfg_cases s with ⟨v, -, h⟩ | ⟨-, h⟩ <;> rw [h]
  · exact latchKept_startCommit (some v) v s.cfg.clockKhz { s with setModeGap := none }
  · exact latchKept_continueCommit s

@[simp] theorem continuePoll_fault (s : State) : (continuePoll s).fault = s.fault := by
  rcases continuePoll_cases s with ⟨-, h⟩ | ⟨w, -, h⟩ <;> simp [h]

@[simp] theorem continuePoll_refused (s : State) : (continuePoll s).refused = s.refused := by
  rcases continuePoll_cases s with ⟨-, h⟩ | ⟨w, -, h⟩ <;> simp [h]

theorem latchKept_perform_engine {a : Action} (ha : a.ofEngine = true) {s t : State} (h : perform a s = .next t) :
    LatchKept s t := by
  rw [perform_engine_next ha h]
  exact latchKept_of_eq rfl rfl

theorem perform_latchKept {a : Action} {s t : State} (h : perform a s = .next t) : LatchKept s t := by
  cases a with
  | issue agent c reply =>
    rcases issue_next h with ⟨r, rfl⟩ | ⟨i, -, -, hx⟩
    · exact latchKept_endWith (.refuse r) s
    · exact (exec_next hx).latchKept
  | resume ctx =>
    cases ctx with
    | cfg =>
      cases h
      exact latchKept_continueCfg s
    | evt =>
      cases h
      exact latchKept_of_eq (continuePoll_fault s) (continuePoll_refused s)
  | raise e => exact latchKept_perform_engine rfl h
  | latch => exact latchKept_perform_engine rfl h
  | scan => exact latchKept_perform_engine rfl h
  | drawReserved w => exact latchKept_perform_engine rfl h
  | free k => rcases hostFree_next h with rfl | rfl <;> exact latchKept_of_eq rfl rfl

theorem ConfigMove.cfg_eq {s t : State} (hm : ConfigMove s t) : t.cfg = s.cfg := by
  cases hm with
  | keeps k => exact k.cfg
  | stores _ x b k => exact k.cfg
  | gap g _ k => exact k.cfg
  | starts _ p _ k => exact k.cfg
  | writesHtiming _ p _ _ k => exact k.cfg
  | writesVtiming _ p _ _ k => exact k.cfg
  | completes _ p _ m _ k => exact k.cfg
  | grows _ hd pa n _ l _ g k => exact k.cfg
  | releases i k => exact k.cfg

/-- Settles O7: a fault is raised over the one already latched without replacing it, the mark is only ever set, and no move
touches the configuration. -/
theorem latchMarkAndConfigurationPersist : Obligations.LatchMarkAndConfigurationPersist := by
  intro a s t h
  obtain ⟨hfault, hmark⟩ := perform_latchKept h
  exact ⟨hfault, hmark, (perform_configMove h).cfg_eq⟩

/-! ### The two contexts leave each other alone -/

/-- `t` has everything of the event context and the display engine as `s` has it (R31). -/
def EventsKept (s t : State) : Prop := t.intStatus = s.intStatus ∧ t.ack = s.ack ∧ t.scanBase = s.scanBase

theorem eventsKept_endWith (o : OpOutcome) (s : State) : EventsKept s (endWith o s) := by
  cases o <;> exact ⟨rfl, rfl, rfl⟩

theorem eventsKept_startCommit (v : Option DisplayMode) (m : DisplayMode) (k : Word) (s : State) :
    EventsKept s (startCommit v m k s) := by
  rcases startCommit_cases v m k s with ⟨-, h⟩ | ⟨f, -, -, h⟩ | ⟨e, -, -, h⟩ | ⟨c, -, -, h⟩ <;> rw [h] <;>
    exact ⟨rfl, rfl, rfl⟩

theorem eventsKept_endCommit (p : Pend) (s : State) : EventsKept s (endCommit p s) := by
  rcases endCommit_cases p s with ⟨-, h⟩ | ⟨-, -, h⟩ | ⟨v, -, -, h⟩ <;> rw [h] <;> exact ⟨rfl, rfl, rfl⟩

theorem eventsKept_continueCommit (s : State) : EventsKept s (continueCommit s) := by
  rcases continueCommit_cases s with h | ⟨p, -, -, h⟩ | ⟨p, -, -, h⟩ | ⟨p, -, -, h⟩ <;> rw [h]
  · exact ⟨rfl, rfl, rfl⟩
  · exact ⟨rfl, rfl, rfl⟩
  · exact ⟨rfl, rfl, rfl⟩
  · exact eventsKept_endCommit p s

theorem eventsKept_continueCfg (s : State) : EventsKept s (continueCfg s) := by
  rcases continueCfg_cases s with ⟨v, -, h⟩ | ⟨-, h⟩ <;> rw [h]
  · exact eventsKept_startCommit (some v) v s.cfg.clockKhz { s with setModeGap := none }
  · exact eventsKept_continueCommit s

theorem Activated.eventsKept {l : List Buffer} {s t : State} (h : Activated l s t) : EventsKept s t := by
  obtain ⟨_, _, _, -, -, -, rfl⟩ := h
  exact ⟨rfl, rfl, rfl⟩

/-- An operation within the configuration context's rights (R294) touches nothing of the other side. -/
theorem Effect.eventsKept {i : Instr} {s t : State} (he : Effect i s t) (hi : owner i = .cfg) : EventsKept s t := by
  cases he with
  | ends o => exact eventsKept_endWith o s
  | stores r v o _ => exact ⟨rfl, rfl, rfl⟩
  | masks _ => exact ⟨rfl, rfl, rfl⟩
  | clears v h => simp [hi] at h
  | readsStatus h => simp [hi] at h
  | readsStored r w _ => exact ⟨rfl, rfl, rfl⟩
  | polls h => simp [hi] at h
  | commits m k _ => exact eventsKept_startCommit none m k s
  | sizes l u _ ha _ => exact ha.eventsKept
  | setsMode v u _ _ hu =>
    rcases hu with rfl | ha
    · exact ⟨rfl, rfl, rfl⟩
    · exact ha.eventsKept

theorem owner_eq_cfg_of_gate_none {i : Instr} {s : State} (h : gate .cfg i s = none) : owner i = .cfg := by
  obtain ⟨ha, -⟩ := gate_none_iff.mp h
  cases hi : owner i with
  | cfg => rfl
  | evt => simp [hi, Ctx.agent] at ha

theorem eventsKept_issue_cfg {c : Code} {reply : AllocReply} {s t : State} (h : issue .cfg c reply s = .next t) :
    EventsKept s t := by
  rcases issue_next h with ⟨r, rfl⟩ | ⟨i, -, hg, hx⟩
  · exact eventsKept_endWith (.refuse r) s
  · exact (exec_next hx).eventsKept (owner_eq_cfg_of_gate_none hg)

/-- An operation within the event context's rights (R294) touches nothing of the configuration context, and none of them
faults (R285). -/
theorem configKept_exec_of_owner_evt {i : Instr} (hi : owner i = .evt) {s t : State} (h : exec i s = .next t) :
    ConfigKept s t ∧ t.fault = s.fault := by
  have hpoll : (startPoll s).fault = s.fault := by
    rcases startPoll_cases s with ⟨-, hp⟩ | ⟨w, -, hp⟩ <;> rw [hp] <;> rfl
  cases i with
  | wrIntClear v => cases h; exact ⟨{}, rfl⟩
  | rdIntStatus => cases h; exact ⟨{}, rfl⟩
  | wrIntStatus v => cases h; exact ⟨{}, rfl⟩
  | rdIntClear => cases h; exact ⟨{}, rfl⟩
  | pollAck => cases h; exact ⟨configKept_startPoll s, hpoll⟩
  | pollEvents => cases h; exact ⟨configKept_startPoll s, hpoll⟩
  | _ => cases hi

/-- A request of the event context within its rights decodes to one of its operations. -/
theorem owner_evt_of_sparesCfg {a : Agent} {c : Code} {reply : AllocReply}
    (h : (Action.issue a c reply).sparesCfg = true) {i : Instr} (hd : decode c = .ok i) : owner i = .evt := by
  simp only [Action.sparesCfg, hd, Bool.and_eq_true, decide_eq_true_eq] at h
  exact h.2

theorem configKept_of_sparesCfg {a : Action} {s t : State} (ha : a.sparesCfg = true) (h : perform a s = .next t) :
    ConfigKept s t ∧ t.fault = s.fault := by
  have hengine (he : a.ofEngine = true) : ConfigKept s t ∧ t.fault = s.fault :=
    ⟨configKept_perform_engine he h, by rw [perform_engine_next he h]⟩
  cases a with
  | issue agent c reply =>
    rcases issue_next h with ⟨r, rfl⟩ | ⟨i, hd, -, hx⟩
    · exact ⟨{}, rfl⟩
    · obtain ⟨hk, hf⟩ := configKept_exec_of_owner_evt (owner_evt_of_sparesCfg ha hd) hx
      exact ⟨ConfigKept.trans {} hk, hf⟩
  | resume ctx =>
    cases ctx with
    | cfg => cases ha
    | evt =>
      cases h
      exact ⟨configKept_continuePoll s, continuePoll_fault s⟩
  | raise e => exact hengine rfl
  | latch => exact hengine rfl
  | scan => exact hengine rfl
  | drawReserved w => exact hengine rfl
  | free k => cases ha

/-- Settles O48: the gate holds each context to its own operations, and what those of one context do shows nowhere in the
other's state. -/
theorem eventStepsSpareConfiguration : Obligations.EventStepsSpareConfiguration := by
  refine ⟨fun a s t ha h => ?_, fun a s t ha h => ?_⟩
  · rcases ha with rfl | ⟨c, reply, rfl⟩
    · cases h
      exact eventsKept_continueCfg s
    · exact eventsKept_issue_cfg h
  · obtain ⟨k, hf⟩ := configKept_of_sparesCfg ha h
    exact ⟨k.regs, k.seq, k.pend, k.curMode, k.buf, k.retired, k.irqInited, k.setModeGap, k.cfg, hf⟩

/-! ### The interrupt line -/

theorem irq_iff_pending_unmasked {s : State} {m : Word} (hm : s.regs.intEnable = .holds m) (hw : s.cfg.layout.wf = true) :
    irq s = true ↔ ∃ e : StatusEvent, s.intStatus.getLsbD (e.bit s.cfg.layout) = true ∧
      m.getLsbD (e.bit s.cfg.layout) = true := by
  simp only [irq, hm, decide_eq_true_eq, word_ne_zero_iff, BitVec.getLsbD_and, Bool.and_eq_true]
  constructor
  · rintro ⟨n, hn, ⟨hs, hmn⟩, he⟩
    obtain ⟨e, rfl⟩ := (getLsbD_eventMask_iff _ hn).mp he
    exact ⟨e, hs, hmn⟩
  · rintro ⟨e, hs, hme⟩
    exact ⟨e.bit _, e.bit_lt hw, ⟨hs, hme⟩, (getLsbD_eventMask_iff _ (e.bit_lt hw)).mpr ⟨e, rfl⟩⟩

/-- Settles O44: the masked word is not 0 exactly when it has a bit, which is then a class's. -/
theorem interruptLineFollowsMask : Obligations.InterruptLineFollowsMask :=
  fun _ _ hm hw => irq_iff_pending_unmasked hm hw

/-- `INT_ENABLE_INIT` has the bits of underrun and bus error and no other (R26, R105). -/
theorem getLsbD_intEnableInit (l : Layout) {n : Nat} (hn : n < 32) :
    (intEnableInit l).getLsbD n = true ↔ n = l.underrun ∨ n = l.busError := by
  simp only [intEnableInit, BitVec.getLsbD_or, getLsbD_flag, hn, Bool.true_and, decide_true, Bool.and_true, Bool.or_eq_true,
    decide_eq_true_eq]

/-- Of the four classes, `INT_ENABLE_INIT` unmasks two (R288). -/
theorem getLsbD_intEnableInit_bit {l : Layout} (hw : l.wf = true) (e : StatusEvent) :
    (intEnableInit l).getLsbD (e.bit l) = true ↔ e = .underrun ∨ e = .busError := by
  rw [getLsbD_intEnableInit l (e.bit_lt hw)]
  exact or_congr (StatusEvent.bit_inj hw (f := .underrun)) (StatusEvent.bit_inj hw (f := .busError))

/-- Under the mask of `IRQ.INIT` the line shows underrun and bus error alone (R288, R290). -/
theorem irq_of_intEnableInit {s : State} (hm : s.regs.intEnable = .holds (intEnableInit s.cfg.layout))
    (hw : s.cfg.layout.wf = true) :
    irq s = (s.intStatus.getLsbD s.cfg.layout.underrun || s.intStatus.getLsbD s.cfg.layout.busError) := by
  rw [Bool.eq_iff_iff, irq_iff_pending_unmasked hm hw, Bool.or_eq_true]
  simp only [getLsbD_intEnableInit_bit hw]
  constructor
  · rintro ⟨e, hs, rfl | rfl⟩
    · exact .inl hs
    · exact .inr hs
  · rintro (h | h)
    · exact ⟨.underrun, h, .inl rfl⟩
    · exact ⟨.busError, h, .inr rfl⟩

/-- Settles O38: with the sequencer idle the write is made, and the line then follows the mask it writes. -/
theorem irqInitUnmasksUnderrunAndBusError : Obligations.IrqInitUnmasksUnderrunAndBusError := by
  intro s hidle hw
  have hexec : exec .irqInit s =
      .next (finish (.ok .unit) { storeReg .intEnable (intEnableInit s.cfg.layout) s with irqInited := true }) := by
    simp [exec, execIrqInit, hidle]
  exact ⟨_, intEnableInit s.cfg.layout, hexec, fun n hn => getLsbD_intEnableInit _ hn, rfl, irq_of_intEnableInit rfl hw⟩

/-! ### The latch of the frame base -/

theorem word_baseUpdated (l : Layout) : EventSet.baseUpdated.word l = 1#32 <<< l.nextBase := by
  simp [EventSet.word, EventSet.baseUpdated, flag]

/-- A single bit under a mask is that bit or nothing. -/
theorem shiftLeft_one_and (n : Nat) (m : Word) : (1#32 <<< n) &&& m = if m.getLsbD n then 1#32 <<< n else 0#32 := by
  have hbit (i : Nat) : (1#32 <<< n : Word).getLsbD i = (decide (i = n) && decide (i < 32)) := getLsbD_flag n true i
  refine BitVec.eq_of_getLsbD_eq fun i hi => ?_
  rw [BitVec.getLsbD_and, hbit]
  by_cases hn : i = n
  · subst hn
    cases hm : m.getLsbD i <;> simp [hi]
  · cases hm : m.getLsbD n <;> simp [hbit, hn]

/-- With `FRAME_BASE` written, a latch adopts its aligned address, or has nothing to latch (R36). -/
theorem deLatch_of_holds {s : State} {a : Word} (ha : s.regs.frameBase = .holds a) :
    deLatch s = if s.scanBase = alignDown s.cfg.fbAlignLog2 a then s
      else raiseStatus EventSet.baseUpdated { s with scanBase := alignDown s.cfg.fbAlignLog2 a } := by
  simp [deLatch, engineBase, ha]

/-- Settles O46: the two branches of the latch, and the one bit it raises under the mask shown. -/
theorem latchAdoptsMaskedFrameBase : Obligations.LatchAdoptsMaskedFrameBase := by
  intro s a ha _
  refine ⟨deLatch s, alignDown s.cfg.fbAlignLog2 a, rfl, toNat_alignDown _ _, ?_⟩
  rw [deLatch_of_holds ha]
  by_cases hb : s.scanBase = alignDown s.cfg.fbAlignLog2 a
  · rw [if_pos hb, ← hb]
    exact ⟨rfl, rfl, fun _ => rfl, fun hne => absurd rfl hne, fun _ hne => absurd rfl hne⟩
  · rw [if_neg hb]
    refine ⟨rfl, rfl, fun h => absurd h hb, fun _ hmask => ?_, fun m _ hmask hm => ?_⟩
    · have hshown : shownMask { s with scanBase := alignDown s.cfg.fbAlignLog2 a } = BitVec.allOnes 32 :=
        shownMask_of_not_masked hmask
      rw [raiseStatus_intStatus, word_baseUpdated, hshown, BitVec.and_allOnes]
    · have hshown : shownMask { s with scanBase := alignDown s.cfg.fbAlignLog2 a } = m := shownMask_of_masked hmask hm
      rw [raiseStatus_intStatus, word_baseUpdated, hshown, shiftLeft_one_and]
      split <;> simp

/-! ### Reset -/

/-- Settles O11: the reset state read field by field, and the step with an empty schedule. -/
theorem resetStateIsAsStated : Obligations.ResetStateIsAsStated := by
  refine ⟨fun cfg ws d1 d2 => ?_, ⟨_, _, _, _, rfl⟩, fun r => ?_, fun s hf hs => ?_⟩
  · refine ⟨fun r => ?_, rfl, rfl, rfl, rfl, rfl, rfl, rfl, rfl, rfl, rfl, rfl⟩
    have hreg : getReg (State.resetOf cfg ws d1 d2).regs r = resetCell (imageValue cfg.resetImage r) (ws r) :=
      getReg_resetRegs _ _ _
    exact ⟨fun w h => by rw [hreg, h, resetCell_some], fun h => by rw [hreg, h, resetCell_none]⟩
  · cases r <;> rfl
  · simp [step, hf, hs, beginStep]

/-- Settles O12: nothing is latched, no mode waits, and no buffer is held. -/
theorem resetMeetsInvariants : Obligations.ResetMeetsInvariants := by
  intro cfg ws d1 d2
  exact ⟨commitOrder_of_idle rfl rfl, ⟨⟨rfl, rfl, rfl⟩, nofun, nofun⟩, ⟨nofun, .nil⟩⟩

/-! ### The clearing of status bits -/

/-- Settles O15: the status word is masked with the complement of the word written. -/
theorem intClearClearsBitsWrittenOne : Obligations.IntClearClearsBitsWrittenOne := by
  intro v s
  refine ⟨finish (.ok .unit) (clearStatus v s), rfl, fun n hn => ?_, fun h => ?_, rfl⟩
  · simp [hn]
  · simp only [h, finish_intStatus, clearStatus_intStatus, BitVec.not_zero, BitVec.and_allOnes]

end Sys2Proof.Machine

/-! The family of the register map and its ordering (20_memory.md): the frame base's alignment (R66), what a reader of the
new `CONTROL` sees (R71), and the two accesses of the status pair against the configuration's writes (R73) and against the
display engine (R75). -/

namespace Sys2Proof.Machine

/-! ### The pan address -/

theorem toNat_panAddr (g base line y : Nat) :
    (panAddr g base line y).toNat = (base + y * line) % 2 ^ 32 - (base + y * line) % 2 ^ 32 % 2 ^ g := by
  rw [panAddr, toNat_alignDown, trunc32, BitVec.toNat_ofNat]

/-- Settles O34: the address is the reduced sum less its remainder by `2^g`. -/
theorem panAddressIsAlignedDown : Obligations.PanAddressIsAlignedDown := by
  intro g base line y
  rw [toNat_panAddr]
  generalize (base + y * line) % 2 ^ 32 = n
  have hle : n % 2 ^ g ≤ n := Nat.mod_le n _
  have hlt : n % 2 ^ g < 2 ^ g := Nat.mod_lt n (Nat.two_pow_pos g)
  exact ⟨Nat.mod_eq_zero_of_dvd (Nat.dvd_sub_mod n), Nat.sub_le _ _, by omega⟩

/-! ### The end of a commit -/

/-- From C3 the sequencer returns to idle by the write of `CONTROL` alone (R32). -/
theorem ConfigMove.regs_of_commit_end {s t : State} (hm : ConfigMove s t) {p : Pend} (hseq : s.seq = .c3)
    (hp : s.pend = some p) (ht : t.seq = .idle) : t.regs = setReg s.regs .control p.timing.ct := by
  have hsame (h : t.seq = s.seq) : t.regs = setReg s.regs .control p.timing.ct := by simp [ht, hseq] at h
  cases hm with
  | keeps k => exact hsame k.seq
  | stores _ x b k => exact hsame k.seq
  | gap g _ k => exact hsame k.seq
  | starts hidle p _ k => simp [hseq] at hidle
  | writesHtiming hc1 p _ _ k => simp [hseq] at hc1
  | writesVtiming hc2 p _ _ k => simp [hseq] at hc2
  | completes _ q hq m _ k =>
    obtain rfl : p = q := Option.some.inj (hp.symm.trans hq)
    exact k.regs
  | grows hidle _ _ _ _ _ _ g k => simp [hseq] at hidle
  | releases i k => exact hsame k.seq

/-- At C3 the three timing words stand in the registers, so that `CONTROL` completes the commit (R71). -/
theorem CommitOrder.setReg_control_of_c3 {s : State} (h : CommitOrder s) {p : Pend} (hseq : s.seq = .c3)
    (hp : s.pend = some p) : setReg s.regs .control p.timing.ct = committedRegs s.regs p.timing := by
  have ⟨_, hcp, hht, hvt⟩ : s.setModeGap = none ∧ s.regs.clockPolarity = .holds p.timing.cp ∧
      s.regs.htiming = .holds p.timing.ht ∧ s.regs.vtiming = .holds p.timing.vt := by
    simpa [CommitOrder, hseq, hp] using h
  simp only [committedRegs, setReg, ← hcp, ← hht, ← hvt]

/-- Settles O32: the step writes `CONTROL`, and by the invariant the other three words were there before it. -/
theorem newControlComesWithNewTiming : Obligations.NewControlComesWithNewTiming := by
  intro s t p h hseq hp hstep hidle
  obtain ⟨rest, hm⟩ := step_configMove hstep
  calc t.regs = setReg s.regs .control p.timing.ct := hm.regs_of_commit_end (s := beginStep rest s) hseq hp hidle
    _ = committedRegs s.regs p.timing := h.setReg_control_of_c3 hseq hp

/-! ### The status pair and the configuration's writes -/

/-- A write of a storing register stores its word, but for a `WR.CONTROL` that would enable the display too early (R131 to
R136). -/
theorem exec_writeOf (r : StoringReg) (v : Word) (s : State) : exec (writeOf r v) s =
    .next (if r = .control ∧ enableTooEarly v s = true then raiseFault .enableBeforeTiming s
      else finish (.ok .unit) (storeReg r v s)) := by
  cases r with
  | control => cases h : enableTooEarly v s <;> simp [writeOf, exec, execWrControl, h]
  | _ => rfl

/-- The state after an access of the status pair: of the register block it changes `INT_STATUS` alone, and what it does
there, returns and puts on the bus depends on `INT_STATUS` alone. -/
def afterStatusAccess (f : Word → Word) (o : Word → OpOutcome) (b : Word → BusTx) (s : State) : State :=
  { s with intStatus := f s.intStatus, out := some (o s.intStatus), bus := some (b s.intStatus) }

theorem exec_statusAccess {e : Instr} (he : e = .rdIntStatus ∨ ∃ w, e = .wrIntClear w) :
    ∃ f o b, ∀ s, exec e s = .next (afterStatusAccess f o b s) := by
  rcases he with rfl | ⟨w, rfl⟩
  · exact ⟨id, fun x => .ok (.word x), fun x => .read .intStatus x, fun _ => rfl⟩
  · exact ⟨(· &&& ~~~w), fun _ => .ok .unit, fun _ => .write .intClear w, fun _ => rfl⟩

/-- Settles O19: the write reads nothing the access changes, and the access reads nothing the write changes. -/
theorem statusPairCommutesWithWrites : Obligations.StatusPairCommutesWithWrites := by
  intro e r v s t t' u u' he ht ht' hu hu'
  obtain ⟨f, o, b, hexec⟩ := exec_statusAccess he
  rw [hexec] at ht hu'
  rw [exec_writeOf] at ht' hu
  cases ht
  cases ht'
  cases hu
  cases hu'
  have hearly : enableTooEarly v (afterStatusAccess f o b s) = enableTooEarly v s := rfl
  rw [hearly]
  split <;> exact ⟨rfl, rfl, rfl, rfl, rfl⟩

/-! ### An event between the two steps of a poll -/

theorem stepN_succ_of_step {s t : State} {n : Nat} (h : step s = .next t) : stepN (n + 1) s = stepN n t := by
  simp only [stepN, h]

/-- The read step of a poll holds the status word and leaves what the display engine's raise depends on (R222). -/
theorem step_issue_pollAck {s : State} {reply : AllocReply} {rest : List Action} (hf : s.fault = none)
    (ha : s.ack = .none) (hs : s.schedule = .issue .evt (encode .pollAck) reply :: rest) :
    ∃ t, step s = .next t ∧ t.fault = none ∧ t.schedule = rest ∧ t.ack = .pending s.intStatus ∧ t.cfg = s.cfg ∧
      t.regs = s.regs := by
  have hgate : gate .evt .pollAck (beginStep rest s) = none := gate_none_iff.mpr ⟨rfl, by simp [owner]⟩
  have hstep : step s = .next (startPoll { beginStep rest s with allocReply := reply }) := calc
    step s = issue .evt (encode .pollAck) reply (beginStep rest s) := step_of_schedule_cons hf hs
    _ = exec .pollAck { beginStep rest s with allocReply := reply } :=
      issue_of_gate_none (Laws.RoundTrip.pollAck rfl) hgate reply
  refine ⟨_, hstep, ?_⟩
  rcases startPoll_cases { beginStep rest s with allocReply := reply } with ⟨-, h⟩ | ⟨w, hw, -⟩
  · rw [h]
    exact ⟨hf, rfl, rfl, rfl, rfl⟩
  · simp [ha] at hw

theorem step_raise {s : State} {S : EventSet} {rest : List Action} (hf : s.fault = none)
    (hs : s.schedule = .raise S :: rest) : step s = .next (raiseStatus S (beginStep rest s)) :=
  step_of_schedule_cons hf hs

/-- The acknowledge step of a poll reports the word held and clears its bits (R222). -/
theorem step_resume_evt {s : State} {w : Word} {rest : List Action} (hf : s.fault = none) (ha : s.ack = .pending w)
    (hs : s.schedule = .resume .evt :: rest) : step s =
      .next (finish (.ok (.events (decodeStatus s.cfg.layout w))) { clearStatus w (beginStep rest s) with ack := .none }) := by
  rw [step_of_schedule_cons hf hs]
  simp [perform, continuePoll, ha]

/-- A write of `INT_CLEAR` clears exactly the bits that are 1 in the word written (R137). -/
theorem getLsbD_clearStatus (w : Word) (s : State) {n : Nat} (hn : n < 32) :
    (clearStatus w s).intStatus.getLsbD n = (s.intStatus.getLsbD n && !w.getLsbD n) := by
  rw [clearStatus_intStatus, BitVec.getLsbD_and, BitVec.getLsbD_not, decide_eq_true hn, Bool.true_and]

/-- The engine shows every class where the status word is not masked, and the enabled ones anyhow (R287). -/
theorem getLsbD_shownMask_of_shown {s : State} {n : Nat} (hn : n < 32)
    (h : s.cfg.statusMasked = false ∨ ∃ m, s.regs.intEnable = .holds m ∧ m.getLsbD n = true) :
    (shownMask s).getLsbD n = true := by
  cases hmask : s.cfg.statusMasked with
  | false => rw [shownMask_of_not_masked hmask, BitVec.getLsbD_allOnes, decide_eq_true hn]
  | true =>
    obtain ⟨m, hm, hbit⟩ := h.resolve_left (by simp [hmask])
    rw [shownMask_of_masked hmask hm, hbit]

/-- A class raised while the engine shows it is pending (R287). -/
theorem getLsbD_raiseStatus_of_shown {s : State} {S : EventSet} {e : StatusEvent} (hw : s.cfg.layout.wf = true)
    (h : s.cfg.statusMasked = false ∨
      ∃ m, s.regs.intEnable = .holds m ∧ m.getLsbD (e.bit s.cfg.layout) = true) (hS : S.has e = true) :
    (raiseStatus S s).intStatus.getLsbD (e.bit s.cfg.layout) = true := by
  rw [getLsbD_raiseStatus, getLsbD_eventWord_bit hw, hS, getLsbD_shownMask_of_shown (e.bit_lt hw) h, Bool.true_and,
    Bool.or_true]

/-- Settles O42: the acknowledge reports and clears the bits of the word read, in which the raised class's is 0. -/
theorem eventBetweenReadAndAckSurvives : Obligations.EventBetweenReadAndAckSurvives := by
  intro s e S reply rest hf ha hw hshown hunseen hraised hs
  obtain ⟨r, hread, hfr, hsr, har, hcfg, hregs⟩ := step_issue_pollAck hf ha hs
  have hraise : step r = .next (raiseStatus S (beginStep (.resume .evt :: rest) r)) := step_raise hfr hsr
  have hack := step_resume_evt (s := raiseStatus S (beginStep (.resume .evt :: rest) r)) hfr har rfl
  rw [← hcfg, ← hregs] at hshown
  rw [← hcfg] at hw hunseen ⊢
  have hpending := getLsbD_raiseStatus_of_shown (s := beginStep (.resume .evt :: rest) r) hw hshown hraised
  have hrun := ((stepN_succ_of_step (n := 2) hread).trans (stepN_succ_of_step hraise)).trans (stepN_succ_of_step hack)
  refine ⟨_, _, hrun, rfl, (decodeStatus_has _ _ e).trans hunseen, ?_⟩
  exact (getLsbD_clearStatus _ _ (e.bit_lt hw)).trans (congrArg₂ (· && !·) hpending hunseen)

end Sys2Proof.Machine

/-! The family of the encoding (30_encoding.md): the decoder and its tables (R101, R102, R107), the range check (R97 to R100),
and the register words as lists of fields with their values (R90 to R94, R105). -/

namespace Sys2Proof

/-! ### The encoder's inverse -/

/-- Settles O1: each operation reads back from its own encoding. -/
theorem decodeInvertsEncode : Obligations.DecodeInvertsEncode := by
  intro i
  cases i with
  | wrHtiming v => exact Laws.RoundTrip.wrHtiming v
  | wrVtiming v => exact Laws.RoundTrip.wrVtiming v
  | wrClockPolarity v => exact Laws.RoundTrip.wrClockPolarity v
  | wrFrameBase v => exact Laws.RoundTrip.wrFrameBase v
  | wrIntEnable v => exact Laws.RoundTrip.wrIntEnable v
  | wrControl v => exact Laws.RoundTrip.wrControl v
  | wrIntClear v => exact Laws.RoundTrip.wrIntClear v
  | rdIntStatus => exact Laws.RoundTrip.rdIntStatus
  | rdHtiming => exact Laws.RoundTrip.rdHtiming
  | rdVtiming => exact Laws.RoundTrip.rdVtiming
  | rdClockPolarity => exact Laws.RoundTrip.rdClockPolarity
  | rdFrameBase => exact Laws.RoundTrip.rdFrameBase
  | rdIntEnable => exact Laws.RoundTrip.rdIntEnable
  | rdControl => exact Laws.RoundTrip.rdControl
  | wrIntStatus v => exact Laws.RoundTrip.wrIntStatus v
  | rdIntClear => exact Laws.RoundTrip.rdIntClear
  | irqInit => exact Laws.RoundTrip.irqInit
  | commit m k => exact Laws.RoundTrip.commit m k
  | pan b l y => exact Laws.RoundTrip.pan b l y
  | setbase b => exact Laws.RoundTrip.setbase b
  | pollAck => exact Laws.RoundTrip.pollAck
  | validate r c k cap => exact Laws.RoundTrip.validate r c k cap
  | sizerEnsure m => exact Laws.RoundTrip.sizerEnsure m
  | sizerFixedInit => exact Laws.RoundTrip.sizerFixedInit
  | setMode r => exact Laws.RoundTrip.setMode r
  | panY y => exact Laws.RoundTrip.panY y
  | pollEvents => exact Laws.RoundTrip.pollEvents
  | getMode => exact Laws.RoundTrip.getMode

/-! ### The decoder's tables -/

/-- The selects that name one of the sixteen transactions (R101). -/
def mappedSelects : List (BitVec 9) :=
  [0x100#9, 0x104#9, 0x108#9, 0x110#9, 0x118#9, 0x11C#9, 0x120#9, 0x024#9, 0x000#9, 0x004#9, 0x008#9, 0x010#9, 0x018#9,
    0x01C#9, 0x124#9, 0x020#9]

/-- The selects that name one of the twelve commands (R102). -/
def commandSelects : List (BitVec 4) :=
  [0x0#4, 0x1#4, 0x2#4, 0x3#4, 0x4#4, 0x8#4, 0x9#4, 0xA#4, 0xB#4, 0xC#4, 0xD#4, 0xE#4]

/-- The selects that name no command (R107). -/
def reservedSelects : List (BitVec 4) := [0x5#4, 0x6#4, 0x7#4, 0xF#4]

theorem decodeReg_of_not_mapped {sel : BitVec 9} (h : sel ∉ mappedSelects) (v : Word) :
    decodeReg sel v = .error (.unmapped (sel.setWidth 8)) := by
  unfold decodeReg
  split
  case h_17 => rfl
  all_goals exact absurd (by decide) h

/-- A transaction is unmapped by its width or by its select (R65, R141). -/
theorem decode_reg_of_unmapped {sel : BitVec 9} {width : Nat} (h : width ≠ 4 ∨ sel ∉ mappedSelects) (v : Word) :
    decode (.reg sel width v) = .error (.unmapped (sel.setWidth 8)) := by
  by_cases hw : width = 4
  · rw [decode, if_pos hw]
    exact decodeReg_of_not_mapped (h.resolve_left (not_not_intro hw)) v
  · rw [decode, if_neg hw]

/-- Settles O2: the table row by row, and the two ways to be unmapped. -/
theorem regSelectsDecodeByTable : Obligations.RegSelectsDecodeByTable := by
  refine ⟨fun v => ?_, fun sel v h => decode_reg_of_unmapped (.inr h) v,
    fun sel width v h => decode_reg_of_unmapped (.inl h) v⟩
  exact ⟨rfl, rfl, rfl, rfl, rfl, rfl, rfl, rfl, rfl, rfl, rfl, rfl, rfl, rfl, rfl, rfl⟩

/-- Everything the `CMD` table can answer: on a reserved select that refusal; on any other a command, or that the operand
words are no record of its type (log 5). -/
theorem decodeCmd_cases (op : BitVec 4) (ws : List Word) :
    (op ∈ reservedSelects ∧ decodeCmd op ws = .error (.reservedCommand op)) ∨
    (op ∉ reservedSelects ∧ ((∃ i, decodeCmd op ws = .ok i) ∨ decodeCmd op ws = .error (.illTyped op))) := by
  have hreserved : ∀ x : BitVec 4, x ∉ commandSelects → x ∈ reservedSelects := by decide
  unfold decodeCmd
  split
  case h_13 =>
    have hop : op ∉ commandSelects := by
      simp only [commandSelects, List.mem_cons, List.not_mem_nil, or_false, not_or]
      and_intros <;> assumption
    exact .inl ⟨hreserved op hop, rfl⟩
  all_goals
    refine .inr ⟨by decide, ?_⟩
    repeat' split
    all_goals simp

theorem decode_cmd_reserved_iff (op : BitVec 4) (ws : List Word) :
    decode (.cmd op ws) = .error (.reservedCommand op) ↔ op ∈ reservedSelects := by
  rw [decode]
  rcases decodeCmd_cases op ws with ⟨hop, h⟩ | ⟨hop, ⟨i, h⟩ | h⟩ <;> simp [h, hop]

/-- Settles O3: the commands without a record decode by the table, those with one as their encodings do, and the rest is the
list of reserved selects. -/
theorem commandSelectsDecodeByTable : Obligations.CommandSelectsDecodeByTable := by
  refine ⟨fun ws => ⟨rfl, rfl, rfl, rfl, rfl⟩, fun b l y ws => ⟨rfl, rfl, rfl⟩, fun m k hm => ?_,
    fun r c k cap hr hc => ?_, decode_cmd_reserved_iff⟩
  · exact ⟨decodeInvertsEncode (.commit m k) hm, decodeInvertsEncode (.sizerEnsure m) hm,
      decodeInvertsEncode (.setMode m) hm⟩
  · exact decodeInvertsEncode (.validate r c k cap) (by simp [Instr.wf, hr, hc])

end Sys2Proof

namespace Sys2Proof.Machine

/-! ### Requests that decode to no operation -/

/-- The refusal of a request that decodes to no operation asks neither who issues it nor what is in progress (log 27). -/
theorem step_of_decode_error {s : State} {a : Agent} {c : Code} {reply : AllocReply} {rest : List Action} {r : Reject}
    (hf : s.fault = none) (hs : s.schedule = .issue a c reply :: rest) (hd : decode c = .error r) :
    step s = rejected r (beginStep rest s) := by
  rw [step_of_schedule_cons hf hs]
  simp only [perform, issue, hd]

/-- Settles O10: both kinds of request are rejected by the decoder, and the rejection sets the mark alone. -/
theorem unmappedAccessChangesNothing : Obligations.UnmappedAccessChangesNothing :=
  ⟨fun _ _ _ _ v _ _ hf hs h => step_of_decode_error hf hs (decode_reg_of_unmapped h v),
    fun _ _ op ws _ _ hf hs h => step_of_decode_error hf hs ((decode_cmd_reserved_iff op ws).mpr h)⟩

/-! ### The range check -/

/-- Under `overflow_policy = truncate` a value that does not fit is reduced modulo `2^width` (R100). -/
theorem checked_of_misfit_truncate {cfg : Config} {n : FieldName} {e : Int} (hp : cfg.overflowPolicy = .truncate)
    (h : fits (n.field cfg.layout) e = false) : checked cfg n e = .ok (e % 2 ^ (n.field cfg.layout).width).toNat := by
  simp [checked, h, hp]

/-- No field carries a negative value. -/
theorem fits_eq_false_of_neg {e : Int} (he : e < 0) (f : Field) : fits f e = false := by
  simp [fits, he.not_ge]

/-- Settles O23: the three branches of the range check; the smallest minus-one operands encode to -1. -/
theorem rangeCheckFollowsPolicy : Obligations.RangeCheckFollowsPolicy := by
  refine ⟨fun cfg n e h0 hlt => checked_of_fits (fits_iff.mpr ⟨h0, hlt⟩), fun cfg n e h => ?_, fun f x => ?_⟩
  · have hfit : fits (n.field cfg.layout) e = false := Bool.eq_false_iff.mpr (mt fits_iff.mp h)
    exact ⟨fun hp => checked_of_misfit hp hfit, fun hp => checked_of_misfit_truncate hp hfit⟩
  · refine ⟨fits_eq_false_of_neg (by decide) f, fun hx => fits_eq_false_of_neg ?_ f⟩
    rw [sixteenths, Nat.div_eq_of_lt hx]
    decide

/-- The value a field holds of an encoded value, modulo `2^width` (R100). -/
def reduced (f : Field) (e : Int) : Nat := (e % 2 ^ f.width).toNat

theorem reduced_lt (f : Field) (e : Int) : reduced f e < 2 ^ f.width := by
  have hp : (0 : Int) < 2 ^ f.width := by positivity
  zify
  rw [reduced, Int.toNat_of_nonneg (Int.emod_nonneg e hp.ne')]
  exact Int.emod_lt_of_pos e hp

theorem reduced_of_fits {f : Field} {e : Int} (h : fits f e = true) : reduced f e = e.toNat := by
  obtain ⟨h0, hlt⟩ := fits_iff.mp h
  rw [reduced, Int.emod_eq_of_lt h0 hlt]

theorem reduced_minusOne_add_one {f : Field} {v : Nat} (h : fits f (minusOne v) = true) :
    reduced f (minusOne v) + 1 = v := by
  rw [reduced_of_fits h, minusOne_toNat_add_one h]

theorem reduced_plain {f : Field} {v : Nat} (h : fits f (plain v) = true) : reduced f (plain v) = v := by
  rw [reduced_of_fits h, plain, Int.toNat_natCast]

/-- The width operand is a minus-one operand of sixteenths (R98). -/
theorem reduced_sixteenths_add_one {f : Field} {x : Nat} (h : fits f (sixteenths x) = true) :
    reduced f (sixteenths x) + 1 = x / 16 :=
  reduced_minusOne_add_one h

/-! ### Words of a format -/

/-- The word that holds the given values in the given fields, and 0 elsewhere (R7, R105). -/
def insAll : List (Field × Nat) → Word
  | [] => 0#32
  | p :: rest => ins p.1 p.2 ||| insAll rest

/-- Every value is below the bound of its field. -/
def InRange (ps : List (Field × Nat)) : Prop := ∀ p ∈ ps, p.2 < 2 ^ p.1.width

theorem getLsbD_insAll_outside {ps : List (Field × Nat)} (hv : InRange ps) {n : Nat}
    (hn : ∀ f ∈ ps.map Prod.fst, n < f.lsb ∨ f.lsb + f.width ≤ n) : (insAll ps).getLsbD n = false := by
  induction ps with
  | nil => simp [insAll]
  | cons p rest ih =>
    obtain ⟨hp, hrest⟩ := List.forall_mem_cons.mp hv
    obtain ⟨hnp, hnrest⟩ := List.forall_mem_cons.mp hn
    rw [insAll, BitVec.getLsbD_or, getLsbD_ins_outside hp hnp, ih hrest hnrest, Bool.or_false]

/-- The fields are a well-formed format (R90) and their values in range. -/
structure WellPacked (ps : List (Field × Nat)) : Prop where
  format : formatWf (ps.map Prod.fst) = true
  inRange : InRange ps

/-- In a well-formed format a field shows the bits of its own value, since no other field reaches them (R90). -/
theorem getLsbD_insAll_own {ps : List (Field × Nat)} (hps : WellPacked ps) {f : Field} {v : Nat} (hmem : (f, v) ∈ ps)
    {k : Nat} (hk : k < f.width) : (insAll ps).getLsbD (f.lsb + k) = v.testBit k := by
  induction ps with
  | nil => cases hmem
  | cons p rest ih =>
    obtain ⟨hin, hapart, hformat⟩ := formatWf_cons hps.format
    obtain ⟨hp, hrest⟩ := List.forall_mem_cons.mp hps.inRange
    rw [insAll, BitVec.getLsbD_or]
    rcases List.mem_cons.mp hmem with rfl | hmem
    · have hout : (insAll rest).getLsbD (f.lsb + k) = false := by
        refine getLsbD_insAll_outside hrest fun g hg => ?_
        have hfg : f.lsb + f.width ≤ g.lsb ∨ g.lsb + g.width ≤ f.lsb := apart_iff.mp (hapart g hg)
        omega
      rw [getLsbD_ins_own hin v hk, hout, Bool.or_false]
    · have hf : p.1.apart f = true := hapart f (List.mem_map_of_mem hmem)
      rw [getLsbD_ins_apart (.inr hf) hp hk, ih ⟨hformat, hrest⟩ hmem, Bool.false_or]

/-- A field of a well-formed format extracts to what was inserted: `ext_of_four` for fields and flags of any number. -/
theorem ext_insAll {ps : List (Field × Nat)} (hps : WellPacked ps) {f : Field} {v : Nat} (hmem : (f, v) ∈ ps) :
    ext f (insAll ps) = v :=
  ext_eq (hps.inRange _ hmem) fun _ hk => getLsbD_insAll_own hps hmem hk

/-- A flag is a field of one bit that holds its truth value. -/
theorem flag_eq_ins (b : Nat) (c : Bool) : flag b c = ins (.ofBit b) c.toNat := by
  cases c <;> simp [flag, ins, Field.ofBit]

theorem getLsbD_insAll_flag {ps : List (Field × Nat)} (hps : WellPacked ps) {b : Nat} {c : Bool}
    (hmem : (.ofBit b, c.toNat) ∈ ps) : (insAll ps).getLsbD b = c := by
  have h := getLsbD_insAll_own hps hmem (k := 0) Nat.one_pos
  cases c <;> simpa [Field.ofBit] using h

/-! ### The four words as lists of fields -/

/-- What `HTIMING` holds (R91, R165). -/
def htimingParts (l : Layout) (m : DisplayMode) : List (Field × Nat) :=
  [(l.ppl, reduced l.ppl (sixteenths m.xres.toNat)), (l.hw, reduced l.hw (minusOne m.hsyncLen.toNat)),
    (l.hfp, reduced l.hfp (minusOne m.rightMargin.toNat)), (l.hbp, reduced l.hbp (minusOne m.leftMargin.toNat))]

/-- What `VTIMING` holds (R92, R166). -/
def vtimingParts (l : Layout) (m : DisplayMode) : List (Field × Nat) :=
  [(l.lpp, reduced l.lpp (minusOne m.yres.toNat)), (l.vw, reduced l.vw (minusOne m.vsyncLen.toNat)),
    (l.vfp, reduced l.vfp (plain m.lowerMargin.toNat)), (l.vbp, reduced l.vbp (plain m.upperMargin.toNat))]

/-- What `CLOCK_POLARITY` holds (R93, R164). -/
def clockPolarityParts (cfg : Config) (d : Nat) (s : Word) : List (Field × Nat) :=
  [(cfg.layout.divno, reduced cfg.layout.divno (minusOne d)), (.ofBit cfg.layout.ivs, (!s.getLsbD 1).toNat),
    (.ofBit cfg.layout.ihs, (!s.getLsbD 0).toNat), (.ofBit cfg.layout.ipc, cfg.invertPixelClock.toNat),
    (.ofBit cfg.layout.adpen, true.toNat)]

/-- What `CONTROL` holds, for a depth code (R94, R167). -/
def controlParts (l : Layout) (code : Nat) : List (Field × Nat) :=
  [(.ofBit l.en, true.toNat), (l.bpp, code), (.ofBit l.tft, true.toNat), (.ofBit l.bgr, true.toNat),
    (l.endian, l.endianLeLe)]

theorem inRange_cons {p : Field × Nat} {ps : List (Field × Nat)} : InRange (p :: ps) ↔ p.2 < 2 ^ p.1.width ∧ InRange ps :=
  List.forall_mem_cons

theorem inRange_nil : InRange [] := nofun

theorem toNat_lt_ofBit (b : Nat) (c : Bool) : c.toNat < 2 ^ (Field.ofBit b).width := c.toNat_lt

theorem wellPacked_htimingParts {l : Layout} (hwf : l.wf = true) (m : DisplayMode) : WellPacked (htimingParts l m) := by
  obtain ⟨hformat, -⟩ := layout_wf_parts hwf
  exact ⟨hformat, by simp only [htimingParts, inRange_cons, reduced_lt, inRange_nil, and_self]⟩

theorem wellPacked_vtimingParts {l : Layout} (hwf : l.wf = true) (m : DisplayMode) : WellPacked (vtimingParts l m) := by
  obtain ⟨-, hformat, -⟩ := layout_wf_parts hwf
  exact ⟨hformat, by simp only [vtimingParts, inRange_cons, reduced_lt, inRange_nil, and_self]⟩

theorem wellPacked_clockPolarityParts {cfg : Config} (hwf : cfg.layout.wf = true) (d : Nat) (s : Word) :
    WellPacked (clockPolarityParts cfg d s) := by
  obtain ⟨-, -, hformat, -⟩ := layout_wf_parts hwf
  exact ⟨hformat, by simp only [clockPolarityParts, inRange_cons, reduced_lt, toNat_lt_ofBit, inRange_nil, and_self]⟩

theorem wellPacked_controlParts {l : Layout} (hwf : l.wf = true) {code : Nat} (hcode : code < 8) :
    WellPacked (controlParts l code) := by
  obtain ⟨-, -, -, hformat, -, -, hbpp, hendian, -⟩ := layout_wf_parts hwf
  have hfits : code < 2 ^ l.bpp.width := by rwa [hbpp]
  exact ⟨hformat, by simp only [controlParts, inRange_cons, toNat_lt_ofBit, hfits, hendian, inRange_nil, and_self]⟩

/-- Whatever the policy, a word that is built holds the reduced values (R100). -/
theorem eq_insAll_of_encHtiming {cfg : Config} {m : DisplayMode} {w : Word} (h : encHtiming cfg m = .ok w) :
    w = insAll (htimingParts cfg.layout m) := by
  rcases encHtiming_cases cfg m with ⟨a, b, c, d, ha, hb, hc, hd, hw⟩ | ⟨f, -, hw⟩ <;> rw [hw] at h <;> cases h
  rw [checked_eq_emod ha, checked_eq_emod hb, checked_eq_emod hc, checked_eq_emod hd]
  simp only [htimingParts, insAll, BitVec.or_zero, BitVec.or_assoc]
  rfl

theorem eq_insAll_of_encVtiming {cfg : Config} {m : DisplayMode} {w : Word} (h : encVtiming cfg m = .ok w) :
    w = insAll (vtimingParts cfg.layout m) := by
  rcases encVtiming_cases cfg m with ⟨a, b, c, d, ha, hb, hc, hd, hw⟩ | ⟨f, -, hw⟩ <;> rw [hw] at h <;> cases h
  rw [checked_eq_emod ha, checked_eq_emod hb, checked_eq_emod hc, checked_eq_emod hd]
  simp only [vtimingParts, insAll, BitVec.or_zero, BitVec.or_assoc]
  rfl

theorem eq_insAll_of_encClockPolarity {cfg : Config} {d : Nat} {s w : Word} (h : encClockPolarity cfg d s = .ok w) :
    w = insAll (clockPolarityParts cfg d s) := by
  rcases encClockPolarity_cases cfg d s with ⟨v, hv, hw⟩ | ⟨f, -, hw⟩ <;> rw [hw] at h <;> cases h
  rw [checked_eq_emod hv]
  simp only [clockPolarityParts, insAll, BitVec.or_zero, flag_eq_ins]
  ac_rfl

theorem encControl_of_bppCode {l : Layout} {b code : Nat} (h : bppCode l b = .ok code) :
    encControl l b = .ok (insAll (controlParts l code)) := by
  simp only [encControl, h, controlParts, insAll, BitVec.or_zero, flag_eq_ins, Except.ok.injEq]
  ac_rfl

/-! ### What the timing words hold -/

/-- The four fields of a built `HTIMING` (R100, R172). -/
theorem ext_htiming {cfg : Config} {m : DisplayMode} {w : Word} (hwf : cfg.layout.wf = true)
    (h : encHtiming cfg m = .ok w) :
    ext cfg.layout.ppl w = reduced cfg.layout.ppl (sixteenths m.xres.toNat) ∧
      ext cfg.layout.hw w = reduced cfg.layout.hw (minusOne m.hsyncLen.toNat) ∧
      ext cfg.layout.hfp w = reduced cfg.layout.hfp (minusOne m.rightMargin.toNat) ∧
      ext cfg.layout.hbp w = reduced cfg.layout.hbp (minusOne m.leftMargin.toNat) := by
  have hext {f : Field} {v : Nat} (hmem : (f, v) ∈ htimingParts cfg.layout m) : ext f w = v := by
    rw [eq_insAll_of_encHtiming h]
    exact ext_insAll (wellPacked_htimingParts hwf m) hmem
  refine ⟨hext ?_, hext ?_, hext ?_, hext ?_⟩ <;> simp [htimingParts]

/-- The four fields of a built `VTIMING` (R100, R173). -/
theorem ext_vtiming {cfg : Config} {m : DisplayMode} {w : Word} (hwf : cfg.layout.wf = true)
    (h : encVtiming cfg m = .ok w) :
    ext cfg.layout.lpp w = reduced cfg.layout.lpp (minusOne m.yres.toNat) ∧
      ext cfg.layout.vw w = reduced cfg.layout.vw (minusOne m.vsyncLen.toNat) ∧
      ext cfg.layout.vfp w = reduced cfg.layout.vfp (plain m.lowerMargin.toNat) ∧
      ext cfg.layout.vbp w = reduced cfg.layout.vbp (plain m.upperMargin.toNat) := by
  have hext {f : Field} {v : Nat} (hmem : (f, v) ∈ vtimingParts cfg.layout m) : ext f w = v := by
    rw [eq_insAll_of_encVtiming h]
    exact ext_insAll (wellPacked_vtimingParts hwf m) hmem
  refine ⟨hext ?_, hext ?_, hext ?_, hext ?_⟩ <;> simp [vtimingParts]

/-- A built `CLOCK_POLARITY` decodes to the reduced divider and the polarity senses (R100, R174). -/
theorem decClockPolarity_of_enc {cfg : Config} {d : Nat} {s w : Word} (hwf : cfg.layout.wf = true)
    (h : encClockPolarity cfg d s = .ok w) :
    decClockPolarity cfg.layout w = ⟨reduced cfg.layout.divno (minusOne d) + 1, s.getLsbD 0, s.getLsbD 1,
      cfg.invertPixelClock, true⟩ := by
  have hpacked := wellPacked_clockPolarityParts hwf d s
  have hdivno : ext cfg.layout.divno w = reduced cfg.layout.divno (minusOne d) := by
    rw [eq_insAll_of_encClockPolarity h]
    exact ext_insAll hpacked (by simp [clockPolarityParts])
  have hflag {b : Nat} {c : Bool} (hmem : (.ofBit b, c.toNat) ∈ clockPolarityParts cfg d s) : w.getLsbD b = c := by
    rw [eq_insAll_of_encClockPolarity h]
    exact getLsbD_insAll_flag hpacked hmem
  have hivs : w.getLsbD cfg.layout.ivs = !s.getLsbD 1 := hflag (by simp [clockPolarityParts])
  have hihs : w.getLsbD cfg.layout.ihs = !s.getLsbD 0 := hflag (by simp [clockPolarityParts])
  have hipc : w.getLsbD cfg.layout.ipc = cfg.invertPixelClock := hflag (by simp [clockPolarityParts])
  have hadpen : w.getLsbD cfg.layout.adpen = true := hflag (by simp [clockPolarityParts])
  simp only [decClockPolarity, hdivno, hivs, hihs, hipc, hadpen, Bool.not_not]

/-- Under `truncate` the range check fails on no field (R100). -/
theorem not_rangeFault_of_truncate {cfg : Config} (hp : cfg.overflowPolicy = .truncate) (f : Fault) :
    ¬ RangeFault cfg f := by
  rintro ⟨hfault, -⟩
  simp [hp] at hfault

/-- Under `truncate` every timing word is built (R100; decision D3). -/
theorem timingWords_of_truncate {cfg : Config} (hp : cfg.overflowPolicy = .truncate) (m : DisplayMode) (d : Nat) :
    ∃ cp ht vt, encClockPolarity cfg d m.syncFlags = .ok cp ∧ encHtiming cfg m = .ok ht ∧ encVtiming cfg m = .ok vt := by
  have hno := not_rangeFault_of_truncate hp
  obtain ⟨_, -, hcp⟩ | ⟨f, hf, -⟩ := encClockPolarity_cases cfg d m.syncFlags
  · obtain ⟨_, _, _, _, -, -, -, -, hht⟩ | ⟨f, hf, -⟩ := encHtiming_cases cfg m
    · obtain ⟨_, _, _, _, -, -, -, -, hvt⟩ | ⟨f, hf, -⟩ := encVtiming_cases cfg m
      · exact ⟨_, _, _, hcp, hht, hvt⟩
      · exact absurd hf (hno f)
    · exact absurd hf (hno f)
  · exact absurd hf (hno f)

/-- `DEC.HTIMING` gives back what fitted, `xres` to 16 pixels (R98, R172, R176). -/
theorem decHtiming_of_fits {cfg : Config} {m : DisplayMode} {k w : Word} (hwf : cfg.layout.wf = true)
    (hfit : FieldsFit cfg m k) (h : encHtiming cfg m = .ok w) :
    decHtiming cfg.layout w = (m.xres.toNat / 16 * 16, m.hsyncLen.toNat, m.rightMargin.toNat, m.leftMargin.toNat) := by
  obtain ⟨hppl, hhw, hhfp, hhbp⟩ := ext_htiming hwf h
  simp only [decHtiming, hppl, hhw, hhfp, hhbp, reduced_sixteenths_add_one hfit.ppl, reduced_minusOne_add_one hfit.hw,
    reduced_minusOne_add_one hfit.hfp, reduced_minusOne_add_one hfit.hbp]

/-- `DEC.VTIMING` gives back what fitted (R173, R176). -/
theorem decVtiming_of_fits {cfg : Config} {m : DisplayMode} {k w : Word} (hwf : cfg.layout.wf = true)
    (hfit : FieldsFit cfg m k) (h : encVtiming cfg m = .ok w) :
    decVtiming cfg.layout w = (m.yres.toNat, m.vsyncLen.toNat, m.lowerMargin.toNat, m.upperMargin.toNat) := by
  obtain ⟨hlpp, hvw, hvfp, hvbp⟩ := ext_vtiming hwf h
  simp only [decVtiming, hlpp, hvw, hvfp, hvbp, reduced_minusOne_add_one hfit.lpp, reduced_minusOne_add_one hfit.vw,
    reduced_plain hfit.vfp, reduced_plain hfit.vbp]

/-- Settles O24: a field of a built word extracts to its reduced value, which is the encoded value itself where that fits. -/
theorem timingWordsRoundTrip : Obligations.TimingWordsRoundTrip := by
  refine ⟨fun cfg m d hwf => ⟨fun w h => decClockPolarity_of_enc hwf h, fun w h => ext_htiming hwf h,
    fun w h => ext_vtiming hwf h, fun hp => timingWords_of_truncate hp m d⟩, fun cfg m k hwf hfit => ?_⟩
  have hcp := encClockPolarity_of_fits (f := m.syncFlags) hfit.divno
  have hht := encHtiming_of_fits hfit.ppl hfit.hw hfit.hfp hfit.hbp
  have hvt := encVtiming_of_fits hfit.lpp hfit.vw hfit.vfp hfit.vbp
  have hdec := decHtiming_of_fits hwf hfit hht
  refine ⟨_, _, _, hcp, hht, hvt, hdec, fun hx => ?_, decVtiming_of_fits hwf hfit hvt, ?_⟩
  · rw [hdec, Nat.div_mul_cancel (Nat.dvd_of_mod_eq_zero hx)]
  · rw [decClockPolarity_of_enc hwf hcp, reduced_minusOne_add_one hfit.divno]

/-! ### The `CONTROL` word -/

/-- The supported depths with their classes (R29). -/
def depthTable : List (Nat × DepthClass) :=
  [(1, .bpp1), (2, .bpp2), (4, .bpp4), (8, .bpp8), (16, .bpp16), (24, .bpp24or32), (32, .bpp24or32)]

/-- Each depth of the table has a code of three bits, which stands for its class: the codes are distinct (R29, R168). -/
theorem bppCode_of_depthTable {l : Layout} (hwf : l.bppCode.wf = true) {bpp : Nat} {c : DepthClass}
    (h : (bpp, c) ∈ depthTable) :
    ∃ code, bppCode l bpp = .ok code ∧ code < 8 ∧ depthClass l.bppCode code = some c := by
  simp only [BppCodes.wf, BppCodes.toList, Bool.and_eq_true, decide_eq_true_eq, List.nodup_cons, List.mem_cons,
    List.not_mem_nil, or_false, not_or, List.all_eq_true, forall_eq_or_imp, forall_eq] at hwf
  simp only [depthTable, List.mem_cons, List.not_mem_nil, or_false, Prod.mk.injEq] at h
  rcases h with ⟨rfl, rfl⟩ | ⟨rfl, rfl⟩ | ⟨rfl, rfl⟩ | ⟨rfl, rfl⟩ | ⟨rfl, rfl⟩ | ⟨rfl, rfl⟩ | ⟨rfl, rfl⟩ <;>
    refine ⟨_, rfl, by simp only [hwf], ?_⟩ <;> simp [depthClass, hwf, eq_comm]

theorem decControl_insAll {l : Layout} {code : Nat} (hwf : l.wf = true) (hcode : code < 8) :
    decControl l (insAll (controlParts l code)) = ⟨true, true, true, l.endianLeLe, depthClass l.bppCode code⟩ := by
  have hpacked := wellPacked_controlParts hwf hcode
  have hext {f : Field} {v : Nat} (hmem : (f, v) ∈ controlParts l code) : ext f (insAll (controlParts l code)) = v :=
    ext_insAll hpacked hmem
  have hflag {b : Nat} (hmem : (.ofBit b, true.toNat) ∈ controlParts l code) :
      (insAll (controlParts l code)).getLsbD b = true := getLsbD_insAll_flag hpacked hmem
  have hen := hflag (b := l.en) (by simp [controlParts])
  have htft := hflag (b := l.tft) (by simp [controlParts])
  have hbgr := hflag (b := l.bgr) (by simp [controlParts])
  have hendian := hext (f := l.endian) (v := l.endianLeLe) (by simp [controlParts])
  have hbpp := hext (f := l.bpp) (v := code) (by simp [controlParts])
  simp only [decControl, hen, htft, hbgr, hendian, hbpp]

theorem encControl_unsupported {l : Layout} {bpp : Nat} (h : ¬ supportedDepth bpp) :
    encControl l bpp = .error (.contractViolation .unsupportedBpp) := by
  simp only [encControl, bppCode_unsupported h]

/-- Settles O25: the depth's code is inserted beside the flags, and distinct codes name their classes. -/
theorem controlWordDecodesToDepth : Obligations.ControlWordDecodesToDepth := by
  intro l hwf
  obtain ⟨-, -, -, -, -, -, -, -, hcodes⟩ := layout_wf_parts hwf
  refine ⟨fun bpp c hc => ?_, rfl, fun bpp h => encControl_unsupported h⟩
  obtain ⟨code, hcode, hlt, hclass⟩ := bppCode_of_depthTable hcodes hc
  exact ⟨_, encControl_of_bppCode hcode, by rw [decControl_insAll hwf hlt, hclass]⟩

/-! ### Reserved bits -/

/-- A `CONTROL` word that is built holds the code of its depth (R167, R168). -/
theorem eq_insAll_of_encControl {l : Layout} {bpp : Nat} {w : Word} (hwf : l.wf = true) (h : encControl l bpp = .ok w) :
    ∃ code, code < 8 ∧ w = insAll (controlParts l code) := by
  obtain ⟨-, -, -, -, -, -, -, -, hcodes⟩ := layout_wf_parts hwf
  by_cases hd : supportedDepth bpp
  · have htable : ∃ c, (bpp, c) ∈ depthTable := by
      simp only [supportedDepth, List.mem_cons, List.not_mem_nil, or_false] at hd
      rcases hd with rfl | rfl | rfl | rfl | rfl | rfl | rfl <;> simp [depthTable]
    obtain ⟨c, hc⟩ := htable
    obtain ⟨code, hcode, hlt, -⟩ := bppCode_of_depthTable hcodes hc
    rw [encControl_of_bppCode hcode] at h
    cases h
    exact ⟨code, hlt, rfl⟩
  · rw [encControl_unsupported hd] at h
    cases h

/-- Settles O26: a built word is made of fields in range, none of which reaches a bit outside it. -/
theorem reservedBitsAreWrittenZero : Obligations.ReservedBitsAreWrittenZero := by
  intro cfg m d w n hwf
  refine ⟨fun h hn => ?_, fun h hn => ?_, fun h hn => ?_, fun h hn => ?_⟩
  · rw [eq_insAll_of_encHtiming h]
    exact getLsbD_insAll_outside (wellPacked_htimingParts hwf m).inRange hn
  · rw [eq_insAll_of_encVtiming h]
    exact getLsbD_insAll_outside (wellPacked_vtimingParts hwf m).inRange hn
  · rw [eq_insAll_of_encClockPolarity h]
    exact getLsbD_insAll_outside (wellPacked_clockPolarityParts hwf d m.syncFlags).inRange hn
  · obtain ⟨code, hlt, rfl⟩ := eq_insAll_of_encControl hwf h
    exact getLsbD_insAll_outside (wellPacked_controlParts hwf hlt).inRange hn

end Sys2Proof.Machine

/-! The family of the register accesses (40_register_access.md): the writes of the storing registers (R130 to R136), the gate
on EN for a write and for a commit (R136, R169), the reads (R138, R139) and the two directions the source does not show
(R140). -/

namespace Sys2Proof.Machine

/-! ### The writes of the storing registers -/

/-- A write that does not enable the display too early stores its word (R131 to R136). -/
theorem exec_writeOf_stores {r : StoringReg} {v : Word} {s : State} (h : r = .control → enableTooEarly v s = false) :
    exec (writeOf r v) s = .next (finish (.ok .unit) (storeReg r v s)) := by
  have hstores : ¬ (r = .control ∧ enableTooEarly v s = true) := fun ⟨hr, he⟩ => by simp [h hr] at he
  rw [exec_writeOf, if_neg hstores]

theorem owner_writeOf (r : StoringReg) (v : Word) : owner (writeOf r v) = .cfg := by
  cases r <;> rfl

/-- Settles O13: the write is the store of the register file, which the laws of read after write describe. -/
theorem storingWritesStoreWholeWord : Obligations.StoringWritesStoreWholeWord :=
  ⟨fun _ _ _ h => exec_writeOf_stores h,
   fun x r v => ⟨getReg_setReg_same x r v, fun _ hne => getReg_setReg_other x v hne⟩,
   fun _ _ _ h => setReg_eq_self h,
   owner_writeOf⟩

/-! ### The gate on EN -/

theorem timingWritten_eq_false_iff {x : Regs} : timingWritten x = false ↔
    isWritten x.htiming = false ∨ isWritten x.vtiming = false ∨ isWritten x.clockPolarity = false ∨
      isWritten x.frameBase = false := by
  simp only [timingWritten, Bool.and_eq_false_iff, or_assoc]

/-- When a write of `CONTROL` faults (R136). -/
theorem enableTooEarly_iff {v : Word} {s : State} : enableTooEarly v s = true ↔
    v.getLsbD s.cfg.layout.en = true ∧
      (isWritten s.regs.htiming = false ∨ isWritten s.regs.vtiming = false ∨ isWritten s.regs.clockPolarity = false ∨
        isWritten s.regs.frameBase = false) := by
  simp only [enableTooEarly, enableSet, Bool.and_eq_true, Bool.not_eq_true', timingWritten_eq_false_iff]

theorem exec_wrControl_of_tooEarly {v : Word} {s : State} (h : enableTooEarly v s = true) :
    exec (.wrControl v) s = .next (raiseFault .enableBeforeTiming s) :=
  (exec_writeOf .control v s).trans (by rw [if_pos ⟨rfl, h⟩])

/-- The fourth write of a commit is gated as any write of `CONTROL` is, and leaves the commit where it stands (R169). -/
theorem endCommit_of_tooEarly {p : Pend} {s : State} (h : enableTooEarly p.timing.ct s = true) :
    endCommit p s = raiseFault .enableBeforeTiming s := by
  simp only [endCommit, h, if_true]

/-- EN set in a written `CONTROL` starts the display pipeline (R136). -/
theorem pipelineStarted_of_enable {s : State} {v : Word} (hc : s.regs.control = .holds v)
    (hen : v.getLsbD s.cfg.layout.en = true) : pipelineStarted s = true := by
  simp only [pipelineStarted, hc, enableSet, hen, Bool.true_or]

/-- Settles O14: a write of `CONTROL`, a commit's fourth among them, faults exactly when it is too early, and the word stored
otherwise shows the pipeline its EN. -/
theorem controlEnableNeedsTiming : Obligations.ControlEnableNeedsTiming := by
  refine ⟨fun v s hen hunwritten => ?_, fun s p rest hf hs hgap hseq hp hen hbase => ?_, fun v s hfree => ?_⟩
  · exact exec_wrControl_of_tooEarly (enableTooEarly_iff.mpr ⟨hen, hunwritten⟩)
  · have hearly : enableTooEarly p.timing.ct (beginStep rest s) = true :=
      enableTooEarly_iff.mpr ⟨hen, .inr (.inr (.inr hbase))⟩
    calc step s = .next (continueCommit (beginStep rest s)) := step_resume_cfg hf hgap hs
      _ = .next (endCommit p (beginStep rest s)) := by rw [continueCommit_of_c3 (s := beginStep rest s) hseq hp]
      _ = .next (raiseFault .enableBeforeTiming (beginStep rest s)) := by rw [endCommit_of_tooEarly hearly]
      _ = _ := by simp only [raiseFault, beginStep, hf, Option.getD_none]
  · have hstores : exec (.wrControl v) s = .next (finish (.ok .unit) (storeReg .control v s)) :=
      exec_writeOf_stores (r := .control) fun _ => enableTooEarly_eq_false_iff.mpr hfree
    exact ⟨_, hstores, rfl, fun hen => pipelineStarted_of_enable rfl hen⟩

/-! ### The reads -/

/-- Settles O16: a read puts the word on the bus and returns it, and a second one finds the same word. -/
theorem statusReadHasNoSideEffect : Obligations.StatusReadHasNoSideEffect :=
  ⟨rfl, fun s => ⟨finish (.ok (.word s.intStatus)) (readStatus s), rfl, rfl, rfl⟩⟩

theorem exec_readOf (r : StoringReg) (s : State) : exec (readOf r) s = .next (readStoring r s) := by
  cases r <;> rfl

section
variable {r : StoringReg} {s : State}

/-! The answer of a read by the policy and by what the register holds (R139). -/

theorem readStoring_of_holds (hb : s.cfg.readback = .stored) {w : Word} (hr : getReg s.regs r = .holds w) :
    readStoring r s = finish (.ok (.word w)) { s with bus := some (.read r.reg w) } := by
  simp only [readStoring, hb, hr]

theorem readStoring_of_unwritten (hb : s.cfg.readback = .stored) (hr : isWritten (getReg s.regs r) = false) :
    readStoring r s = raiseFault (.readUnwritten r) s := by
  obtain ⟨w, hw⟩ := isWritten_eq_false_iff.mp hr
  simp only [readStoring, hb, hw]

theorem readStoring_of_refuse (hb : s.cfg.readback = .refuse) : readStoring r s = refuse (.readNotShown r) s := by
  simp only [readStoring, hb]

end

/-- Settles O17: each read is the one bus read of its register, which answers by the policy. -/
theorem storingReadsFollowReadback : Obligations.StoringReadsFollowReadback := by
  refine ⟨fun r s w hb hr => ?_, fun r s hb hr => ?_, fun r s hb => ?_⟩
  · rw [exec_readOf, readStoring_of_holds hb hr]
    rfl
  · rw [exec_readOf, readStoring_of_unwritten hb hr]
    rfl
  · rw [exec_readOf, readStoring_of_refuse hb]
    rfl

/-! ### The directions the source does not show -/

/-- Settles O18: both operations are the refusal itself. -/
theorem unshownDirectionsSetTheMark : Obligations.UnshownDirectionsSetTheMark :=
  ⟨fun _ _ => rfl, fun _ => rfl⟩

end Sys2Proof.Machine

/-! The family of the timing encoder (41_timing_encoder.md): its clock arithmetic (R160 to R163), the failures of a commit's
pure phase (R164 to R169, R247), and the runs of a commit to its end: what is refused inside one, what may come between its
writes, and its repetition (R170, R171). -/

namespace Sys2Proof.Machine

/-! ### Clock arithmetic -/

section
variable {a b c : Nat}

theorem le_ceilDiv_mul (hb : 0 < b) : a ≤ ceilDiv a b * b := (ceilDiv_le_iff hb).mp le_rfl

theorem ceilDiv_mul_lt (hb : 0 < b) : ceilDiv a b * b < a + b := by
  have hle : ceilDiv a b * b ≤ a + b - 1 := Nat.div_mul_le_self (a + b - 1) b
  omega

theorem le_ceilDiv_of_mul_le (hb : 0 < b) (h : c * b ≤ a) : c ≤ ceilDiv a b :=
  Nat.le_of_mul_le_mul_right (h.trans (le_ceilDiv_mul hb)) hb

theorem ceilDiv_eq_one (ha : 0 < a) (h : a ≤ b) : ceilDiv a b = 1 := by
  have hb : 0 < b := ha.trans_le h
  exact le_antisymm ((ceilDiv_le_iff hb).mpr (by rwa [Nat.one_mul])) ((ceilDiv_pos_iff hb).mpr ha)

end

theorem pixRate_le {p : Nat} (hp : 0 < p) : pixRate p ≤ 10 ^ 9 :=
  (ceilDiv_le_iff hp).mpr (Nat.le_mul_of_pos_right _ hp)

/-- The ceiling of R160, by its two bounds. -/
theorem pixRate_ceiling {p : Nat} (hp : 0 < p) : 10 ^ 9 ≤ pixRate p * p ∧ (pixRate p - 1) * p < 10 ^ 9 := by
  have hlt : pixRate p * p < 10 ^ 9 + p := ceilDiv_mul_lt hp
  refine ⟨le_ceilDiv_mul hp, ?_⟩
  rw [Nat.sub_mul]
  omega

theorem planCommit_of_pixclock_zero {m : DisplayMode} (h : m.pixclock = 0#32) (cfg : Config) (k : Word) :
    planCommit cfg m k = .fault (.contractViolation .pixclockZero) := by
  simp only [planCommit, h, if_true]

/-- Settles O20: both are ceilings, and `pixclock = 0` is the first thing that validator and commit look at. -/
theorem pixelRateAndSizeAreCeilings : Obligations.PixelRateAndSizeAreCeilings := by
  refine ⟨fun p hp => ?_, rfl, rfl, rfl, fun cfg r c k cap h => ?_,
    fun cfg m k h => planCommit_of_pixclock_zero h cfg k, fun b => ?_, rfl⟩
  · have hle := pixRate_le hp
    obtain ⟨hlow, hhigh⟩ := pixRate_ceiling hp
    exact ⟨pixRate_pos hp, hle, by omega, hlow, hhigh, ceilDiv_eq_one (by norm_num)⟩
  · simp only [validateMode, h, if_true]
  · have hlow : b ≤ bytesPerPixel b * 8 := le_ceilDiv_mul (by norm_num)
    have hhigh : bytesPerPixel b * 8 < b + 8 := ceilDiv_mul_lt (by norm_num)
    omega

/-- Settles O21: the divider is the ceiling of the clock over a rate that is never 0. -/
theorem dividerIsZeroOnlyForZeroClock : Obligations.DividerIsZeroOnlyForZeroClock := by
  intro k p hp
  have hrate : 0 < pixRate p := pixRate_pos hp
  refine ⟨divCalc_eq_zero_iff hp, ceilDiv_eq_one, le_ceilDiv_mul hrate, ceilDiv_mul_lt hrate, fun bpp h => ?_⟩
  exact le_ceilDiv_of_mul_le hrate (Nat.mul_comm _ _ ▸ h)

/-- Since the divider times the rate reaches the clock, the clock over the divider is at most the rate (R163). -/
theorem effectiveClock_le_pixRate {k p : Nat} (hd : 0 < divCalc k p) (hp : 0 < p) :
    effectiveClock k (divCalc k p) ≤ pixRate p :=
  (ceilDiv_le_iff hd).mpr ((le_ceilDiv_mul (pixRate_pos hp)).trans_eq (Nat.mul_comm _ _))

/-- Settles O22: the two roundings by their bounds, and a divider that is not 0. -/
theorem achievedClockNeverExceedsRequest : Obligations.AchievedClockNeverExceedsRequest := by
  refine ⟨fun k d hd => ⟨le_ceilDiv_mul hd, ceilDiv_mul_lt hd⟩, fun e he => ⟨Nat.div_mul_le_self _ _, ?_⟩,
    fun cfg m k hc => ?_, fun k p hk hp => ?_⟩
  · exact (Nat.lt_mul_div_succ _ he).trans_eq (Nat.mul_comm _ _)
  · obtain ⟨t, ht, hplan⟩ := planCommit_of_committable hc
    exact ⟨t, hplan, ht.divider, ht.effective, ht.pixclock⟩
  · have hd : 0 < divCalc k p := (ceilDiv_pos_iff (pixRate_pos hp)).mpr hk
    exact ⟨(ceilDiv_pos_iff hd).mpr hk, effectiveClock_le_pixRate hd hp, Nat.div_le_self _ _⟩

/-! ### The failures of the pure phase -/

theorem planCommit_of_clock_zero {m : DisplayMode} (h : m.pixclock ≠ 0#32) (cfg : Config) :
    planCommit cfg m 0#32 = .error .clockExceedsBus := by
  have hdiv : divCalc (0#32).toNat m.pixclock.toNat = 0 := (divCalc_eq_zero_iff (toNat_pos_of_ne h)).mpr rfl
  simp only [planCommit, if_neg h, hdiv, if_true]

/-- The timing words are built where every field fits, and under `truncate` anyhow (R100). -/
theorem timingWords_of_fields {cfg : Config} {m : DisplayMode} {k : Word}
    (h : cfg.overflowPolicy = .truncate ∨ FieldsFit cfg m k) :
    ∃ cp ht vt, encClockPolarity cfg (divCalc k.toNat m.pixclock.toNat) m.syncFlags = .ok cp ∧
      encHtiming cfg m = .ok ht ∧ encVtiming cfg m = .ok vt := by
  rcases h with hp | hfit
  · exact timingWords_of_truncate hp m _
  · exact ⟨_, _, _, encClockPolarity_of_fits hfit.divno, encHtiming_of_fits hfit.ppl hfit.hw hfit.hfp hfit.hbp,
      encVtiming_of_fits hfit.lpp hfit.vw hfit.vfp hfit.vbp⟩

/-- The depth is looked at last, when the three timing words are built (R168, R169). -/
theorem planCommit_of_unsupported {cfg : Config} {m : DisplayMode} {k : Word} (hp : m.pixclock ≠ 0#32) (hk : k ≠ 0#32)
    (hfields : cfg.overflowPolicy = .truncate ∨ FieldsFit cfg m k) (hd : ¬ supportedDepth m.bitsPerPixel.toNat) :
    planCommit cfg m k = .fault (.contractViolation .unsupportedBpp) := by
  obtain ⟨cp, ht, vt, hcp, hht, hvt⟩ := timingWords_of_fields hfields
  have hct : encControl cfg.layout m.bitsPerPixel.toNat = .error (.contractViolation .unsupportedBpp) :=
    encControl_unsupported hd
  rcases planCommit_cases cfg m k with ⟨h, -⟩ | ⟨-, h, -⟩ | ⟨f, -, -, hwords, h⟩ | ⟨t, -, -, htiming, -⟩
  · exact absurd h hp
  · exact absurd h hk
  · simp only [commitWords, hcp, hht, hvt, hct] at hwords
    cases hwords
    exact h
  · have hok := htiming.ct
    rw [hct] at hok
    cases hok

section
variable {s : State} {m : DisplayMode} {k : Word} (v : Option DisplayMode)

/-! A commit that does not start: one end for each answer of the pure phase, and the refusal (R169, R170). -/

theorem startCommit_of_fault {f : Fault} (hidle : s.seq = .idle) (h : planCommit s.cfg m k = .fault f) :
    startCommit v m k s = raiseFault f s := by
  simp only [startCommit, hidle, h, if_true]

theorem startCommit_of_error {e : TimingError} (hidle : s.seq = .idle) (h : planCommit s.cfg m k = .error e) :
    startCommit v m k s = finish (.error (.timing e)) s := by
  simp only [startCommit, hidle, h, if_true]

theorem startCommit_of_ready {t : CommittedTiming} (hidle : s.seq = .idle) (h : planCommit s.cfg m k = .ready t) :
    startCommit v m k s = { storeReg .clockPolarity t.cp s with seq := .c1, pend := some ⟨t, v⟩ } := by
  simp only [startCommit, hidle, h, if_true]

theorem startCommit_of_busy (hbusy : s.seq ≠ .idle) : startCommit v m k s = refuse .commitInProgress s := by
  simp only [startCommit, if_neg hbusy]

end

/-- Settles O28: each cause decides the pure phase when those before it are absent, and no end of a commit that does not
start writes a register. -/
theorem commitFailuresTouchNoRegister : Obligations.CommitFailuresTouchNoRegister := by
  refine ⟨fun m k s hidle hp => ?_, fun m s hidle hp => ?_, fun m k s hidle hp hk ho hmisfit => ?_,
    fun m k s hidle hp hk hfields hd => ?_, fun m k s hbusy => ?_⟩
  · exact congrArg Host.Outcome.next (startCommit_of_fault none hidle (planCommit_of_pixclock_zero hp s.cfg k))
  · exact congrArg Host.Outcome.next (startCommit_of_error none hidle (planCommit_of_clock_zero hp s.cfg))
  · obtain ⟨n, e, hfirst, hfit, hplan⟩ := planCommit_of_misfit hp hk ho hmisfit
    exact ⟨n, e, hfirst, hfit, congrArg Host.Outcome.next (startCommit_of_fault none hidle hplan)⟩
  · exact congrArg Host.Outcome.next
      (startCommit_of_fault none hidle (planCommit_of_unsupported hp hk hfields hd))
  · exact congrArg Host.Outcome.next (startCommit_of_busy none hbusy)

/-- A validated mode passes the two guards and has a supported depth, so that a field's range alone is left (R240, R247). -/
theorem planCommit_of_validated {cfg : Config} {r c v : DisplayMode} {k : Word} {cap : Option Nat}
    (h : validateMode cfg r c k.toNat cap = .ok v) :
    (∃ t, planCommit cfg v k = .ready t) ∨ ∃ n e, planCommit cfg v k = .fault (.encodeRange n e) := by
  obtain ⟨hd, hp, hk⟩ := validateMode_ok_depth h
  rcases planCommit_cases cfg v k with ⟨h0, -⟩ | ⟨-, rfl, -⟩ | ⟨f, -, -, hwords, hplan⟩ | ⟨t, -, -, -, hplan⟩
  · exact absurd h0 hp
  · exact absurd hk (lt_irrefl 0)
  · rcases commitWords_error hwords with ⟨-, n, e, -, rfl⟩ | ⟨hnd, -⟩
    · exact .inr ⟨n, e, hplan⟩
    · exact absurd hd hnd
  · exact .inl ⟨t, hplan⟩

/-- The step after a `SET_MODE`'s first starts its commit (R247, log 11). -/
theorem step_resume_cfg_of_gap {s : State} {v : DisplayMode} {rest : List Action} (hf : s.fault = none)
    (hgap : s.setModeGap = some v) (hs : s.schedule = .resume .cfg :: rest) :
    step s = .next (startCommit (some v) v s.cfg.clockKhz { beginStep rest s with setModeGap := none }) := by
  rw [step_of_schedule_cons hf hs]
  simp only [perform, continueCfg, beginStep_setModeGap, hgap, beginStep_cfg]

/-- Settles O57: what the validator has checked leaves only the range, and a misfit ends the call in the latch. -/
theorem validatedModeNeverExceedsBus : Obligations.ValidatedModeNeverExceedsBus := by
  refine ⟨fun cfg r c k cap v h => planCommit_of_validated h, fun s r c cap v rest h hf hidle hgap hs ho hmisfit => ?_⟩
  obtain ⟨-, hp, hk⟩ := validateMode_ok_depth h
  have hclock : s.cfg.clockKhz ≠ 0#32 := fun h0 => by simp [h0] at hk
  obtain ⟨n, e, hfirst, hfit, hplan⟩ := planCommit_of_misfit hp hclock ho hmisfit
  refine ⟨n, e, hfirst, hfit, ?_⟩
  rw [step_resume_cfg_of_gap hf hgap hs,
    startCommit_of_fault (s := { beginStep rest s with setModeGap := none }) (some v) hidle hplan]
  simp only [raiseFault, beginStep, hf, Option.getD_none]

/-! ### Requests inside a commit -/

theorem gate_cfg_of_busy {i : Instr} {s : State} (hi : owner i = .cfg) (hbusy : cfgBusy s = true) :
    gate .cfg i s = some .commitInProgress := by
  simp [gate, hi, Ctx.agent, hbusy]

theorem issue_of_gate_some {a : Agent} {c : Code} {i : Instr} {s : State} {r : Refusal} (hd : decode c = .ok i)
    (hg : gate a i s = some r) (reply : AllocReply) : issue a c reply s = .next (refuse r s) := by
  simp only [issue, hd, hg]

/-- Settles O9: the gate refuses the request before its operation is looked at. -/
theorem noConfigurationStepInsideCommit : Obligations.NoConfigurationStepInsideCommit := by
  intro s c reply rest i hf hs hd hi hcall
  have hbusy : cfgBusy (beginStep rest s) = true := by
    by_contra h
    obtain ⟨hidle, hgap⟩ := cfgBusy_eq_false_iff.mp (Bool.eq_false_iff.mpr h)
    exact hcall.elim (absurd hidle) (absurd hgap)
  calc step s = issue .cfg c reply (beginStep rest s) := step_of_schedule_cons hf hs
    _ = .next (refuse .commitInProgress (beginStep rest s)) := issue_of_gate_some hd (gate_cfg_of_busy hi hbusy) reply

/-! ### Steps between the writes of a commit -/

theorem perform_next_of_sparesCfg {a : Action} (ha : a.sparesCfg = true) (s : State) : ∃ t, perform a s = .next t := by
  rcases perform_cases a s with h | ⟨g, c, reply, op, rfl, hd, -⟩ | ⟨k, b, rfl, -, -, -⟩
  · exact h
  · simp [Action.sparesCfg, hd] at ha
  · cases ha

theorem exec_schedule_of_owner_evt {i : Instr} (hi : owner i = .evt) {s t : State} (h : exec i s = .next t) :
    t.schedule = s.schedule := by
  have hpoll : (startPoll s).schedule = s.schedule := by
    rcases startPoll_cases s with ⟨-, hp⟩ | ⟨w, -, hp⟩ <;> rw [hp] <;> rfl
  cases i with
  | wrIntClear v => cases h; rfl
  | rdIntStatus => cases h; rfl
  | wrIntStatus v => cases h; rfl
  | rdIntClear => cases h; rfl
  | pollAck => cases h; exact hpoll
  | pollEvents => cases h; exact hpoll
  | _ => cases hi

/-- What the event context and the display engine do takes no entry off the schedule but its own. -/
theorem perform_schedule_of_sparesCfg {a : Action} {s t : State} (ha : a.sparesCfg = true)
    (h : perform a s = .next t) : t.schedule = s.schedule := by
  have hengine (he : a.ofEngine = true) : t.schedule = s.schedule := by rw [perform_engine_next he h]
  cases a with
  | issue agent c reply =>
    rcases issue_next h with ⟨r, rfl⟩ | ⟨i, hd, -, hx⟩
    · rfl
    · exact (exec_schedule_of_owner_evt (owner_evt_of_sparesCfg ha hd) hx :)
  | resume ctx =>
    cases ctx with
    | cfg => cases ha
    | evt =>
      cases h
      rcases continuePoll_cases s with ⟨-, hp⟩ | ⟨w, -, hp⟩ <;> rw [hp]
      rfl
  | raise e => exact hengine rfl
  | latch => exact hengine rfl
  | scan => exact hengine rfl
  | drawReserved w => exact hengine rfl
  | free k => cases ha

/-- `t` has the configuration context's state as `s` has it, can step, and has `rest` still to come. -/
structure SparedUntil (rest : List Action) (s t : State) : Prop extends ConfigKept s t where
  fault : t.fault = none
  schedule : t.schedule = rest

theorem step_of_sparesCfg {s : State} {a : Action} {rest : List Action} (hf : s.fault = none)
    (hs : s.schedule = a :: rest) (ha : a.sparesCfg = true) : ∃ t, step s = .next t ∧ SparedUntil rest s t := by
  obtain ⟨t, ht⟩ := perform_next_of_sparesCfg ha (beginStep rest s)
  obtain ⟨hk, hfault⟩ := configKept_of_sparesCfg ha ht
  refine ⟨t, (step_of_schedule_cons hf hs).trans ht, ?_⟩
  exact { ConfigKept.trans (t := beginStep rest s) {} hk with
    fault := hfault.trans hf, schedule := perform_schedule_of_sparesCfg ha ht }

/-- Any number of such steps is taken to the end, and leaves the configuration context where it was (R170). -/
theorem stepN_of_sparesCfg {e rest : List Action} (he : ∀ x ∈ e, x.sparesCfg = true) {s : State} (hf : s.fault = none)
    (hs : s.schedule = e ++ rest) : ∃ t, stepN e.length s = .next t ∧ SparedUntil rest s t := by
  induction e generalizing s with
  | nil => exact ⟨s, rfl, { fault := hf, schedule := hs }⟩
  | cons a e ih =>
    obtain ⟨ha, he⟩ := List.forall_mem_cons.mp he
    obtain ⟨t, hstep, ht⟩ := step_of_sparesCfg hf hs ha
    obtain ⟨u, hrun, hu⟩ := ih he ht.fault ht.schedule
    exact ⟨u, (stepN_succ_of_step hstep).trans hrun, { ht.trans hu.toConfigKept with
      fault := hu.fault, schedule := hu.schedule }⟩

/-- Whatever such steps come first, the context's next step goes on from the state it left (R170). -/
theorem stepN_spared_resume {e rest : List Action} (he : ∀ x ∈ e, x.sparesCfg = true) {s : State} (hf : s.fault = none)
    (hs : s.schedule = e ++ .resume .cfg :: rest) :
    ∃ t, stepN (e.length + 1) s = .next (continueCfg t) ∧ SparedUntil rest s t := by
  obtain ⟨t, hrun, ht⟩ := stepN_of_sparesCfg he hf hs
  have hstep : step t = .next (continueCfg (beginStep rest t)) := step_of_schedule_cons ht.fault ht.schedule
  exact ⟨beginStep rest t, stepN_trans hrun (stepN_succ_of_step hstep), { ht.toConfigKept.trans {} with
    fault := ht.fault, schedule := rfl }⟩

theorem continueCfg_of_gap_none {s : State} (h : s.setModeGap = none) : continueCfg s = continueCommit s := by
  simp only [continueCfg, h]

/-- A write of the commit does the same to two states that agree on the configuration context. -/
theorem ConfigKept.advance {s t : State} (h : ConfigKept s t) (r : StoringReg) (w : Word) (q : Seq) :
    ConfigKept { storeReg r w s with seq := q } { storeReg r w t with seq := q } :=
  { h with regs := congrArg (setReg · r w) h.regs, seq := rfl }

/-- A commit at C1 comes to its last write, whatever comes between its writes (R169, R170). -/
theorem stepN_commit_of_c1 {e0 e1 e2 rest : List Action} (he : ∀ x ∈ e0 ++ e1 ++ e2, x.sparesCfg = true) {s : State}
    {p : Pend} (hf : s.fault = none) (hgap : s.setModeGap = none) (hseq : s.seq = .c1) (hp : s.pend = some p)
    (hs : s.schedule = e0 ++ .resume .cfg :: (e1 ++ .resume .cfg :: (e2 ++ .resume .cfg :: rest))) :
    ∃ t, stepN (e0.length + 1 + (e1.length + 1) + (e2.length + 1)) s = .next (endCommit p t) ∧
      SparedUntil rest { storeReg .vtiming p.timing.vt (storeReg .htiming p.timing.ht s) with seq := .c3 } t := by
  simp only [List.forall_mem_append] at he
  obtain ⟨⟨he0, he1⟩, he2⟩ := he
  obtain ⟨t0, hrun0, h0⟩ := stepN_spared_resume he0 hf hs
  rw [continueCfg_of_gap_none (h0.setModeGap.trans hgap),
    continueCommit_of_c1 (h0.seq.trans hseq) (h0.pend.trans hp)] at hrun0
  obtain ⟨t1, hrun1, h1⟩ := stepN_spared_resume he1
    (s := { storeReg .htiming p.timing.ht t0 with seq := .c2 }) h0.fault h0.schedule
  have hk1 := (h0.advance .htiming p.timing.ht .c2).trans h1.toConfigKept
  rw [continueCfg_of_gap_none (hk1.setModeGap.trans hgap),
    continueCommit_of_c2 h1.seq (hk1.pend.trans hp)] at hrun1
  obtain ⟨t2, hrun2, h2⟩ := stepN_spared_resume he2
    (s := { storeReg .vtiming p.timing.vt t1 with seq := .c3 }) h1.fault h1.schedule
  have hk2 := (hk1.advance .vtiming p.timing.vt .c3).trans h2.toConfigKept
  rw [continueCfg_of_gap_none (hk2.setModeGap.trans hgap),
    continueCommit_of_c3 h2.seq (hk2.pend.trans hp)] at hrun2
  exact ⟨t2, stepN_trans (stepN_trans hrun0 hrun1) hrun2,
    { ConfigKept.trans {} hk2 with fault := h2.fault, schedule := h2.schedule }⟩

section
variable {s : State} {m : DisplayMode} {k : Word} {t : CommittedTiming} {reply : AllocReply} {rest : List Action}

/-- The step of a `COMMIT` that can start (R169). -/
theorem step_issue_commit (hf : s.fault = none) (hidle : s.seq = .idle) (hgap : s.setModeGap = none)
    (hm : m.wf = true) (hplan : planCommit s.cfg m k = .ready t)
    (hs : s.schedule = .issue .cfg (encode (.commit m k)) reply :: rest) :
    ∃ u, step s = .next u ∧
      SparedUntil rest { storeReg .clockPolarity t.cp s with seq := .c1, pend := some ⟨t, none⟩ } u := by
  have hrun := stepRunsDecodedOperation s .cfg _ reply rest _ hf hs (decodeInvertsEncode (.commit m k) hm) rfl
    fun _ => ⟨hidle, hgap⟩
  have hstart := startCommit_of_ready (s := { beginStep rest s with allocReply := reply }) none hidle hplan
  exact ⟨_, hrun.trans (congrArg Host.Outcome.next hstart), { fault := hf, schedule := rfl }⟩

/-- A commit whose pure phase is ready runs to its end, whatever comes between its writes (R169, R170): with its timing and
the frame base written, its last write does not fault (R136). -/
theorem stepN_commit {e0 e1 e2 : List Action} (hf : s.fault = none) (hidle : s.seq = .idle)
    (hgap : s.setModeGap = none) (hm : m.wf = true) (hplan : planCommit s.cfg m k = .ready t)
    (hbase : isWritten s.regs.frameBase = true) (he : ∀ x ∈ e0 ++ e1 ++ e2, x.sparesCfg = true)
    (hs : s.schedule = .issue .cfg (encode (.commit m k)) reply ::
      (e0 ++ .resume .cfg :: (e1 ++ .resume .cfg :: (e2 ++ .resume .cfg :: rest)))) :
    ∃ u, stepN (4 + (e0.length + e1.length + e2.length)) s = .next u ∧
      SparedUntil rest { s with regs := committedRegs s.regs t, pend := none } u ∧
      u.out = some (.ok (.timing t)) ∧ u.bus = some (.write .control t.ct) := by
  obtain ⟨c, hstart, hc⟩ := step_issue_commit hf hidle hgap hm hplan hs
  obtain ⟨w, hrun, hw⟩ := stepN_commit_of_c1 he hc.fault (hc.setModeGap.trans hgap) hc.seq hc.pend hc.schedule
  have hk := ((hc.advance .htiming t.ht .c2).advance .vtiming t.vt .c3).trans hw.toConfigKept
  have hearly : enableTooEarly t.ct w = false := by
    refine enableTooEarly_eq_false_iff.mpr (.inr ?_)
    rw [hk.regs]
    exact ⟨rfl, rfl, rfl, hbase⟩
  rw [endCommit_of_setMode_none hearly rfl] at hrun
  have hcount : 4 + (e0.length + e1.length + e2.length) =
      e0.length + 1 + (e1.length + 1) + (e2.length + 1) + 1 := by omega
  refine ⟨_, hcount ▸ (stepN_succ_of_step hstart).trans hrun, ?_, rfl, rfl⟩
  exact { hk.advance .control t.ct .idle with
    seq := hidle.symm, pend := rfl, fault := hw.fault, schedule := hw.schedule }

end

/-- Settles O29: the commit's own writes are all that touches the configuration context's state. -/
theorem commitCompletesUnderInterleaving : Obligations.CommitCompletesUnderInterleaving := by
  intro s m k reply e0 e1 e2 a hf hidle hgap hm hc hbase he hs
  obtain ⟨t, ht, hplan⟩ := planCommit_of_committable hc
  have hwritten : isWritten s.regs.frameBase = true := isWritten_iff.mpr ⟨a, hbase⟩
  obtain ⟨u, hrun, hu, hout, hbus⟩ := stepN_commit (rest := []) hf hidle hgap hm hplan hwritten he
    (by simpa only [List.append_assoc, List.cons_append] using hs)
  exact ⟨t, u, ht, hrun, hu.regs, hu.seq.trans hidle, hu.pend, hu.fault, hout, hbus, hu.curMode, hu.buf, hu.retired,
    hu.irqInited, hu.setModeGap.trans hgap, hu.schedule⟩

/-- Settles O30: the pure phase of the second commit reads what the first one left alone, and its words are those already
in the registers. -/
theorem commitTwiceLeavesSameRegisters : Obligations.CommitTwiceLeavesSameRegisters := by
  intro s m k r1 r2 a hf hidle hgap hm hc hbase hs
  obtain ⟨t, -, hplan⟩ := planCommit_of_committable hc
  have hwritten : isWritten s.regs.frameBase = true := isWritten_iff.mpr ⟨a, hbase⟩
  obtain ⟨u, hrun, hu, huout, -⟩ := stepN_commit (e0 := []) (e1 := []) (e2 := []) hf hidle hgap hm hplan hwritten nofun hs
  have hplan' : planCommit u.cfg m k = .ready t := by rw [hu.cfg]; exact hplan
  have hwritten' : isWritten u.regs.frameBase = true := by rw [hu.regs]; exact hwritten
  obtain ⟨v, hrun', hv, hvout, -⟩ := stepN_commit (e0 := []) (e1 := []) (e2 := []) (rest := []) hu.fault
    (hu.seq.trans hidle) (hu.setModeGap.trans hgap) hm hplan' hwritten' nofun hu.schedule
  have hsame : v.regs = u.regs := by
    rw [hv.regs, hu.regs]
    rfl
  exact ⟨u, v, hrun, stepN_trans hrun hrun', hsame, hvout.trans huout.symm, by rw [hu.regs]; rfl⟩

end Sys2Proof.Machine

/-! The family of the pan controller (42_pan_controller.md): where the address of a pan within the caller's obligation lies
(R200, R204), and the one write of `FRAME_BASE` that `PAN` and `SETBASE` make (R201, R202). -/

namespace Sys2Proof.Machine

/-! ### A pan within the caller's obligation -/

theorem requiredBytes_eq_mul_lineLength (m : DisplayMode) : requiredBytes m = m.yresVirtual.toNat * lineLength m := by
  rw [requiredBytes, lineLength, Nat.mul_right_comm, Nat.mul_comm]

/-- The first line shown is one of the mode's lines, so it starts before the end of their bytes (R204). -/
theorem mul_lineLength_lt_requiredBytes {m : DisplayMode} {y : Nat} (hyres : 1 ≤ m.yres.toNat)
    (hline : 1 ≤ lineLength m) (hy : y + m.yres.toNat ≤ m.yresVirtual.toNat) : y * lineLength m < requiredBytes m := by
  have hlt : y < m.yresVirtual.toNat := by omega
  rw [requiredBytes_eq_mul_lineLength]
  exact Nat.mul_lt_mul_of_pos_right hlt hline

theorem Buffer.contains_iff {b : Buffer} {a : Word} : b.contains a = true ↔
    b.physicalBase.toNat ≤ a.toNat ∧ a.toNat < b.physicalBase.toNat + b.length := by
  simp only [Buffer.contains, Bool.and_eq_true, decide_eq_true_eq]

/-- Settles O36: the sum does not reach `2^32`, so the address is the largest multiple of `2^g` not above it, and an aligned
base is such a multiple. -/
theorem panInRangeStaysInsideBuffer : Obligations.PanInRangeStaysInsideBuffer := by
  intro g m b y hlen hspace hyres hline hy
  have hoffset : y * lineLength m < b.length := (mul_lineLength_lt_requiredBytes hyres hline hy).trans_le hlen
  have hwrap : b.physicalBase.toNat + y * lineLength m < 2 ^ 32 := by omega
  obtain ⟨haligned, hle, hlt⟩ := panAddressIsAlignedDown g b.physicalBase.toNat (lineLength m) y
  rw [Nat.mod_eq_of_lt hwrap] at hle hlt
  refine ⟨hwrap, by omega, hle, hlt, fun hbase => Buffer.contains_iff.mpr ⟨?_, by omega⟩⟩
  have hmod : b.physicalBase.toNat ≡ (panAddr g b.physicalBase.toNat (lineLength m) y).toNat [MOD 2 ^ g] :=
    hbase.trans haligned.symm
  exact hmod.le_of_lt_add (by omega)

/-! ### The write of the frame base -/

theorem moveBase_of_idle {s : State} (hidle : s.seq = .idle) (a : Word) (o : Value) :
    moveBase a o s = finish (.ok o) (storeReg .frameBase a s) :=
  if_pos hidle

theorem moveBase_of_busy {s : State} (hbusy : s.seq ≠ .idle) (a : Word) (o : Value) :
    moveBase a o s = refuse .commitInProgress s :=
  if_neg hbusy

theorem exec_pan (b l y : Word) (s : State) : exec (.pan b l y) s =
    .next (moveBase (panAddr s.cfg.fbAlignLog2 b.toNat l.toNat y.toNat)
      (.address (panAddr s.cfg.fbAlignLog2 b.toNat l.toNat y.toNat)) s) := rfl

theorem exec_setbase (b : Word) (s : State) : exec (.setbase b) s = .next (moveBase b .unit s) := rfl

/-- Settles O35: both operations are the one guarded write, which the state of the sequencer decides. -/
theorem panAndSetbaseWriteFrameBase : Obligations.PanAndSetbaseWriteFrameBase := by
  refine ⟨fun b l y s hidle => ?_, fun b s hidle => ?_, fun b l y s hbusy => ⟨?_, ?_⟩⟩
  · rw [exec_pan, moveBase_of_idle hidle]
    rfl
  · rw [exec_setbase, moveBase_of_idle hidle]
    rfl
  · rw [exec_pan, moveBase_of_busy hbusy, refuse]
  · rw [exec_setbase, moveBase_of_busy hbusy, refuse]

end Sys2Proof.Machine

/-! The family of the status decoder (43_status_decoder.md): the read step of a poll, its refusal while one is in progress
(R222, R223), and its acknowledge step (R221, R222). -/

namespace Sys2Proof.Machine

/-! ### The acknowledge step -/

/-- Settles O41: the step clears the bits of the word held, and each class is decoded from its own bit of that word. -/
theorem pollAcknowledgesWhatItRead : Obligations.PollAcknowledgesWhatItRead := by
  intro s w rest hf ha hs
  exact ⟨_, decodeStatus s.cfg.layout w, step_resume_evt hf ha hs, rfl, decodeStatus_has s.cfg.layout w⟩

/-! ### The read step -/

theorem startPoll_of_none {s : State} (ha : s.ack = .none) :
    startPoll s = { readStatus s with ack := .pending s.intStatus } := by
  simp only [startPoll, ha]

theorem startPoll_of_pending {s : State} {w : Word} (ha : s.ack = .pending w) :
    startPoll s = refuse .pollInProgress s := by
  simp only [startPoll, ha]

/-- `POLL_ACK` and `POLL_EVENTS` are one operation, the read step (R222, R249). -/
theorem exec_poll {i : Instr} (hi : i = .pollAck ∨ i = .pollEvents) (s : State) : exec i s = .next (startPoll s) := by
  rcases hi with rfl | rfl <;> rfl

/-- Settles O39: both operations are the read step, whose two branches the latch of the poll decides. -/
theorem pollReadsStatusAndHoldsIt : Obligations.PollReadsStatusAndHoldsIt := by
  refine fun i hi => ⟨fun s ha => ?_, fun s w ha => ?_⟩
  · rw [exec_poll hi, startPoll_of_none ha, readStatus]
  · rw [exec_poll hi, startPoll_of_pending ha, refuse]

end Sys2Proof.Machine

/-! The family of the host-side mode logic (44_host_mode_logic.md): the validator's six rules (R240, R241) and the colour
layouts (R242), the sizer under both policies (R243 to R246, R250), the calls `PAN_Y`, `POLL_EVENTS` and `GET_MODE` (R248,
R249, R252), and `SET_MODE`, its first step and its run to the end (R247). -/

namespace Sys2Proof.Machine

/-! ### The sizer -/

section
variable {m : DisplayMode} {n : Nat} {s t : State} {o : OpOutcome} {hd : Nat} {pa : Word}

/-! The sizer's three ends (R245): nothing to do, no memory, and a fresh region. -/

theorem ensureBuffer_of_enough (henough : s.cfg.policy = .fixed ∨ requiredBytes m ≤ bufferCapacity s) :
    ensureBuffer m s = .ok s :=
  if_pos henough

theorem not_enough_of_lt (hp : s.cfg.policy = .grow) (hneed : bufferCapacity s < n) :
    ¬ (s.cfg.policy = .fixed ∨ n ≤ bufferCapacity s) := by
  simp [hp, hneed]

theorem ensureBuffer_of_noMemory (hp : s.cfg.policy = .grow) (hneed : bufferCapacity s < requiredBytes m)
    (hnone : NoMemory (requiredBytes m) s) : ensureBuffer m s = .error (.error (.sizer .outOfMemory)) := by
  simp only [ensureBuffer, if_neg (not_enough_of_lt hp hneed), allocate_eq_none hnone]

theorem ensureBuffer_of_granted (hp : s.cfg.policy = .grow) (hneed : bufferCapacity s < requiredBytes m)
    (hn : requiredBytes m < 2 ^ 32) (hr : s.allocReply = .grants hd pa)
    (hfresh : regionFresh pa (requiredBytes m) s = true) (hidle : s.seq = .idle) :
    ensureBuffer m s = .ok (activate hd pa (requiredBytes m) s.buf.toList s) := by
  simp only [ensureBuffer, if_neg (not_enough_of_lt hp hneed), allocate_eq_some hn hr hfresh, if_pos hidle]

theorem exec_sizerEnsure_of_ok (he : ensureBuffer m s = .ok t) :
    exec (.sizerEnsure m) s = .next (finish (.ok .unit) t) := by
  simp only [exec, execSizerEnsure, he]

theorem exec_sizerEnsure_of_error (he : ensureBuffer m s = .error o) :
    exec (.sizerEnsure m) s = .next (endWith o s) := by
  simp only [exec, execSizerEnsure, he]

/-! The fixed buffer's two ends (R246). It retires no buffer. -/

theorem activate_nil : activate hd pa n [] s = { storeReg .frameBase pa s with buf := some ⟨hd, pa, n⟩ } := by
  rw [activate, List.append_nil]
  rfl

theorem exec_sizerFixedInit_of_noMemory (hnone : NoMemory (fixedBytes s.cfg) s) :
    exec .sizerFixedInit s = .next (finish (.error (.sizer .outOfMemory)) s) := by
  simp only [exec, execSizerFixedInit, allocate_eq_none hnone]

theorem exec_sizerFixedInit_of_granted (hn : fixedBytes s.cfg < 2 ^ 32) (hr : s.allocReply = .grants hd pa)
    (hfresh : regionFresh pa (fixedBytes s.cfg) s = true) (hidle : s.seq = .idle) :
    exec .sizerFixedInit s = .next (finish (.ok .unit) (activate hd pa (fixedBytes s.cfg) [] s)) := by
  simp only [exec, execSizerFixedInit, allocate_eq_some hn hr hfresh, if_pos hidle]

end

/-- Settles O52: the three ends of the sizer, each the end of the call. -/
theorem sizerGrowsOrLeavesUntouched : Obligations.SizerGrowsOrLeavesUntouched := by
  refine fun m s => ⟨rfl, fun henough => ?_, fun hp hneed hnone => ?_, fun h pa hp hneed hn hr hfresh hidle => ?_⟩
  · exact exec_sizerEnsure_of_ok (ensureBuffer_of_enough henough)
  · exact exec_sizerEnsure_of_error (ensureBuffer_of_noMemory hp hneed hnone)
  · exact exec_sizerEnsure_of_ok (ensureBuffer_of_granted hp hneed hn hr hfresh hidle)

/-- Under the fixed policy the probe mode is as high as the fixed buffer (R246). -/
theorem probeMode_yresVirtual_of_wf {cfg : Config} (hw : cfg.wf = true) (hp : cfg.policy = .fixed) :
    cfg.probeMode.yresVirtual.toNat = cfg.multiplier * cfg.probeMode.yres.toNat := by
  simp only [Config.wf, Bool.and_eq_true] at hw
  simpa [Config.probeModeWf, hp] using hw.2

/-- Settles O53: the probe mode's height in a well-formed configuration, and the two ends of the call. -/
theorem fixedInitAllocatesDoubleCapacity : Obligations.FixedInitAllocatesDoubleCapacity := by
  refine ⟨fun cfg hw hp => ?_, fun s n hn => ?_⟩
  · have hheight := probeMode_yresVirtual_of_wf hw hp
    exact ⟨hheight, by rw [requiredBytes, hheight]⟩
  · have hfixed : n = fixedBytes s.cfg := hn
    subst hfixed
    refine ⟨fun hnone => exec_sizerFixedInit_of_noMemory hnone, fun h pa hlt hr hfresh hidle => ?_⟩
    rw [exec_sizerFixedInit_of_granted hlt hr hfresh hidle, activate_nil]
    rfl

/-! ### The validator -/

section
variable {cfg : Config} {r c : DisplayMode} {k : Nat} {cap : Option Nat}

/-! The first rule that fails decides the validator's answer (R240, R241). -/

theorem validateMode_of_missingClock (hclock : r.pixclock = 0#32) : validateMode cfg r c k cap = .error .missingClock := by
  simp only [validateMode, if_pos hclock]

variable (hclock : r.pixclock ≠ 0#32)
include hclock

theorem validateMode_of_tooFast (hfast : k < pixRate r.pixclock.toNat * bytesPerPixel r.bitsPerPixel.toNat) :
    validateMode cfg r c k cap = .error .clockTooFast := by
  simp only [validateMode, if_neg hclock, if_pos hfast]

variable (hfast : ¬ k < pixRate r.pixclock.toNat * bytesPerPixel r.bitsPerPixel.toNat)
include hfast

theorem validateMode_of_resized (hsize : r.xres ≠ c.xres ∨ r.yres ≠ c.yres ∨ r.xresVirtual ≠ c.xresVirtual) :
    validateMode cfg r c k cap = .error .resolutionFixed := by
  simp only [validateMode, if_neg hclock, if_neg hfast, if_pos hsize]

variable (hsize : ¬ (r.xres ≠ c.xres ∨ r.yres ≠ c.yres ∨ r.xresVirtual ≠ c.xresVirtual))
include hsize

theorem validateMode_of_height (hheight : r.yresVirtual.toNat < r.yres.toNat ∨
    (cfg.policy = .fixed ∧ c.yresVirtual.toNat < r.yresVirtual.toNat)) :
    validateMode cfg r c k cap = .error .virtualHeightOutOfRange := by
  simp only [validateMode, if_neg hclock, if_neg hfast, if_neg hsize, if_pos hheight]

variable (hheight : ¬ (r.yresVirtual.toNat < r.yres.toNat ∨
  (cfg.policy = .fixed ∧ c.yresVirtual.toNat < r.yresVirtual.toNat)))
include hheight

theorem validateMode_of_overCapacity (hfull : overCapacity cap (requiredBytes r) = true) :
    validateMode cfg r c k cap = .error .bufferTooSmall := by
  simp only [validateMode, if_neg hclock, if_neg hfast, if_neg hsize, if_neg hheight, if_pos hfull]

variable (hfull : ¬ overCapacity cap (requiredBytes r) = true)
include hfull

theorem validateMode_of_layout_none (hdepth : colorLayout r.bitsPerPixel.toNat cfg.colorOrder = none) :
    validateMode cfg r c k cap = .error .unsupportedDepth := by
  simp only [validateMode, if_neg hclock, if_neg hfast, if_neg hsize, if_neg hheight, if_neg hfull, hdepth]

theorem validateMode_of_layout_some {l : ColorFieldLayout}
    (hdepth : colorLayout r.bitsPerPixel.toNat cfg.colorOrder = some l) :
    validateMode cfg r c k cap = .ok { r with layout := some l } := by
  simp only [validateMode, if_neg hclock, if_neg hfast, if_neg hsize, if_neg hheight, if_neg hfull, hdepth]

end

theorem overCapacity_map_iff {cap : Option Word} {n : Nat} :
    overCapacity (cap.map BitVec.toNat) n = true ↔ ∃ w, cap = some w ∧ w.toNat < n := by
  cases cap <;> simp [overCapacity]

/-- What a call returns of the validator's answer (R280). -/
def validateOutcome : Except ModeError DisplayMode → OpOutcome
  | .error e => .error (.mode e)
  | .ok v => .ok (.mode v)

theorem exec_validate (r c : DisplayMode) (k : Word) (cap : Option Word) (s : State) : exec (.validate r c k cap) s =
    .next (finish (validateOutcome (validateMode s.cfg r c k.toNat (cap.map BitVec.toNat))) s) := by
  simp only [exec, execValidate]
  cases validateMode s.cfg r c k.toNat (cap.map BitVec.toNat) <;> rfl

/-- Settles O50: the call returns the validator's answer, which the first rule that fails decides. -/
theorem validateReportsFirstFailure : Obligations.ValidateReportsFirstFailure := by
  intro r c k cap s
  refine ⟨_, exec_validate r c k cap s, ?_⟩
  intro tooFast resized height tooSmall
  have hcap : tooSmall ↔ overCapacity (cap.map BitVec.toNat) (requiredBytes r) = true := overCapacity_map_iff.symm
  refine ⟨fun hclock => ?_, fun hclock hfast => ?_, fun hclock hfast hsize => ?_,
    fun hclock hfast hsize hheight => ?_, fun hclock hfast hsize hheight hfull => ?_,
    fun hclock hfast hsize hheight hfull hdepth => ?_, fun hclock hfast hsize hheight hfull hdepth => ?_⟩
  · exact congrArg validateOutcome (validateMode_of_missingClock hclock)
  · exact congrArg validateOutcome (validateMode_of_tooFast hclock hfast)
  · exact congrArg validateOutcome (validateMode_of_resized hclock hfast hsize)
  · exact congrArg validateOutcome (validateMode_of_height hclock hfast hsize hheight)
  · exact congrArg validateOutcome (validateMode_of_overCapacity hclock hfast hsize hheight (hcap.mp hfull))
  · have hnone : colorLayout r.bitsPerPixel.toNat s.cfg.colorOrder = none :=
      not_not.mp (mt supportedDepth_iff_colorLayout.mpr hdepth)
    exact congrArg validateOutcome
      (validateMode_of_layout_none hclock hfast hsize hheight (mt hcap.mpr hfull) hnone)
  · obtain ⟨l, hl⟩ := Option.ne_none_iff_exists'.mp (supportedDepth_iff_colorLayout.mp hdepth)
    exact ⟨l, hl, congrArg validateOutcome
      (validateMode_of_layout_some hclock hfast hsize hheight (mt hcap.mpr hfull) hl)⟩

/-! ### Colour layouts -/

/-- The layout of a low depth: each colour is the whole pixel (decision D24). -/
def wholePixel (bpp : Nat) : ColorFieldLayout := ⟨⟨0, bpp⟩, ⟨0, bpp⟩, ⟨0, bpp⟩, ⟨0, 0⟩⟩

/-- Three colours of given lengths from bit 0 on without a gap, green in the middle, red at the end the order names
(R242). -/
def packedPixel (red green blue : Nat) (alpha : BitField) : ColorOrder → ColorFieldLayout
  | .redLow => ⟨⟨0, red⟩, ⟨red, green⟩, ⟨red + green, blue⟩, alpha⟩
  | .redHigh => ⟨⟨blue + green, red⟩, ⟨blue, green⟩, ⟨0, blue⟩, alpha⟩

/-- Every colour layout there is (R242). -/
theorem colorLayout_cases {bpp : Nat} {o : ColorOrder} {l : ColorFieldLayout} (hl : colorLayout bpp o = some l) :
    (bpp ≤ 8 ∧ l = wholePixel bpp) ∨ (bpp = 16 ∧ l = packedPixel 5 6 5 ⟨0, 0⟩ o) ∨
      (bpp = 24 ∧ l = packedPixel 8 8 8 ⟨0, 0⟩ o) ∨ (bpp = 32 ∧ l = packedPixel 8 8 8 ⟨24, 8⟩ o) := by
  unfold colorLayout at hl
  split at hl <;> cases hl <;> simp [wholePixel, packedPixel]

section
variable {red green blue : Nat} {alpha : BitField} {o : ColorOrder} {l : ColorFieldLayout}
variable (hl : l = packedPixel red green blue alpha o)
include hl

theorem packedPixel_lengths :
    l.red.length = red ∧ l.green.length = green ∧ l.blue.length = blue ∧ l.alpha = alpha := by
  subst hl
  cases o <;> exact ⟨rfl, rfl, rfl, rfl⟩

theorem packedPixel_redLow (ho : o = .redLow) : l.red.offset = 0 ∧ l.green.offset = l.red.length ∧
    l.blue.offset = l.red.length + l.green.length := by
  subst hl ho
  exact ⟨rfl, rfl, rfl⟩

theorem packedPixel_redHigh (ho : o = .redHigh) : l.blue.offset = 0 ∧ l.green.offset = l.blue.length ∧
    l.red.offset = l.blue.length + l.green.length := by
  subst hl ho
  exact ⟨rfl, rfl, rfl⟩

end

/-- Settles O51: a layout is the whole pixel or is packed from bit 0 on, with the lengths of its depth. -/
theorem colourLayoutFollowsDepthAndOrder : Obligations.ColourLayoutFollowsDepthAndOrder := by
  refine fun bpp o => ⟨supportedDepth_iff_colorLayout, fun l h => ?_⟩
  rcases colorLayout_cases h with ⟨hlow, hl⟩ | ⟨rfl, hl⟩ | ⟨rfl, hl⟩ | ⟨rfl, hl⟩
  · exact ⟨fun _ => hl, by omega, by omega, by omega, by omega, by omega⟩
  all_goals
    obtain ⟨hred, hgreen, hblue, halpha⟩ := packedPixel_lengths hl
    refine ⟨by omega, ?_, ?_, ?_, fun _ => packedPixel_redLow hl, fun _ => packedPixel_redHigh hl⟩ <;>
      simp [hred, hgreen, hblue, halpha]

/-! ### The other calls -/

section
variable {y : Word} {s : State} {b : Buffer}

/-! The three ends of `PAN_Y` (R248). -/

theorem exec_panY_of_noBuffer (hb : s.buf = none) :
    exec (.panY y) s = .next (finish (.error (.pan .noBuffer)) s) := by
  simp only [exec, execPanY, hb]

theorem exec_panY_of_outOfRange (hb : s.buf = some b)
    (hy : s.curMode.yresVirtual.toNat < y.toNat + s.curMode.yres.toNat) :
    exec (.panY y) s = .next (finish (.error (.pan .outOfRange)) s) := by
  simp only [exec, execPanY, hb, if_pos hy]

theorem exec_panY_of_inRange (hb : s.buf = some b)
    (hy : y.toNat + s.curMode.yres.toNat ≤ s.curMode.yresVirtual.toNat) : exec (.panY y) s =
      .next (moveBase (panAddr s.cfg.fbAlignLog2 b.physicalBase.toNat (lineLength s.curMode) y.toNat) .unit s) := by
  simp only [exec, execPanY, hb, if_neg hy.not_gt]

end

/-- Settles O37: the three ends of the call, the last of which is the pan controller's one write. -/
theorem panYChecksRangeThenPans : Obligations.PanYChecksRangeThenPans := by
  refine ⟨fun y s hb => exec_panY_of_noBuffer hb, fun y s b hb hy => exec_panY_of_outOfRange hb hy,
    fun y s b hb hy hidle => ?_⟩
  rw [exec_panY_of_inRange hb hy, moveBase_of_idle hidle]
  rfl

/-- Settles O40: both operations are the read step of a poll. -/
theorem pollEventsIsPollAck : Obligations.PollEventsIsPollAck :=
  ⟨fun _ => rfl, rfl, fun s => (exec_poll (.inr rfl) s).trans (exec_poll (.inl rfl) s).symm⟩

/-- Settles O58: the call is the return of the current mode. -/
theorem getModeReturnsCurrentMode : Obligations.GetModeReturnsCurrentMode :=
  ⟨fun _ => rfl, fun _ => rfl⟩

/-! ### The first step of `SET_MODE` -/

theorem offeredCapacity_of_grow {s : State} (hp : s.cfg.policy = .grow) : offeredCapacity s = none := by
  simp only [offeredCapacity, hp]

section
variable {r v : DisplayMode} {s t : State} {e : ModeError} {o : OpOutcome}

/-! Its three ends (R247): the validator's error, the sizer's, and the mode kept for its commit. -/

theorem exec_setMode_of_invalid
    (hv : validateMode s.cfg r s.curMode s.cfg.clockKhz.toNat (offeredCapacity s) = .error e) :
    exec (.setMode r) s = .next (finish (.error (.mode e)) s) := by
  simp only [exec, execSetMode, hv]

variable (hv : validateMode s.cfg r s.curMode s.cfg.clockKhz.toNat (offeredCapacity s) = .ok v)
include hv

theorem exec_setMode_of_ensure_error (he : ensureBuffer v s = .error o) :
    exec (.setMode r) s = .next (endWith o s) := by
  simp only [exec, execSetMode, hv, he]

theorem exec_setMode_of_ensure_ok (he : ensureBuffer v s = .ok t) :
    exec (.setMode r) s = .next { t with setModeGap := some v } := by
  simp only [exec, execSetMode, hv, he]

end

/-- Settles O54: the mode waits for its commit in the state the sizer leaves. -/
theorem setModeKeepsValidatedMode : Obligations.SetModeKeepsValidatedMode := by
  refine ⟨fun r s v h pa hv hp hneed hn hr hfresh hidle => ?_, fun r s v hv henough => ?_⟩
  · rw [← offeredCapacity_of_grow hp] at hv
    exact exec_setMode_of_ensure_ok hv (ensureBuffer_of_granted hp hneed hn hr hfresh hidle)
  · exact exec_setMode_of_ensure_ok hv (ensureBuffer_of_enough henough)

/-- An operation that returns an error does nothing else (R280). -/
theorem exec_error_changes_nothing {i : Instr} {s t : State} {e : OpError} (hs : s.out = none)
    (h : exec i s = .next t) (he : t.out = some (.error e)) : t = finish (.error e) s := by
  rcases (exec_next h).ends_or_quiet with ⟨o, rfl⟩ | ⟨-, -, hout⟩
  · rw [endWith_eq] at he
    cases he
    rfl
  · simp [he, hs] at hout

/-- Settles O55: the two errors by their causes, and no operation changes anything where it returns an error. -/
theorem failedSetModeChangesNothing : Obligations.FailedSetModeChangesNothing := by
  refine ⟨fun r s e hv => exec_setMode_of_invalid hv, fun r s v hv hp hneed hnone => ?_,
    fun r s t e hs h he => exec_error_changes_nothing hs h he⟩
  rw [← offeredCapacity_of_grow hp] at hv
  exact exec_setMode_of_ensure_error hv (ensureBuffer_of_noMemory hp hneed hnone)

/-! ### `SET_MODE` to its end -/

/-- What a sizer that succeeds for a mode, given the allocator's answer, leaves in registers and buffers: all as it was where
no growth is needed, and else the fresh region (R245). The frame base is written either way. -/
def SizerLeaves (v : DisplayMode) (reply : AllocReply) (s : State) (x : Regs) (buf : Option Buffer)
    (retired : List Buffer) : Prop :=
  ((s.cfg.policy = .fixed ∨ requiredBytes v ≤ bufferCapacity s) ∧ isWritten s.regs.frameBase = true ∧
    x = s.regs ∧ buf = s.buf ∧ retired = s.retired) ∨
  ∃ h pa, s.cfg.policy = .grow ∧ bufferCapacity s < requiredBytes v ∧ requiredBytes v < 2 ^ 32 ∧
    reply = .grants h pa ∧ regionFresh pa (requiredBytes v) s = true ∧
    x = { s.regs with frameBase := .holds pa } ∧ buf = some ⟨h, pa, requiredBytes v⟩ ∧
    retired = s.retired ++ s.buf.toList

section
variable {s : State} {r v : DisplayMode} {reply : AllocReply} {rest : List Action} {x : Regs} {buf : Option Buffer}
  {retired : List Buffer}

theorem SizerLeaves.frameBase_written (h : SizerLeaves v reply s x buf retired) : isWritten x.frameBase = true := by
  rcases h with ⟨-, hbase, rfl, -, -⟩ | ⟨h, pa, -, -, -, -, -, rfl, -, -⟩
  · exact hbase
  · rfl

/-- The sizer in the step of the request, with the allocator's answer in place. -/
theorem SizerLeaves.ensureBuffer (h : SizerLeaves v reply s x buf retired) (hidle : s.seq = .idle) (rest : List Action) :
    ∃ t, ensureBuffer v { beginStep rest s with allocReply := reply } = .ok t ∧ EventsKept s t ∧ t.fault = s.fault ∧
      t.schedule = rest ∧ ConfigKept { s with regs := x, buf := buf, retired := retired } t := by
  rcases h with ⟨henough, -, rfl, rfl, rfl⟩ | ⟨h, pa, hp, hneed, hn, hr, hfresh, rfl, rfl, rfl⟩
  · exact ⟨_, ensureBuffer_of_enough (s := { beginStep rest s with allocReply := reply }) henough, ⟨rfl, rfl, rfl⟩, rfl,
      rfl, {}⟩
  · exact ⟨_, ensureBuffer_of_granted (s := { beginStep rest s with allocReply := reply }) hp hneed hn hr hfresh hidle,
      ⟨rfl, rfl, rfl⟩, rfl, rfl, {}⟩

/-- The first step of a `SET_MODE` that succeeds (R247). -/
theorem step_issue_setMode (hf : s.fault = none) (hidle : s.seq = .idle) (hgap : s.setModeGap = none)
    (hr : r.wf = true) (hv : validateMode s.cfg r s.curMode s.cfg.clockKhz.toNat (offeredCapacity s) = .ok v)
    (hsizer : SizerLeaves v reply s x buf retired)
    (hs : s.schedule = .issue .cfg (encode (.setMode r)) reply :: rest) :
    ∃ t, step s = .next t ∧ EventsKept s t ∧
      SparedUntil rest { s with regs := x, buf := buf, retired := retired, setModeGap := some v } t := by
  obtain ⟨t, ht, hevents, hfault, hschedule, hk⟩ := hsizer.ensureBuffer hidle rest
  have hrun := stepRunsDecodedOperation s .cfg _ reply rest _ hf hs (decodeInvertsEncode (.setMode r) hr) rfl
    fun _ => ⟨hidle, hgap⟩
  have hexec := exec_setMode_of_ensure_ok (s := { beginStep rest s with allocReply := reply }) hv ht
  exact ⟨_, hrun.trans hexec, hevents, { hk with setModeGap := rfl, fault := hfault.trans hf, schedule := hschedule }⟩

end

section
variable {s : State} {v : DisplayMode} {t : CommittedTiming}

theorem continueCfg_of_gap_some (hgap : s.setModeGap = some v) :
    continueCfg s = startCommit (some v) v s.cfg.clockKhz { s with setModeGap := none } := by
  simp only [continueCfg, hgap]

variable {e0 e1 e2 e3 rest : List Action} (hf : s.fault = none) (hidle : s.seq = .idle) (hgap : s.setModeGap = some v)
  (hplan : planCommit s.cfg v s.cfg.clockKhz = .ready t) (he0 : ∀ a ∈ e0, a.sparesCfg = true)
include hf hidle hgap hplan he0

/-- The mode passes from the gap to the commit that starts, whatever comes before it (R170, R247). -/
theorem stepN_start_of_gap (hs : s.schedule = e0 ++ .resume .cfg :: rest) :
    ∃ u, stepN (e0.length + 1) s = .next u ∧ SparedUntil rest
      { storeReg .clockPolarity t.cp s with seq := .c1, pend := some ⟨t, some v⟩, setModeGap := none } u := by
  obtain ⟨c, hrun, hc⟩ := stepN_spared_resume he0 hf hs
  have hstart := startCommit_of_ready (s := { c with setModeGap := none }) (some v) (hc.seq.trans hidle)
    (hc.cfg.symm ▸ hplan)
  rw [continueCfg_of_gap_some (hc.setModeGap.trans hgap), hstart] at hrun
  exact ⟨_, hrun, { hc.advance .clockPolarity t.cp .c1 with
    pend := rfl, setModeGap := rfl, fault := hc.fault, schedule := hc.schedule }⟩

/-- The commit of a waiting mode runs to its end, whatever comes between its writes, and makes the mode current with the
achieved `pixclock` (R169, R170, R247). -/
theorem stepN_commit_of_gap (hbase : isWritten s.regs.frameBase = true)
    (he : ∀ a ∈ e1 ++ e2 ++ e3, a.sparesCfg = true) (hs : s.schedule = e0 ++ .resume .cfg ::
      (e1 ++ .resume .cfg :: (e2 ++ .resume .cfg :: (e3 ++ .resume .cfg :: rest)))) :
    ∃ u, stepN (4 + (e0.length + e1.length + e2.length + e3.length)) s = .next u ∧
      SparedUntil rest { s with
        regs := committedRegs s.regs t, pend := none, setModeGap := none,
        curMode := { v with pixclock := t.pixclock } } u ∧
      u.out = some (.ok (.mode { v with pixclock := t.pixclock })) ∧ u.bus = some (.write .control t.ct) := by
  obtain ⟨c, hstart, hc⟩ := stepN_start_of_gap hf hidle hgap hplan he0 hs
  obtain ⟨w, hrun, hw⟩ := stepN_commit_of_c1 he hc.fault hc.setModeGap hc.seq hc.pend hc.schedule
  have hk := ((hc.advance .htiming t.ht .c2).advance .vtiming t.vt .c3).trans hw.toConfigKept
  have hearly : enableTooEarly t.ct w = false := by
    refine enableTooEarly_eq_false_iff.mpr (.inr ?_)
    rw [hk.regs]
    exact ⟨rfl, rfl, rfl, hbase⟩
  rw [endCommit_of_setMode_some (v := v) hearly rfl] at hrun
  have hcount : 4 + (e0.length + e1.length + e2.length + e3.length) =
      e0.length + 1 + (e1.length + 1 + (e2.length + 1) + (e3.length + 1)) := by omega
  refine ⟨_, hcount ▸ stepN_trans hstart hrun, ?_, rfl, rfl⟩
  exact { hk.advance .control t.ct .idle with
    seq := hidle.symm, pend := rfl, curMode := rfl, fault := hw.fault, schedule := hw.schedule }

end

/-! What the configuration context's own steps leave of the other side, over a run (R31). -/

theorem startCommit_schedule (v : Option DisplayMode) (m : DisplayMode) (k : Word) (s : State) :
    (startCommit v m k s).schedule = s.schedule := by
  rcases startCommit_cases v m k s with ⟨-, h⟩ | ⟨f, -, -, h⟩ | ⟨e, -, -, h⟩ | ⟨c, -, -, h⟩ <;> rw [h] <;> rfl

theorem endCommit_schedule (p : Pend) (s : State) : (endCommit p s).schedule = s.schedule := by
  rcases endCommit_cases p s with ⟨-, h⟩ | ⟨-, -, h⟩ | ⟨v, -, -, h⟩ <;> rw [h] <;> rfl

theorem continueCommit_schedule (s : State) : (continueCommit s).schedule = s.schedule := by
  rcases continueCommit_cases s with h | ⟨p, -, -, h⟩ | ⟨p, -, -, h⟩ | ⟨p, -, -, h⟩ <;> rw [h]
  · rfl
  · rfl
  · exact endCommit_schedule p s

theorem continueCfg_schedule (s : State) : (continueCfg s).schedule = s.schedule := by
  rcases continueCfg_cases s with ⟨v, -, h⟩ | ⟨-, h⟩ <;> rw [h]
  · exact startCommit_schedule (some v) v s.cfg.clockKhz { s with setModeGap := none }
  · exact continueCommit_schedule s

theorem EventsKept.trans {s t u : State} (h : EventsKept s t) (h' : EventsKept t u) : EventsKept s u := by
  obtain ⟨hstatus, hack, hscan⟩ := h
  obtain ⟨hstatus', hack', hscan'⟩ := h'
  exact ⟨hstatus'.trans hstatus, hack'.trans hack, hscan'.trans hscan⟩

/-- A run that goes on begins with a step that does. -/
theorem stepN_succ_next {n : Nat} {s t : State} (h : stepN (n + 1) s = .next t) :
    ∃ u, step s = .next u ∧ stepN n u = .next t := by
  unfold stepN at h
  split at h
  · exact ⟨_, ‹_›, h⟩
  · cases h
  · cases h

theorem eventsKept_stepN_resume_cfg {n : Nat} {s t : State} (hs : s.schedule = List.replicate n (.resume .cfg))
    (h : stepN n s = .next t) : EventsKept s t := by
  induction n generalizing s with
  | zero =>
    cases h
    exact ⟨rfl, rfl, rfl⟩
  | succ n ih =>
    obtain ⟨u, hstep, hrun⟩ := stepN_succ_next h
    obtain ⟨hf, -⟩ := step_next hstep
    rw [step_of_schedule_cons hf hs] at hstep
    cases hstep
    exact (eventsKept_continueCfg (beginStep _ s)).trans (ih (continueCfg_schedule _) hrun)

/-- A validated mode whose fields fit, or need not, is committable under the same clock (R240, R247). -/
theorem committable_of_validated {cfg : Config} {r c v : DisplayMode} {k : Word} {cap : Option Nat}
    (hv : validateMode cfg r c k.toNat cap = .ok v) (hfields : cfg.overflowPolicy = .truncate ∨ FieldsFit cfg v k) :
    Committable cfg v k := by
  obtain ⟨hdepth, hpix, hclock⟩ := validateMode_ok_depth hv
  exact ⟨hpix, fun h0 => by simp [h0] at hclock, hfields, hdepth⟩

/-- Settles O56: the validated mode is committable, so after the first step its commit runs to the end; with nothing in
between, all steps are the configuration context's. -/
theorem setModeRunsToCompletion : Obligations.SetModeRunsToCompletion := by
  intro s r v reply e0 e1 e2 e3 x buf retired hf hidle hgap hr hv hfields hsizer he hs
  have hleaves : SizerLeaves v reply s x buf retired := hsizer
  obtain ⟨t, ht, hplan⟩ := planCommit_of_committable (committable_of_validated hv hfields)
  obtain ⟨he0, he123⟩ : (∀ a ∈ e0, a.sparesCfg = true) ∧ ∀ a ∈ e1 ++ e2 ++ e3, a.sparesCfg = true := by
    simpa only [List.append_assoc, List.forall_mem_append] using he
  obtain ⟨c, hstep, hevents, hc⟩ := step_issue_setMode hf hidle hgap hr hv hleaves
    (by simpa only [List.append_assoc, List.cons_append] using hs)
  have hwritten : isWritten c.regs.frameBase = true := by
    rw [hc.regs]
    exact hleaves.frameBase_written
  obtain ⟨u, hrun, hu, hout, hbus⟩ := stepN_commit_of_gap hc.fault (hc.seq.trans hidle) hc.setModeGap
    (hc.cfg.symm ▸ hplan) he0 hwritten he123 hc.schedule
  have hcount : 5 + (e0.length + e1.length + e2.length + e3.length) =
      4 + (e0.length + e1.length + e2.length + e3.length) + 1 := by omega
  refine ⟨t, u, ht, hcount ▸ (stepN_succ_of_step hstep).trans hrun, ?_, hu.curMode, hout, hbus, hu.fault,
    hu.seq.trans (hc.seq.trans hidle), hu.pend, hu.setModeGap, hu.buf.trans hc.buf, hu.retired.trans hc.retired,
    hu.irqInited.trans hc.irqInited, hu.schedule, fun hempty => ?_⟩
  · rw [hu.regs]
    exact congrArg (committedRegs · t) hc.regs
  · simp only [List.append_eq_nil_iff] at hempty
    obtain ⟨⟨⟨rfl, rfl⟩, rfl⟩, rfl⟩ := hempty
    obtain ⟨hstatus, -, hscan⟩ := hevents.trans (eventsKept_stepN_resume_cfg (n := 4) hc.schedule hrun)
    exact ⟨hstatus, hscan⟩

end Sys2Proof.Machine

/-! The family of the exceptions (60_exceptions.md): requests outside an agent's rights (R286, R294), the raise of events
(R287), their pending and clearing (R289), and that they are not errors (R295). -/

namespace Sys2Proof.Machine

/-! ### What clears an event -/

/-- An event pending in `s` is pending in `t` too, unless a word with its bit set is on the bus to `INT_CLEAR` (R289). -/
def LosesOnlyAcknowledged (s t : State) : Prop :=
  ∀ e : StatusEvent, s.intStatus.getLsbD (e.bit s.cfg.layout) = true →
    t.intStatus.getLsbD (e.bit s.cfg.layout) = true ∨
      ∃ v, t.bus = some (.write .intClear v) ∧ v.getLsbD (e.bit s.cfg.layout) = true

theorem losesOnlyAcknowledged_of_eq {s t : State} (h : t.intStatus = s.intStatus) : LosesOnlyAcknowledged s t :=
  fun _ hset => .inl (h ▸ hset)

/-- A bit that a write of `INT_CLEAR` clears is 1 in the word written (R137). -/
theorem losesOnlyAcknowledged_of_clearStatus {s t : State} {v : Word} (hs : t.intStatus = (clearStatus v s).intStatus)
    (hb : t.bus = some (.write .intClear v)) : LosesOnlyAcknowledged s t := by
  intro e hset
  rw [hs, getLsbD_clearStatus v s (BitVec.lt_of_getLsbD hset), hset]
  cases hv : v.getLsbD (e.bit s.cfg.layout) with
  | false => exact .inl rfl
  | true => exact .inr ⟨v, hb, hv⟩

theorem losesOnlyAcknowledged_raiseStatus (S : EventSet) (s : State) : LosesOnlyAcknowledged s (raiseStatus S s) :=
  fun e hset => .inl (by rw [getLsbD_raiseStatus, hset, Bool.true_or])

theorem losesOnlyAcknowledged_deLatch (s : State) : LosesOnlyAcknowledged s (deLatch s) := by
  rcases deLatch_cases s with ⟨-, h⟩ | ⟨a, -, -, h⟩ <;> rw [h]
  · exact losesOnlyAcknowledged_of_eq rfl
  · exact losesOnlyAcknowledged_raiseStatus EventSet.baseUpdated { s with scanBase := a }

theorem losesOnlyAcknowledged_deDrawReserved (w : Word) (s : State) : LosesOnlyAcknowledged s (deDrawReserved w s) :=
  fun e hset => .inl ((getLsbD_deDrawReserved w s e (BitVec.lt_of_getLsbD hset)).trans hset)

theorem startPoll_intStatus (s : State) : (startPoll s).intStatus = s.intStatus := by
  rcases startPoll_cases s with ⟨-, h⟩ | ⟨w, -, h⟩ <;> rw [h] <;> rfl

theorem losesOnlyAcknowledged_continuePoll (s : State) : LosesOnlyAcknowledged s (continuePoll s) := by
  rcases continuePoll_cases s with ⟨-, h⟩ | ⟨w, -, h⟩ <;> rw [h]
  · exact losesOnlyAcknowledged_of_eq rfl
  · exact losesOnlyAcknowledged_of_clearStatus rfl rfl

/-- Of the event context's operations only `WR.INT_CLEAR` writes the status word (R294). -/
theorem losesOnlyAcknowledged_exec_of_owner_evt {i : Instr} (hi : owner i = .evt) {s t : State}
    (h : exec i s = .next t) : LosesOnlyAcknowledged s t := by
  cases i with
  | wrIntClear v => cases h; exact losesOnlyAcknowledged_of_clearStatus rfl rfl
  | rdIntStatus => cases h; exact losesOnlyAcknowledged_of_eq rfl
  | wrIntStatus v => cases h; exact losesOnlyAcknowledged_of_eq rfl
  | rdIntClear => cases h; exact losesOnlyAcknowledged_of_eq rfl
  | pollAck => cases h; exact losesOnlyAcknowledged_of_eq (startPoll_intStatus s)
  | pollEvents => cases h; exact losesOnlyAcknowledged_of_eq (startPoll_intStatus s)
  | _ => cases hi

theorem losesOnlyAcknowledged_exec {i : Instr} {s t : State} (h : exec i s = .next t) : LosesOnlyAcknowledged s t := by
  cases hi : owner i with
  | cfg =>
    obtain ⟨hstatus, -, -⟩ := (exec_next h).eventsKept hi
    exact losesOnlyAcknowledged_of_eq hstatus
  | evt => exact losesOnlyAcknowledged_exec_of_owner_evt hi h

/-- Whichever agent steps, it takes a pending event away only through `INT_CLEAR`. -/
theorem perform_losesOnlyAcknowledged {a : Action} {s t : State} (h : perform a s = .next t) :
    LosesOnlyAcknowledged s t := by
  cases a with
  | issue agent c reply =>
    rcases issue_next h with ⟨r, rfl⟩ | ⟨i, -, -, hx⟩
    · exact losesOnlyAcknowledged_of_eq rfl
    · exact (losesOnlyAcknowledged_exec hx :)
  | resume ctx =>
    cases ctx with
    | cfg =>
      cases h
      obtain ⟨hstatus, -, -⟩ := eventsKept_continueCfg s
      exact losesOnlyAcknowledged_of_eq hstatus
    | evt =>
      cases h
      exact losesOnlyAcknowledged_continuePoll s
  | raise S =>
    cases h
    exact losesOnlyAcknowledged_raiseStatus S s
  | latch =>
    cases h
    exact losesOnlyAcknowledged_deLatch s
  | scan =>
    cases h
    exact losesOnlyAcknowledged_of_eq rfl
  | drawReserved w =>
    cases h
    exact losesOnlyAcknowledged_deDrawReserved w s
  | free k => rcases hostFree_next h with rfl | rfl <;> exact losesOnlyAcknowledged_of_eq rfl

theorem step_losesOnlyAcknowledged {s t : State} (h : step s = .next t) : LosesOnlyAcknowledged s t := by
  obtain ⟨-, ⟨-, rfl⟩ | ⟨a, rest, -, hp⟩⟩ := step_next h
  · exact losesOnlyAcknowledged_of_eq rfl
  · exact perform_losesOnlyAcknowledged (s := beginStep rest s) hp

/-- A bit that is 1 in the word written to `INT_CLEAR` is 0 afterwards (R137). -/
theorem getLsbD_clearStatus_of_set {w : Word} {n : Nat} (h : w.getLsbD n = true) (s : State) :
    (clearStatus w s).intStatus.getLsbD n = false := by
  rw [getLsbD_clearStatus w s (BitVec.lt_of_getLsbD h), h, Bool.not_true, Bool.and_false]

/-- Settles O43: the write clears what it names, the reads clear nothing, the acknowledge is such a write of the word held,
and no step of any agent loses an event that is not acknowledged. -/
theorem onlyAcknowledgeClearsEvents : Obligations.OnlyAcknowledgeClearsEvents := by
  refine ⟨fun v s t e h hv => ?_, fun s t h => ?_, fun s t ha h => ?_, fun s w rest hf ha hs => ?_,
    fun s t e h hset hclear => ?_⟩
  · cases h
    exact getLsbD_clearStatus_of_set hv s
  · cases h
    rfl
  · cases h
    rw [startPoll_of_none ha]
    exact ⟨rfl, rfl⟩
  · exact ⟨_, step_resume_evt hf ha hs, rfl, fun e hw => getLsbD_clearStatus_of_set hw (beginStep rest s)⟩
  · exact (step_losesOnlyAcknowledged h e hset).resolve_left (by simp [hclear])

/-! ### Requests outside an agent's rights -/

theorem gate_of_foreign {a : Agent} {i : Instr} (h : a ≠ (owner i).agent) (s : State) :
    gate a i s = some .foreignWriter := by
  simp only [gate, if_pos h]

/-- The event context's rights (R294): the operations on `INT_STATUS` and `INT_CLEAR`. -/
theorem owner_eq_evt_iff (i : Instr) : owner i = .evt ↔ i = .rdIntStatus ∨ (∃ v, i = .wrIntClear v) ∨ i = .pollAck ∨
    i = .pollEvents ∨ (∃ v, i = .wrIntStatus v) ∨ i = .rdIntClear := by
  constructor
  · intro h
    cases i with
    | rdIntStatus => exact .inl rfl
    | wrIntClear v => exact .inr (.inl ⟨v, rfl⟩)
    | pollAck => exact .inr (.inr (.inl rfl))
    | pollEvents => exact .inr (.inr (.inr (.inl rfl)))
    | wrIntStatus v => exact .inr (.inr (.inr (.inr (.inl ⟨v, rfl⟩))))
    | rdIntClear => exact .inr (.inr (.inr (.inr (.inr rfl))))
    | _ => cases h
  · rintro (rfl | ⟨v, rfl⟩ | rfl | rfl | ⟨v, rfl⟩ | rfl) <;> rfl

/-- Settles O8: the gate looks at the agent's rights first, and its refusal sets the mark alone. -/
theorem foreignRequestsAreRefused : Obligations.ForeignRequestsAreRefused := by
  refine ⟨fun s a c reply rest i hf hs hd ha => ?_, owner_eq_evt_iff⟩
  calc step s = issue a c reply (beginStep rest s) := step_of_schedule_cons hf hs
    _ = .next (refuse .foreignWriter (beginStep rest s)) := issue_of_gate_some hd (gate_of_foreign ha _) reply

/-! ### The raise of events -/

/-- What a raise does to the bit of a class (R287). -/
theorem getLsbD_raiseStatus_bit {s : State} (hw : s.cfg.layout.wf = true) (S : EventSet) (e : StatusEvent) :
    (raiseStatus S s).intStatus.getLsbD (e.bit s.cfg.layout) = (s.intStatus.getLsbD (e.bit s.cfg.layout) ||
      (S.has e && (shownMask s).getLsbD (e.bit s.cfg.layout))) := by
  rw [getLsbD_raiseStatus, getLsbD_eventWord_bit hw]

/-- Settles O45: the word of the set has its classes' bits alone, and the mask shown is full or the enable mask. -/
theorem raiseSetsShownClasses : Obligations.RaiseSetsShownClasses := by
  refine fun s S hw => ⟨raiseStatus S s, rfl, rfl, fun n hn hother => ?_, fun hmask e => ?_, fun m hmask hm e => ?_⟩
  · rw [getLsbD_raiseStatus, getLsbD_eventWord_other hn hother, Bool.false_and, Bool.or_false]
  · rw [getLsbD_raiseStatus_bit hw, getLsbD_shownMask_of_shown (e.bit_lt hw) (.inl hmask), Bool.and_true]
  · rw [getLsbD_raiseStatus_bit hw, shownMask_of_masked hmask hm]

/-! ### Events are not errors -/

theorem continuePoll_of_pending {s : State} {w : Word} (ha : s.ack = .pending w) : continuePoll s =
    finish (.ok (.events (decodeStatus s.cfg.layout w))) { clearStatus w s with ack := .none } := by
  simp only [continuePoll, ha]

/-- Settles O47: an engine step touches the status word and the scan base, and a poll ends with a result, not with an error,
a fault or a refusal. -/
theorem engineStepsChangeStatusAndScanOnly : Obligations.EngineStepsChangeStatusAndScanOnly := by
  refine ⟨fun a s ha => perform_engine ha s, fun s w ha => ⟨continuePoll s, rfl, ?_⟩⟩
  rw [continuePoll_of_pending ha]
  exact ⟨rfl, rfl, rfl, rfl, rfl⟩

end Sys2Proof.Machine

/-! The family of the reset and the hazards (70_reset_and_hazards.md): the grace condition of a retired buffer's release
(R325). -/

namespace Sys2Proof.Machine

/-! ### The release of a retired buffer -/

/-- Settles O49, along the three ends of a release: there is a buffer at the index, so it is released where the address
scanned is outside it, and the machine stops where it is inside. -/
theorem releaseWaitsForGrace : Obligations.ReleaseWaitsForGrace := by
  intro s k b hb
  rcases hostFree_cases k s with ⟨hnone, -⟩ | ⟨c, hc, hout, hfree⟩ | ⟨c, hc, hin, hfree⟩
  · cases hb.symm.trans hnone
  · cases hb.symm.trans hc
    exact ⟨fun _ => hfree, fun _ _ => hout⟩
  · cases hb.symm.trans hc
    refine ⟨fun hout => ?_, fun t ht => ?_⟩
    · cases hin.symm.trans hout
    · cases hfree.symm.trans ht

end Sys2Proof.Machine
